-- ==== Sys2Proof/Word.lean ====
section
/-! DEFINITION. The word types of the block (00_scope R11, R12): 32-bit command, operand, status and data words, host bytes, buffer samples, and the bit pattern of a binary32. -/

namespace Sys2Proof

/-- A command, operand, status or data word: 32 bits (00_scope R11). -/
abbrev Word := BitVec 32

/-- One byte of host memory (20_memory R34). -/
abbrev Byte := BitVec 8

/-- A buffer sample, `i16` in two's complement (00_scope R11, R12). -/
abbrev Sample := BitVec 16

/-- The bit pattern of an IEEE 754 binary32 (00_scope R14). -/
abbrev F32 := BitVec 32

/-- `w[hi:lo]`, read as an unsigned integer (00_scope R12). -/
def Word.field (w : Word) (hi lo : Nat) : Nat := (w.toNat / 2 ^ lo) % 2 ^ (hi + 1 - lo)

end Sys2Proof
end

