-- ==== Sys2Proof/Config.lean ====
section
/-! DEFINITION. The language of coefficient expressions (00_scope R15), the parameters of the block and their reference values (00_scope R11), and the free values: opaque constants nothing can evaluate. -/

namespace Sys2Proof

/-- `CAP`: the delay capacity per channel, in samples (00_scope R11). -/
def Config.cap : Nat := 48000

/-- The expression `e` of a block coefficient `Coef(e)` (00_scope R15), as written in the coefficient
rules of the stage files. A parameter stands for the exact real value of its stored binary32. -/
inductive RealExpr where
  /-- the rational `num / den`: integers and decimal literals -/
  | rat (num : Int) (den : Nat)
  /-- the exact real value of a stored binary32 -/
  | f32 (v : F32)
  | pi
  | add (a b : RealExpr)
  | sub (a b : RealExpr)
  | mul (a b : RealExpr)
  | div (a b : RealExpr)
  | min (a b : RealExpr)
  | sqrt (a : RealExpr)
  | exp (a : RealExpr)
  | sin (a : RealExpr)
  | cos (a : RealExpr)
  /-- `base ^ a` for an integer base (10 and 1000 in the rules) -/
  | pow (base : Nat) (a : RealExpr)
  deriving DecidableEq, Repr

/-- The parameters of 00_scope R11 (92 "OPEN parameters"): what a model takes as arguments, fixed for a machine. -/
structure Config where
  /-- `FS_MIN`, the lowest supported sample rate in Hz -/
  fsMin : Int
  /-- `FS_MAX`, the highest supported sample rate in Hz -/
  fsMax : Int
  /-- `COMB_LEN[0]` to `COMB_LEN[7]`, in samples (46_reverb R151) -/
  combLen0 : Nat
  combLen1 : Nat
  combLen2 : Nat
  combLen3 : Nat
  combLen4 : Nat
  combLen5 : Nat
  combLen6 : Nat
  combLen7 : Nat
  /-- the width of a host byte address in bits (20_memory R34) -/
  addrWidth : Nat
  /-- `Numerics.elem`: the expressions on which this host's `Coef` answers another value than the spec's reference
  (00_scope R15), each with that value; `Coef` is the reference on every other one (log 5) -/
  coefOther : List (RealExpr × F32)
  deriving DecidableEq, Repr

/-- The reference configuration: the values of 00_scope R11, and `Coef` the reference everywhere. -/
def Config.reference : Config where
  fsMin := 8000
  fsMax := 192000
  combLen0 := 1117
  combLen1 := 1187
  combLen2 := 1277
  combLen3 := 1361
  combLen4 := 1423
  combLen5 := 1489
  combLen6 := 1559
  combLen7 := 1619
  addrWidth := 32
  coefOther := []

/-- The number of host byte addresses (20_memory R34). -/
def Config.addressSpace (c : Config) : Nat := 2 ^ c.addrWidth

/-- The binary32 operations whose result can be a NaN. -/
inductive NaNSource where
  | add | sub | mul | div | sqrt | floor
  deriving DecidableEq, Repr

/-- FREE VALUE (log 7). The sign and the 22 low fraction bits of the quiet NaN that an operation
answers: IEEE 754 does not fix them, and neither does 00_scope R14. -/
opaque Config.nanBits : NaNSource → F32 → F32 → BitVec 23

/-- FREE VALUE (log 6). The coefficient of an expression that the enclosures of Machine/Coef.lean do not
decide: one with no real value (a NaN or infinite parameter, which no run holds), or one that lies too
close to a rounding boundary for every precision tried. -/
opaque Config.coefOpen : RealExpr → F32

/-- FREE VALUE (log 16). The integer `floor` of a binary32 that has none (NaN, infinities), in the delay's
offset computation: 47_delay R165 has `prod` finite, so no run reaches it. -/
opaque Config.floorOpen : F32 → Int

end Sys2Proof
end

