-- ==== Sys2Proof/Machine/Float.lean ====
section
/-! DEFINITION. IEEE 754 binary32 arithmetic (00_scope R14): each operation computes the exact result in integers and rounds it once, to nearest with ties to even. -/

namespace Sys2Proof.Machine

/-- The value of a binary32: `(-1)^neg × mant × 2^exp`, an infinity, or no number. -/
inductive Num where
  | nan
  | inf (neg : Bool)
  | fin (neg : Bool) (mant : Nat) (exp : Int)
  deriving DecidableEq, Repr

/-- The fields of a bit pattern: sign, biased exponent, fraction. -/
def fsign (x : F32) : Bool := x.getLsbD 31
def fexp (x : F32) : Nat := x.toNat / 2 ^ 23 % 2 ^ 8
def ffrac (x : F32) : Nat := x.toNat % 2 ^ 23

/-- The value a bit pattern stands for. -/
def unpack (x : F32) : Num :=
  if fexp x = 255 then (if ffrac x = 0 then .inf (fsign x) else .nan)
  else if fexp x = 0 then .fin (fsign x) (ffrac x) (-149)
  else .fin (fsign x) (2 ^ 23 + ffrac x) (fexp x - 150)

def isNaN (x : F32) : Bool := fexp x == 255 && ffrac x != 0
def isInf (x : F32) : Bool := fexp x == 255 && ffrac x == 0
def isFinite (x : F32) : Bool := fexp x != 255

/-- A sign and the 31 bits below it. -/
def packBits (neg : Bool) (mag : Nat) : F32 := BitVec.ofNat 32 (mag + if neg then 2 ^ 31 else 0)

/-- The infinity of a sign. -/
def finf (neg : Bool) : F32 := packBits neg 0x7F800000

/-- The zero of a sign. -/
def fzero (neg : Bool) : F32 := packBits neg 0

/-- The quiet NaN an operation answers. Its sign and its low fraction bits are a free value (log 7). -/
def nanResult (op : NaNSource) (a b : F32) : F32 :=
  let free := Config.nanBits op a b
  packBits (free.getLsbD 22) (0x7FC00000 + free.toNat % 2 ^ 22)

/-- `m / 2^k`, to the nearest integer, ties to the even one. -/
def shiftNearestEven (m k : Nat) : Nat :=
  let q := m / 2 ^ k
  let r := m % 2 ^ k
  if 2 * r > 2 ^ k ∨ (2 * r = 2 ^ k ∧ q % 2 = 1) then q + 1 else q

/-- The exponent of the last place of the binary32 nearest `m × 2^e`, for `m ≠ 0`: 24 significant bits, but
no place below `2^-149`. -/
def ulpExp (m : Nat) (e : Int) : Int := max (e + Nat.log2 m - 23) (-149)

/-- The binary32 nearest `(-1)^neg × m × 2^e`, ties to even. With `q` the exponent of the last place and
`s` the rounded significand, the bits below the sign are `(q + 149) × 2^23 + s`: for a subnormal `q` is
-149, and a significand that rounds up to `2^24` carries into the exponent field. Past the largest finite
value the result is infinite. -/
def roundDyadic (neg : Bool) (m : Nat) (e : Int) : F32 :=
  if m = 0 then fzero neg
  else
    let q := ulpExp m e
    let s := if q ≤ e then m * 2 ^ (e - q).toNat else shiftNearestEven m (q - e).toNat
    packBits neg (min ((q + 149).toNat * 2 ^ 23 + s) 0x7F800000)

/-- The significand of `num / den` with its inexactness: the quotient to at least 62 bits, then one bit
that is 1 exactly when the division leaves a remainder; and the exponent of its last bit. -/
def quotientSticky (num den : Nat) : Nat × Int :=
  let k := 64 + Nat.log2 den
  (2 * (num * 2 ^ k / den) + (if num * 2 ^ k % den = 0 then 0 else 1), -(k : Int) - 1)

/-- The binary32 nearest the rational `num / den` (`den ≠ 0`), ties to even. DESIGN CHOICE (log 24): where that is a zero,
both zeros are nearest, and its sign here is that of `num`, `+0.0` for 0. -/
def roundRatio (num : Int) (den : Nat) : F32 :=
  let q := quotientSticky num.natAbs den
  roundDyadic (num < 0) q.1 q.2

/-- One step of the integer square root for each bit, from the top. -/
def isqrtBits (n : Nat) : Nat → Nat → Nat
  | 0, r => r
  | b + 1, r => if (r + 2 ^ b) * (r + 2 ^ b) ≤ n then isqrtBits n b (r + 2 ^ b) else isqrtBits n b r

/-- The largest `r` with `r × r ≤ n`. -/
def isqrt (n : Nat) : Nat := isqrtBits n (Nat.log2 n / 2 + 1) 0

/-- The sign bit flipped. -/
def fneg (x : F32) : F32 := x ^^^ 0x80000000#32

/-- `abs(a)` clears the sign bit (00_scope R14). -/
def fabs (x : F32) : F32 := x &&& 0x7FFFFFFF#32

/-- `m × 2^e` with its sign, as an integer multiple of `2^e0`, for `e0 ≤ e`. -/
def alignTo (e0 : Int) (neg : Bool) (m : Nat) (e : Int) : Int :=
  let v : Int := (m * 2 ^ (e - e0).toNat : Nat)
  if neg then -v else v

/-- The exact sum of two finite values, rounded. An exact zero sum is +0, but for two negative zeros. -/
def addFinite (s₁ : Bool) (m₁ : Nat) (e₁ : Int) (s₂ : Bool) (m₂ : Nat) (e₂ : Int) : F32 :=
  let e := min e₁ e₂
  let t := alignTo e s₁ m₁ e₁ + alignTo e s₂ m₂ e₂
  if t = 0 then fzero (s₁ && s₂) else roundDyadic (t < 0) t.natAbs e

/-- The sum of two values, with the NaN of `op` where there is none. -/
def addNum (nan : F32) (a b : Num) : F32 :=
  match a, b with
  | .nan, _ => nan
  | _, .nan => nan
  | .inf s, .inf t => if s = t then finf s else nan
  | .inf s, .fin _ _ _ => finf s
  | .fin _ _ _, .inf t => finf t
  | .fin s m e, .fin t n f => addFinite s m e t n f

/-- A value with its sign flipped. -/
def Num.negate : Num → Num
  | .nan => .nan
  | .inf s => .inf (!s)
  | .fin s m e => .fin (!s) m e

/-- `a + b` on binary32 (00_scope R14). -/
def fadd (a b : F32) : F32 := addNum (nanResult .add a b) (unpack a) (unpack b)

/-- `a - b` on binary32 (00_scope R14). -/
def fsub (a b : F32) : F32 := addNum (nanResult .sub a b) (unpack a) (unpack b).negate

/-- `a * b` on binary32 (00_scope R14). -/
def fmul (a b : F32) : F32 :=
  match unpack a, unpack b with
  | .nan, _ => nanResult .mul a b
  | _, .nan => nanResult .mul a b
  | .inf s, .inf t => finf (s != t)
  | .inf s, .fin t n _ => if n = 0 then nanResult .mul a b else finf (s != t)
  | .fin s m _, .inf t => if m = 0 then nanResult .mul a b else finf (s != t)
  | .fin s m e, .fin t n f => roundDyadic (s != t) (m * n) (e + f)

/-- `a / b` on binary32 (00_scope R14). -/
def fdiv (a b : F32) : F32 :=
  match unpack a, unpack b with
  | .nan, _ => nanResult .div a b
  | _, .nan => nanResult .div a b
  | .inf _, .inf _ => nanResult .div a b
  | .inf s, .fin t _ _ => finf (s != t)
  | .fin s _ _, .inf t => fzero (s != t)
  | .fin s m e, .fin t n f =>
    if n = 0 then (if m = 0 then nanResult .div a b else finf (s != t))
    else
      let q := quotientSticky m n
      roundDyadic (s != t) q.1 (q.2 + (e - f))

/-- `sqrt(a)` on binary32 (00_scope R14): the root of `m × 2^e` with `e` made even, to 64 bits below the
last place and one bit that is 1 exactly when the root is inexact. -/
def fsqrt (a : F32) : F32 :=
  match unpack a with
  | .nan => nanResult .sqrt a a
  | .inf s => if s then nanResult .sqrt a a else finf false
  | .fin s m e =>
    if m = 0 then fzero s
    else if s then nanResult .sqrt a a
    else
      let odd := (e % 2).toNat
      let n := m * 2 ^ odd * 2 ^ 64
      let r := isqrt n
      roundDyadic false (2 * r + if r * r = n then 0 else 1) ((e - odd) / 2 - 33)

/-- The place of a value that is no NaN in the order of the reals: both zeros have the same place. -/
def orderKey (x : F32) : Int :=
  if fsign x then -((x.toNat % 2 ^ 31 : Nat) : Int) else ((x.toNat % 2 ^ 31 : Nat) : Int)

/-- `a > b`: the IEEE ordered comparison, false when either is a NaN (00_scope R14). -/
def fgt (a b : F32) : Bool := !isNaN a && !isNaN b && decide (orderKey a > orderKey b)

/-- `a >= b` and `a <= b`, ordered comparisons like `fgt`. -/
def fge (a b : F32) : Bool := !isNaN a && !isNaN b && decide (orderKey a ≥ orderKey b)
def fle (a b : F32) : Bool := fge b a

/-- The largest integer at most `(-1)^neg × m × 2^e`. -/
def floorDyadic (neg : Bool) (m : Nat) (e : Int) : Int :=
  if 0 ≤ e then alignTo 0 neg m e
  else (if neg then -(m : Int) else (m : Int)) / ((2 ^ (-e).toNat : Nat) : Int)

/-- `floor(a)`, toward minus infinity (00_scope R14). A zero result keeps the sign of the operand. -/
def ffloor (a : F32) : F32 :=
  match unpack a with
  | .nan => nanResult .floor a a
  | .inf s => finf s
  | .fin s m e =>
    let i := floorDyadic s m e
    if i = 0 then fzero s else roundDyadic (i < 0) i.natAbs 0

/-- `floor(a)` as an integer: exact where `a` is finite, a free value otherwise (log 16). -/
def floorInt (a : F32) : Int :=
  match unpack a with
  | .fin s m e => floorDyadic s m e
  | _ => Config.floorOpen a

/-- The nearest integer to `(-1)^neg × m × 2^e`, ties to the even integer (00_scope R19). -/
def nearestEvenInt (neg : Bool) (m : Nat) (e : Int) : Int :=
  let v : Int := if 0 ≤ e then (m * 2 ^ e.toNat : Nat) else (shiftNearestEven m (-e).toNat : Nat)
  if neg then -v else v

/-- The binary32 nearest an integer, ties to even. DESIGN CHOICE (log 26) for an integer of 2^24 or more in absolute value
that is no binary32: 47_delay R165 states `f32(fs)` only where it is exact. -/
def ofInt (i : Int) : F32 := roundDyadic (i < 0) i.natAbs 0

/-- The decimal literals of the per-sample rules, each exactly representable (00_scope R14). -/
def fHalf : F32 := 0x3F000000#32
def fOne : F32 := 0x3F800000#32
def fTwo : F32 := 0x40000000#32
def f200 : F32 := 0x43480000#32
def f1800 : F32 := 0x44E10000#32
def f32768 : F32 := 0x47000000#32

end Sys2Proof.Machine
end

