-- ==== Sys2Proof/Machine/Coef.lean ====
section
/-! DEFINITION. Block coefficients `Coef(e)` (00_scope R15): the exact real value of the expression, rounded once. The value is computed by enclosing it between two rationals and rounding both ends: where they agree, that is the correctly rounded value. -/

namespace Sys2Proof.Machine

/-- An enclosure of a real number at precision `p`: an exact rational, an exact rational multiple of pi, or
the span from `lo / 2^p` to `hi / 2^p`. -/
inductive Enclosure where
  | ratio (num : Int) (den : Nat)
  | piRatio (num : Int) (den : Nat)
  | span (lo hi : Int)
  deriving DecidableEq, Repr

/-- The two ends of a span. -/
structure Span where
  lo : Int
  hi : Int
  deriving DecidableEq, Repr

/-- The largest integer at most `a / b`, and the smallest at least `a / b`, for `b ≠ 0`. -/
def floorDiv (a : Int) (b : Nat) : Int := a / (b : Int)
def ceilDiv (a : Int) (b : Nat) : Int := -(-a / (b : Int))

def spanAdd (x y : Span) : Span := ⟨x.lo + y.lo, x.hi + y.hi⟩
def spanNeg (x : Span) : Span := ⟨-x.hi, -x.lo⟩

/-- Outward division of both ends by a positive integer. -/
def spanDivNat (x : Span) (n : Nat) : Span := ⟨floorDiv x.lo n, ceilDiv x.hi n⟩

/-- The product at precision `p`: the least and the greatest of the four products of ends, outward. -/
def spanMul (p : Nat) (x y : Span) : Span :=
  let a := x.lo * y.lo
  let b := x.lo * y.hi
  let c := x.hi * y.lo
  let d := x.hi * y.hi
  ⟨floorDiv (min (min a b) (min c d)) (2 ^ p), ceilDiv (max (max a b) (max c d)) (2 ^ p)⟩

/-- The reciprocal at precision `p`, where both ends have the same sign. -/
def spanInv (p : Nat) (x : Span) : Option Span :=
  if 0 < x.lo then
    some ⟨floorDiv (2 ^ (2 * p)) x.hi.toNat, ceilDiv (2 ^ (2 * p)) x.lo.toNat⟩
  else if x.hi < 0 then
    some ⟨-ceilDiv (2 ^ (2 * p)) (-x.hi).toNat, -floorDiv (2 ^ (2 * p)) (-x.lo).toNat⟩
  else none

/-- The square root at precision `p`, where no part is negative. -/
def spanSqrt (p : Nat) (x : Span) : Option Span :=
  if 0 ≤ x.lo then some ⟨isqrt (x.lo.toNat * 2 ^ p), isqrt (x.hi.toNat * 2 ^ p) + 1⟩ else none

/-- The span that encloses the rational `num / den`. -/
def spanRatio (p : Nat) (num : Int) (den : Nat) : Span :=
  ⟨floorDiv (num * 2 ^ p) den, ceilDiv (num * 2 ^ p) den⟩

/-- The larger absolute value of the two ends. -/
def spanMag (x : Span) : Nat := max x.lo.natAbs x.hi.natAbs

/-- A span widened by `r` at both ends. -/
def spanWiden (x : Span) (r : Nat) : Span := ⟨x.lo - r, x.hi + r⟩

/-- How many terms of a series are summed at precision `p`. -/
def seriesTerms (p : Nat) : Nat := p / 2

/-- `n` terms of a power series from term `i` on, where `next i t` is the term after term `i` = `t`: the sum so far
and the first term not summed. -/
def seriesSum (next : Nat → Span → Span) : Nat → Nat → Span → Span → Span × Span
  | 0, _, t, s => (s, t)
  | n + 1, i, t, s => seriesSum next n (i + 1) (next i t) (spanAdd s t)

/-- The sum of a series whose tail is at most twice its first term left out. -/
def seriesSpan (p : Nat) (next : Nat → Span → Span) (first : Span) : Span :=
  let r := seriesSum next (seriesTerms p) 0 first ⟨0, 0⟩
  spanWiden r.1 (2 * spanMag r.2)

/-- 1 at precision `p`. -/
def spanOne (p : Nat) : Span := ⟨2 ^ p, 2 ^ p⟩

/-- `exp y` for `|y| ≤ 1`: the terms `y^i / i!`. -/
def expSeries (p : Nat) (y : Span) : Span :=
  seriesSpan p (fun i t => spanDivNat (spanMul p t y) (i + 1)) (spanOne p)

/-- `x` squared `n` times over. -/
def spanSquares (p : Nat) : Nat → Span → Span
  | 0, x => x
  | n + 1, x => spanSquares p n (spanMul p x x)

/-- How often the argument of `exp` is halved before its series is summed. -/
def expHalvings : Nat := 20

/-- `exp x` as `exp (x / 2^20)` squared twenty times, for `|x| ≤ 2^20`. No argument of a coefficient rule is larger: at the
least rate a configuration may have, 1 Hz, the largest is `2 pi × 8000` (41_distortion R83). -/
def spanExp (p : Nat) (x : Span) : Option Span :=
  let y := spanDivNat x (2 ^ expHalvings)
  if spanMag y ≤ 2 ^ p then some (spanSquares p expHalvings (expSeries p y)) else none

/-- The terms of `sin x` and `cos x` from a first term: each is the one before times `-x² / ((2i+a)(2i+a+1))`. -/
def trigNext (p a : Nat) (xx : Span) (i : Nat) (t : Span) : Span :=
  spanNeg (spanDivNat (spanMul p t xx) ((2 * i + a) * (2 * i + a + 1)))

/-- `sin x` and `cos x` for `|x| ≤ 8`, at 32 bits of precision or more. -/
def spanSin (p : Nat) (x : Span) : Option Span :=
  if spanMag x ≤ 8 * 2 ^ p ∧ 32 ≤ p then some (seriesSpan p (trigNext p 2 (spanMul p x x)) x) else none
def spanCos (p : Nat) (x : Span) : Option Span :=
  if spanMag x ≤ 8 * 2 ^ p ∧ 32 ≤ p then some (seriesSpan p (trigNext p 1 (spanMul p x x)) (spanOne p)) else none

/-- The powers `x^(2i+1)` from `x` on, without their divisors. -/
def oddPowers (p : Nat) (sign : Bool) (xx : Span) : Nat → Nat → Span → Span → Span × Span
  | 0, _, t, s => (s, t)
  | n + 1, i, t, s =>
    let next := spanMul p t xx
    oddPowers p sign xx n (i + 1) (if sign then spanNeg next else next) (spanAdd s (spanDivNat t (2 * i + 1)))

/-- `atan (1/k)` (with `sign`) or `artanh` of a rational `num / den` of absolute value at most 1/2 (without):
the sum of `± x^(2i+1) / (2i+1)`, with a tail of at most twice the first power left out. -/
def oddSeries (p : Nat) (sign : Bool) (num den : Nat) : Span :=
  let x := spanRatio p num den
  let r := oddPowers p sign (spanMul p x x) (seriesTerms p) 0 x ⟨0, 0⟩
  spanWiden r.1 (2 * spanMag r.2)

/-- An integer multiple of a span. -/
def spanScale (n : Nat) (x : Span) : Span := ⟨n * x.lo, n * x.hi⟩

/-- pi = 16 atan(1/5) - 4 atan(1/239). -/
def spanPi (p : Nat) : Span :=
  spanAdd (spanScale 16 (oddSeries p true 1 5)) (spanNeg (spanScale 4 (oddSeries p true 1 239)))

/-- `log n` for a natural `n ≥ 1`: with `n = 2^k × r` and `1 ≤ r < 2`, it is `k log 2 + log r`, where
`log 2 = 2 artanh (1/3)` and `log r = 2 artanh ((r-1)/(r+1))`. -/
def spanLog (p n : Nat) : Span :=
  let k := Nat.log2 n
  spanAdd (spanScale (2 * k) (oddSeries p false 1 3))
    (spanScale 2 (oddSeries p false (n - 2 ^ k) (n + 2 ^ k)))

/-- The span of an enclosure. -/
def toSpan (p : Nat) : Enclosure → Span
  | .ratio n d => spanRatio p n d
  | .piRatio n d => spanMul p (spanRatio p n d) (spanPi p)
  | .span lo hi => ⟨lo, hi⟩

def ofSpan (x : Span) : Enclosure := .span x.lo x.hi

/-- A sum of rationals stays exact, and so does a sum of rational multiples of pi. -/
def encAdd (p : Nat) (a b : Enclosure) : Enclosure :=
  match a, b with
  | .ratio n d, .ratio m e => .ratio (n * e + m * d) (d * e)
  | .piRatio n d, .piRatio m e => .piRatio (n * e + m * d) (d * e)
  | a, b => ofSpan (spanAdd (toSpan p a) (toSpan p b))

def encNeg : Enclosure → Enclosure
  | .ratio n d => .ratio (-n) d
  | .piRatio n d => .piRatio (-n) d
  | .span lo hi => .span (-hi) (-lo)

/-- A product with an exact zero is exactly zero. -/
def encMul (p : Nat) (a b : Enclosure) : Enclosure :=
  match a, b with
  | .ratio n d, .ratio m e => .ratio (n * m) (d * e)
  | .ratio n d, .piRatio m e => .piRatio (n * m) (d * e)
  | .piRatio n d, .ratio m e => .piRatio (n * m) (d * e)
  | .ratio 0 _, .span _ _ => .ratio 0 1
  | .span _ _, .ratio 0 _ => .ratio 0 1
  | a, b => ofSpan (spanMul p (toSpan p a) (toSpan p b))

/-- The reciprocal of the rational `n / d`, for `n ≠ 0`. -/
def ratioInv (n : Int) (d : Nat) : Int × Nat := (if n < 0 then -(d : Int) else (d : Int), n.natAbs)

/-- A quotient; none where the divisor may be zero. -/
def encDiv (p : Nat) (a b : Enclosure) : Option Enclosure :=
  match b with
  | .ratio n d =>
    if n = 0 then none
    else some (encMul p a (.ratio (ratioInv n d).1 (ratioInv n d).2))
  | b => (spanInv p (toSpan p b)).map fun y => encMul p a (ofSpan y)

/-- The least of two: exact where one of them is certainly the least. -/
def encMin (p : Nat) (a b : Enclosure) : Enclosure :=
  let x := toSpan p a
  let y := toSpan p b
  if x.hi ≤ y.lo then a else if y.hi ≤ x.lo then b
  else .span (min x.lo y.lo) (min x.hi y.hi)

/-- `sin` and `cos` at the multiples of pi where they are rational and the stage rules can meet them:
sin 0, sin (pi/6), sin (pi/2); cos 0, cos (pi/3), cos (pi/2), cos pi. -/
def exactSin (n : Int) (d : Nat) : Option Enclosure :=
  if n = 0 then some (.ratio 0 1)
  else if 6 * n = d then some (.ratio 1 2)
  else if 2 * n = d then some (.ratio 1 1)
  else none
def exactCos (n : Int) (d : Nat) : Option Enclosure :=
  if n = 0 then some (.ratio 1 1)
  else if 3 * n = d then some (.ratio 1 2)
  else if 2 * n = d then some (.ratio 0 1)
  else if n = d then some (.ratio (-1) 1)
  else none

def encSin (p : Nat) (a : Enclosure) : Option Enclosure :=
  match a with
  | .piRatio n d => (exactSin n d).orElse fun _ => (spanSin p (toSpan p a)).map ofSpan
  | _ => (spanSin p (toSpan p a)).map ofSpan

def encCos (p : Nat) (a : Enclosure) : Option Enclosure :=
  match a with
  | .piRatio n d => (exactCos n d).orElse fun _ => (spanCos p (toSpan p a)).map ofSpan
  | _ => (spanCos p (toSpan p a)).map ofSpan

/-- `base ^ x` as `exp (x log base)`. -/
def spanPow (p base : Nat) (x : Span) : Option Span := spanExp p (spanMul p x (spanLog p base))

/-- `base ^ x`: exact where `x` is an integer, else `exp (x log base)`. -/
def encPow (p base : Nat) (a : Enclosure) : Option Enclosure :=
  if base = 0 then none
  else match a with
    | .ratio n d =>
      if n % (d : Int) = 0 then
        if 0 ≤ n then some (.ratio ((base ^ (n / (d : Int)).toNat : Nat) : Int) 1)
        else some (.ratio 1 (base ^ (-(n / (d : Int))).toNat))
      else (spanPow p base (toSpan p a)).map ofSpan
    | _ => (spanPow p base (toSpan p a)).map ofSpan

/-- The exact value of a stored binary32, where it has one. -/
def encF32 (v : F32) : Option Enclosure :=
  match unpack v with
  | .fin neg m e =>
    let s : Int := if neg then -(m : Int) else (m : Int)
    if 0 ≤ e then some (.ratio (s * 2 ^ e.toNat) 1) else some (.ratio s (2 ^ (-e).toNat))
  | _ => none

/-- An enclosure of the real value of an expression at precision `p`, where one is found. -/
def enclose (p : Nat) : RealExpr → Option Enclosure
  | .rat n d => if d = 0 then none else some (.ratio n d)
  | .f32 v => encF32 v
  | .pi => some (.piRatio 1 1)
  | .add a b => (enclose p a).bind fun x => (enclose p b).map fun y => encAdd p x y
  | .sub a b => (enclose p a).bind fun x => (enclose p b).map fun y => encAdd p x (encNeg y)
  | .mul a b => (enclose p a).bind fun x => (enclose p b).map fun y => encMul p x y
  | .div a b => (enclose p a).bind fun x => (enclose p b).bind fun y => encDiv p x y
  | .min a b => (enclose p a).bind fun x => (enclose p b).map fun y => encMin p x y
  | .sqrt a => (enclose p a).bind fun x => (spanSqrt p (toSpan p x)).map ofSpan
  | .exp a => (enclose p a).bind fun x => (spanExp p (toSpan p x)).map ofSpan
  | .sin a => (enclose p a).bind fun x => encSin p x
  | .cos a => (enclose p a).bind fun x => encCos p x
  | .pow base a => (enclose p a).bind fun x => encPow p base x

/-- A rational rounded to a coefficient. DESIGN CHOICE (log 24): where the nearest binary32 is a zero, both zeros are
nearest, and the coefficient is `+0.0`. -/
def roundCoef (num : Int) (den : Nat) : F32 :=
  let v := roundRatio num den
  if v = 0x80000000#32 then 0x00000000#32 else v

/-- The correctly rounded value of an expression, where its enclosure at precision `p` decides it: the exact
rational rounded, or both ends of the span rounding to one binary32. -/
def coefAt (p : Nat) (e : RealExpr) : Option F32 :=
  (enclose p e).bind fun x =>
    match x with
    | .ratio n d => some (roundCoef n d)
    | x =>
      let y := toSpan p x
      if roundCoef y.lo (2 ^ p) = roundCoef y.hi (2 ^ p) then some (roundCoef y.lo (2 ^ p)) else none

/-- The spec's reference value of `Coef(e)` (00_scope R15): precisions 96, 192 and 384 are tried in turn, and an expression
none of them decides has a free value (log 6). -/
def coefReference (e : RealExpr) : F32 :=
  ((coefAt 96 e).orElse fun _ => (coefAt 192 e).orElse fun _ => coefAt 384 e).getD (Config.coefOpen e)

/-- `Coef(e)` (00_scope R15) of a configuration: the value it lists for `e`, else the reference (log 5). -/
def coef (c : Config) (e : RealExpr) : F32 := (c.coefOther.lookup e).getD (coefReference e)

/-- Integers and decimal literals in coefficient expressions. -/
def eNat (n : Nat) : RealExpr := .rat n 1
def eDec (num den : Nat) : RealExpr := .rat num den

end Sys2Proof.Machine
end

