-- ==== Sys2Proof/Syntax.lean ====
section
/-! DEFINITION. The command set SC-FX/1 as syntax (30_encoding R56): the 28 parameter registers and one constructor of Instr per row of spec/opcode_table.json. -/

namespace Sys2Proof

/-- The parameter registers `stage.param` (10_state R26). -/
inductive Reg where
  | distortionEnabled | distortionDrive | distortionMix
  | filterEnabled | filterCutoff | filterResonance
  | eqEnabled | eqLow | eqMid | eqHigh
  | compressorEnabled | compressorThreshold | compressorRatio | compressorAttack | compressorRelease | compressorMakeup
  | phaserEnabled | phaserRate | phaserDepth | phaserFeedback
  | reverbEnabled | reverbRoomSize | reverbDamping | reverbMix
  | delayEnabled | delayTime | delayFeedback | delayMix
  deriving DecidableEq, Repr

/-- The register number `rn = 16 × stage + param` (10_state R26). -/
def Reg.rn : Reg → Nat
  | .distortionEnabled => 0x00
  | .distortionDrive => 0x01
  | .distortionMix => 0x02
  | .filterEnabled => 0x10
  | .filterCutoff => 0x11
  | .filterResonance => 0x12
  | .eqEnabled => 0x20
  | .eqLow => 0x21
  | .eqMid => 0x22
  | .eqHigh => 0x23
  | .compressorEnabled => 0x30
  | .compressorThreshold => 0x31
  | .compressorRatio => 0x32
  | .compressorAttack => 0x33
  | .compressorRelease => 0x34
  | .compressorMakeup => 0x35
  | .phaserEnabled => 0x40
  | .phaserRate => 0x41
  | .phaserDepth => 0x42
  | .phaserFeedback => 0x43
  | .reverbEnabled => 0x50
  | .reverbRoomSize => 0x51
  | .reverbDamping => 0x52
  | .reverbMix => 0x53
  | .delayEnabled => 0x60
  | .delayTime => 0x61
  | .delayFeedback => 0x62
  | .delayMix => 0x63

/-- Param 0 of every stage is its enable register; the others are normalized registers (10_state R26). -/
def Reg.isEnable (r : Reg) : Bool := r.rn % 16 == 0

/-- A command with its operand words (30_encoding R54, R56). Every operand is a whole 32-bit word (R55), so
every term of this type is a well-formed command. -/
inductive Instr where
  /-- CREATE, 0x10000000 (40_chain R64) -/
  | create
  /-- DESTROY, 0x11000000 (40_chain R66) -/
  | destroy
  /-- RESET, 0x12000000 (40_chain R67) -/
  | reset
  /-- PROCESS, 0x13000000 and three operand words (40_chain R68) -/
  | process (base frames sampleRate : Word)
  /-- SET distortion.enabled, 0x20000000 and one data word (R87) -/
  | setDistortionEnabled (data : Word)
  /-- SET distortion.drive, 0x20100000 and one data word (R89) -/
  | setDistortionDrive (data : Word)
  /-- SET distortion.mix, 0x20200000 and one data word (R91) -/
  | setDistortionMix (data : Word)
  /-- SET filter.enabled, 0x21000000 and one data word (R98) -/
  | setFilterEnabled (data : Word)
  /-- SET filter.cutoff, 0x21100000 and one data word (R100) -/
  | setFilterCutoff (data : Word)
  /-- SET filter.resonance, 0x21200000 and one data word (R102) -/
  | setFilterResonance (data : Word)
  /-- SET eq.enabled, 0x22000000 and one data word (R110) -/
  | setEqEnabled (data : Word)
  /-- SET eq.low, 0x22100000 and one data word (R112) -/
  | setEqLow (data : Word)
  /-- SET eq.mid, 0x22200000 and one data word (R114) -/
  | setEqMid (data : Word)
  /-- SET eq.high, 0x22300000 and one data word (R116) -/
  | setEqHigh (data : Word)
  /-- SET compressor.enabled, 0x23000000 and one data word (R123) -/
  | setCompressorEnabled (data : Word)
  /-- SET compressor.threshold, 0x23100000 and one data word (R125) -/
  | setCompressorThreshold (data : Word)
  /-- SET compressor.ratio, 0x23200000 and one data word (R127) -/
  | setCompressorRatio (data : Word)
  /-- SET compressor.attack, 0x23300000 and one data word (R129) -/
  | setCompressorAttack (data : Word)
  /-- SET compressor.release, 0x23400000 and one data word (R131) -/
  | setCompressorRelease (data : Word)
  /-- SET compressor.makeup, 0x23500000 and one data word (R133) -/
  | setCompressorMakeup (data : Word)
  /-- SET phaser.enabled, 0x24000000 and one data word (R142) -/
  | setPhaserEnabled (data : Word)
  /-- SET phaser.rate, 0x24100000 and one data word (R144) -/
  | setPhaserRate (data : Word)
  /-- SET phaser.depth, 0x24200000 and one data word (R146) -/
  | setPhaserDepth (data : Word)
  /-- SET phaser.feedback, 0x24300000 and one data word (R148) -/
  | setPhaserFeedback (data : Word)
  /-- SET reverb.enabled, 0x25000000 and one data word (R156) -/
  | setReverbEnabled (data : Word)
  /-- SET reverb.room_size, 0x25100000 and one data word (R158) -/
  | setReverbRoomSize (data : Word)
  /-- SET reverb.damping, 0x25200000 and one data word (R160) -/
  | setReverbDamping (data : Word)
  /-- SET reverb.mix, 0x25300000 and one data word (R162) -/
  | setReverbMix (data : Word)
  /-- SET delay.enabled, 0x26000000 and one data word (R169) -/
  | setDelayEnabled (data : Word)
  /-- SET delay.time, 0x26100000 and one data word (R171) -/
  | setDelayTime (data : Word)
  /-- SET delay.feedback, 0x26200000 and one data word (R173) -/
  | setDelayFeedback (data : Word)
  /-- SET delay.mix, 0x26300000 and one data word (R175) -/
  | setDelayMix (data : Word)
  /-- GET distortion.enabled, 0x30000000 (R88) -/
  | getDistortionEnabled
  /-- GET distortion.drive, 0x30100000 (R90) -/
  | getDistortionDrive
  /-- GET distortion.mix, 0x30200000 (R92) -/
  | getDistortionMix
  /-- GET filter.enabled, 0x31000000 (R99) -/
  | getFilterEnabled
  /-- GET filter.cutoff, 0x31100000 (R101) -/
  | getFilterCutoff
  /-- GET filter.resonance, 0x31200000 (R103) -/
  | getFilterResonance
  /-- GET eq.enabled, 0x32000000 (R111) -/
  | getEqEnabled
  /-- GET eq.low, 0x32100000 (R113) -/
  | getEqLow
  /-- GET eq.mid, 0x32200000 (R115) -/
  | getEqMid
  /-- GET eq.high, 0x32300000 (R117) -/
  | getEqHigh
  /-- GET compressor.enabled, 0x33000000 (R124) -/
  | getCompressorEnabled
  /-- GET compressor.threshold, 0x33100000 (R126) -/
  | getCompressorThreshold
  /-- GET compressor.ratio, 0x33200000 (R128) -/
  | getCompressorRatio
  /-- GET compressor.attack, 0x33300000 (R130) -/
  | getCompressorAttack
  /-- GET compressor.release, 0x33400000 (R132) -/
  | getCompressorRelease
  /-- GET compressor.makeup, 0x33500000 (R134) -/
  | getCompressorMakeup
  /-- GET phaser.enabled, 0x34000000 (R143) -/
  | getPhaserEnabled
  /-- GET phaser.rate, 0x34100000 (R145) -/
  | getPhaserRate
  /-- GET phaser.depth, 0x34200000 (R147) -/
  | getPhaserDepth
  /-- GET phaser.feedback, 0x34300000 (R149) -/
  | getPhaserFeedback
  /-- GET reverb.enabled, 0x35000000 (R157) -/
  | getReverbEnabled
  /-- GET reverb.room_size, 0x35100000 (R159) -/
  | getReverbRoomSize
  /-- GET reverb.damping, 0x35200000 (R161) -/
  | getReverbDamping
  /-- GET reverb.mix, 0x35300000 (R163) -/
  | getReverbMix
  /-- GET delay.enabled, 0x36000000 (R170) -/
  | getDelayEnabled
  /-- GET delay.time, 0x36100000 (R172) -/
  | getDelayTime
  /-- GET delay.feedback, 0x36200000 (R174) -/
  | getDelayFeedback
  /-- GET delay.mix, 0x36300000 (R176) -/
  | getDelayMix
  deriving DecidableEq, Repr

end Sys2Proof
end

