-- ==== Sys2Proof/WellFormed.lean ====
section
/-! DEFINITION. Well-formedness. Every term of Instr is well formed (each operand is any 32-bit word, 30_encoding R55), so the checks are on the words a host puts on a command port: the bits of R53 that must be as stated, and the operand count of R54. Written on the word's number, apart from the decoder. -/

namespace Sys2Proof

/-- `class` is 1, 2 or 3 (30_encoding R53). -/
def classAssigned (cmd : Word) : Bool := 0x10000000 ≤ cmd.toNat && cmd.toNat < 0x40000000

/-- A CTL word's `func` is 0 to 3 (30_encoding R53). -/
def funcAssigned (cmd : Word) : Bool := cmd.toNat < 0x14000000 || 0x20000000 ≤ cmd.toNat

/-- `cmd[23:0]` of a CTL word and `cmd[19:0]` of a SET or GET word are 0 (30_encoding R53). -/
def zeroFieldClear (cmd : Word) : Bool :=
  if cmd.toNat < 0x20000000 then cmd.toNat % 0x1000000 == 0 else cmd.toNat % 0x100000 == 0

/-- How many registers a stage has (10_state R26). -/
def stageSize : Nat → Nat
  | 0 => 3 | 1 => 3 | 2 => 4 | 3 => 6 | 4 => 4 | 5 => 4 | 6 => 4 | _ => 0

/-- The `rn` of a SET or GET word is one of the 28 assigned numbers (30_encoding R57). -/
def registerAssigned (cmd : Word) : Bool :=
  cmd.toNat < 0x20000000 ||
    cmd.toNat / 0x100000 % 0x10 < stageSize (cmd.toNat / 0x1000000 % 0x10)

/-- A word with a meaning: one of the 60 of 30_encoding R56. -/
def legalCommandWord (cmd : Word) : Bool :=
  classAssigned cmd && funcAssigned cmd && zeroFieldClear cmd && registerAssigned cmd

/-- How many operand words follow a legal command word (30_encoding R54). -/
def operandCount (cmd : Word) : Nat :=
  if cmd.toNat = 0x13000000 then 3 else if cmd.toNat / 0x10000000 = 2 then 1 else 0

/-- One whole command and nothing else: a legal command word and exactly its operand words. -/
def wellFormedCommand : List Word → Bool
  | [] => false
  | cmd :: operands => legalCommandWord cmd && operands.length == operandCount cmd

end Sys2Proof
end

