-- ==== Sys2Proof/Decode.lean ====
section
/-! DEFINITION. Decoding the words of a command port (30_encoding R53, R54, R56, R57), total on every list of words, and the encoder, written from the table of R56. -/

namespace Sys2Proof

/-- Why a command word is illegal (30_encoding R57). -/
inductive Illegal where
  /-- `class` is not 1, 2 or 3 -/
  | reservedClass
  /-- a CTL word whose `func` is not 0 to 3 -/
  | reservedFunc
  /-- a CTL word with `cmd[23:0] ≠ 0`, or a SET or GET word with `cmd[19:0] ≠ 0` -/
  | nonzeroField
  /-- a SET or GET word whose `rn` is not one of the 28 assigned numbers -/
  | unassignedRegister
  deriving DecidableEq, Repr

/-- What a legal command word asks for, before its operand words are taken. -/
inductive Head where
  | create | destroy | reset | process
  | set (r : Reg)
  | get (r : Reg)
  deriving DecidableEq, Repr

/-- The register with number `rn`, if it is assigned (10_state R26). -/
def regOfNumber : Nat → Option Reg
  | 0x00 => some .distortionEnabled
  | 0x01 => some .distortionDrive
  | 0x02 => some .distortionMix
  | 0x10 => some .filterEnabled
  | 0x11 => some .filterCutoff
  | 0x12 => some .filterResonance
  | 0x20 => some .eqEnabled
  | 0x21 => some .eqLow
  | 0x22 => some .eqMid
  | 0x23 => some .eqHigh
  | 0x30 => some .compressorEnabled
  | 0x31 => some .compressorThreshold
  | 0x32 => some .compressorRatio
  | 0x33 => some .compressorAttack
  | 0x34 => some .compressorRelease
  | 0x35 => some .compressorMakeup
  | 0x40 => some .phaserEnabled
  | 0x41 => some .phaserRate
  | 0x42 => some .phaserDepth
  | 0x43 => some .phaserFeedback
  | 0x50 => some .reverbEnabled
  | 0x51 => some .reverbRoomSize
  | 0x52 => some .reverbDamping
  | 0x53 => some .reverbMix
  | 0x60 => some .delayEnabled
  | 0x61 => some .delayTime
  | 0x62 => some .delayFeedback
  | 0x63 => some .delayMix
  | _ => none

/-- Reads a command word (30_encoding R53, R56, R57): the class, then `func` or `rn`, then the bits that must be zero. -/
def decodeHead (w : Word) : Except Illegal Head :=
  match w.field 31 28 with
  | 1 =>
    if w.field 23 0 ≠ 0 then .error .nonzeroField
    else match w.field 27 24 with
      | 0 => .ok .create
      | 1 => .ok .destroy
      | 2 => .ok .reset
      | 3 => .ok .process
      | _ => .error .reservedFunc
  | 2 =>
    if w.field 19 0 ≠ 0 then .error .nonzeroField
    else match regOfNumber (w.field 27 20) with
      | some r => .ok (.set r)
      | none => .error .unassignedRegister
  | 3 =>
    if w.field 19 0 ≠ 0 then .error .nonzeroField
    else match regOfNumber (w.field 27 20) with
      | some r => .ok (.get r)
      | none => .error .unassignedRegister
  | _ => .error .reservedClass

/-- The SET command of a register (30_encoding R56). -/
def setInstr (r : Reg) (data : Word) : Instr :=
  match r with
  | .distortionEnabled => .setDistortionEnabled data
  | .distortionDrive => .setDistortionDrive data
  | .distortionMix => .setDistortionMix data
  | .filterEnabled => .setFilterEnabled data
  | .filterCutoff => .setFilterCutoff data
  | .filterResonance => .setFilterResonance data
  | .eqEnabled => .setEqEnabled data
  | .eqLow => .setEqLow data
  | .eqMid => .setEqMid data
  | .eqHigh => .setEqHigh data
  | .compressorEnabled => .setCompressorEnabled data
  | .compressorThreshold => .setCompressorThreshold data
  | .compressorRatio => .setCompressorRatio data
  | .compressorAttack => .setCompressorAttack data
  | .compressorRelease => .setCompressorRelease data
  | .compressorMakeup => .setCompressorMakeup data
  | .phaserEnabled => .setPhaserEnabled data
  | .phaserRate => .setPhaserRate data
  | .phaserDepth => .setPhaserDepth data
  | .phaserFeedback => .setPhaserFeedback data
  | .reverbEnabled => .setReverbEnabled data
  | .reverbRoomSize => .setReverbRoomSize data
  | .reverbDamping => .setReverbDamping data
  | .reverbMix => .setReverbMix data
  | .delayEnabled => .setDelayEnabled data
  | .delayTime => .setDelayTime data
  | .delayFeedback => .setDelayFeedback data
  | .delayMix => .setDelayMix data

/-- The GET command of a register (30_encoding R56). -/
def getInstr (r : Reg) : Instr :=
  match r with
  | .distortionEnabled => .getDistortionEnabled
  | .distortionDrive => .getDistortionDrive
  | .distortionMix => .getDistortionMix
  | .filterEnabled => .getFilterEnabled
  | .filterCutoff => .getFilterCutoff
  | .filterResonance => .getFilterResonance
  | .eqEnabled => .getEqEnabled
  | .eqLow => .getEqLow
  | .eqMid => .getEqMid
  | .eqHigh => .getEqHigh
  | .compressorEnabled => .getCompressorEnabled
  | .compressorThreshold => .getCompressorThreshold
  | .compressorRatio => .getCompressorRatio
  | .compressorAttack => .getCompressorAttack
  | .compressorRelease => .getCompressorRelease
  | .compressorMakeup => .getCompressorMakeup
  | .phaserEnabled => .getPhaserEnabled
  | .phaserRate => .getPhaserRate
  | .phaserDepth => .getPhaserDepth
  | .phaserFeedback => .getPhaserFeedback
  | .reverbEnabled => .getReverbEnabled
  | .reverbRoomSize => .getReverbRoomSize
  | .reverbDamping => .getReverbDamping
  | .reverbMix => .getReverbMix
  | .delayEnabled => .getDelayEnabled
  | .delayTime => .getDelayTime
  | .delayFeedback => .getDelayFeedback
  | .delayMix => .getDelayMix

/-- What stands at the front of a command port. -/
inductive Decoded where
  /-- a whole command, and the words after it -/
  | command (i : Instr) (rest : List Word)
  /-- an illegal command word, a command of one word (30_encoding R57), and the words after it -/
  | illegal (why : Illegal) (rest : List Word)
  /-- no word, or a legal command word whose operand words have not all arrived: no command has been
  issued (60_exceptions R179) -/
  | incomplete
  deriving DecidableEq, Repr

/-- Decodes the front of a command port (30_encoding R54): legality first, from the whole command word,
then the operand words. -/
def decode : List Word → Decoded
  | [] => .incomplete
  | w :: ws =>
    match decodeHead w with
    | .error why => .illegal why ws
    | .ok .create => .command .create ws
    | .ok .destroy => .command .destroy ws
    | .ok .reset => .command .reset ws
    | .ok .process =>
      match ws with
      | base :: frames :: rate :: rest => .command (.process base frames rate) rest
      | _ => .incomplete
    | .ok (.set r) =>
      match ws with
      | data :: rest => .command (setInstr r data) rest
      | [] => .incomplete
    | .ok (.get r) => .command (getInstr r) ws

/-- The words of a command: the table of 30_encoding R56, row by row, then the operand words of R54. -/
def encode : Instr → List Word
  | .create => [0x10000000]
  | .destroy => [0x11000000]
  | .reset => [0x12000000]
  | .process base frames rate => [0x13000000, base, frames, rate]
  | .setDistortionEnabled data => [0x20000000, data]
  | .setDistortionDrive data => [0x20100000, data]
  | .setDistortionMix data => [0x20200000, data]
  | .setFilterEnabled data => [0x21000000, data]
  | .setFilterCutoff data => [0x21100000, data]
  | .setFilterResonance data => [0x21200000, data]
  | .setEqEnabled data => [0x22000000, data]
  | .setEqLow data => [0x22100000, data]
  | .setEqMid data => [0x22200000, data]
  | .setEqHigh data => [0x22300000, data]
  | .setCompressorEnabled data => [0x23000000, data]
  | .setCompressorThreshold data => [0x23100000, data]
  | .setCompressorRatio data => [0x23200000, data]
  | .setCompressorAttack data => [0x23300000, data]
  | .setCompressorRelease data => [0x23400000, data]
  | .setCompressorMakeup data => [0x23500000, data]
  | .setPhaserEnabled data => [0x24000000, data]
  | .setPhaserRate data => [0x24100000, data]
  | .setPhaserDepth data => [0x24200000, data]
  | .setPhaserFeedback data => [0x24300000, data]
  | .setReverbEnabled data => [0x25000000, data]
  | .setReverbRoomSize data => [0x25100000, data]
  | .setReverbDamping data => [0x25200000, data]
  | .setReverbMix data => [0x25300000, data]
  | .setDelayEnabled data => [0x26000000, data]
  | .setDelayTime data => [0x26100000, data]
  | .setDelayFeedback data => [0x26200000, data]
  | .setDelayMix data => [0x26300000, data]
  | .getDistortionEnabled => [0x30000000]
  | .getDistortionDrive => [0x30100000]
  | .getDistortionMix => [0x30200000]
  | .getFilterEnabled => [0x31000000]
  | .getFilterCutoff => [0x31100000]
  | .getFilterResonance => [0x31200000]
  | .getEqEnabled => [0x32000000]
  | .getEqLow => [0x32100000]
  | .getEqMid => [0x32200000]
  | .getEqHigh => [0x32300000]
  | .getCompressorEnabled => [0x33000000]
  | .getCompressorThreshold => [0x33100000]
  | .getCompressorRatio => [0x33200000]
  | .getCompressorAttack => [0x33300000]
  | .getCompressorRelease => [0x33400000]
  | .getCompressorMakeup => [0x33500000]
  | .getPhaserEnabled => [0x34000000]
  | .getPhaserRate => [0x34100000]
  | .getPhaserDepth => [0x34200000]
  | .getPhaserFeedback => [0x34300000]
  | .getReverbEnabled => [0x35000000]
  | .getReverbRoomSize => [0x35100000]
  | .getReverbDamping => [0x35200000]
  | .getReverbMix => [0x35300000]
  | .getDelayEnabled => [0x36000000]
  | .getDelayTime => [0x36100000]
  | .getDelayFeedback => [0x36200000]
  | .getDelayMix => [0x36300000]

/-- How many words the command that begins with `w` has (30_encoding R54). -/
def commandLength (w : Word) : Nat :=
  match decodeHead w with
  | .ok .process => 4
  | .ok (.set _) => 2
  | _ => 1

/-- The instruction whose bits are `w`, of which the table gives `nbits`, laid out as words: bit 0 is the
least significant bit of the command word, a later word's bits count on from it, and every bit from `nbits`
up is 0. As many words as the command has (30_encoding R54). -/
def tableWords (nbits w : Nat) : List Word :=
  let bits := w % 2 ^ nbits
  let cmd := BitVec.ofNat 32 bits
  (List.range (commandLength cmd)).map fun j => BitVec.ofNat 32 (bits / 2 ^ (32 * j))

/-- The instruction the decoder reads from the bits `w` (see `tableWords`), or `none` where it refuses. -/
def decodeTableWord (nbits w : Nat) : Option Instr :=
  match decode (tableWords nbits w) with
  | .command i _ => some i
  | _ => none

end Sys2Proof
end

