-- ==== Sys2Proof/Machine/Cells.lean ====
section
/-! DEFINITION. Sparse memories: lists of (index, value) pairs in one canonical form (indexes strictly rising, no entry equal to what an unlisted index reads as), used for host memory, the delay memory and the comb memories. -/

namespace Sys2Proof.Machine

/-- A memory of `w`-bit elements. An unlisted index reads as 0: the value CREATE and RESET give every element
of the internal memories (10_state R30), and log 1 for host memory. -/
abbrev Cells (w : Nat) := List (Nat × BitVec w)

/-- The element at index `a`. -/
def readCell {w : Nat} : Cells w → Nat → BitVec w
  | [], _ => 0
  | (k, v) :: cs, a => if a = k then v else readCell cs a

/-- The entry for `a` in front of `cs`, or nothing where an unlisted index already reads as `v`. -/
def consCell {w : Nat} (a : Nat) (v : BitVec w) (cs : Cells w) : Cells w :=
  if v = 0 then cs else (a, v) :: cs

/-- The memory with `v` at index `a`, in canonical form again. -/
def writeCell {w : Nat} : Cells w → Nat → BitVec w → Cells w
  | [], a, v => consCell a v []
  | (k, u) :: cs, a, v =>
    if a < k then consCell a v ((k, u) :: cs)
    else if a = k then consCell a v cs
    else (k, u) :: writeCell cs a v

/-- The canonical form. -/
abbrev Cells.wf {w : Nat} (m : Cells w) : Prop :=
  m.Pairwise (fun x y => x.1 < y.1) ∧ ∀ x ∈ m, x.2 ≠ 0

/-- Every listed index is below `n`. -/
abbrev Cells.below {w : Nat} (n : Nat) (m : Cells w) : Prop := ∀ x ∈ m, x.1 < n

/-- Host memory: bytes by address (20_memory R34). -/
abbrev Memory := Cells 8

/-- Host memory is in canonical form and lists only addresses of the address space. -/
abbrev Memory.wf (c : Config) (m : Memory) : Prop := Cells.wf m ∧ Cells.below c.addressSpace m

end Sys2Proof.Machine
end

