-- ==== Sys2Proof/Machine/State.lean ====
section
/-! DEFINITION. The state of the block and its surroundings as plain data (10_state), the outcomes a step can have, and the state at power-up. -/

namespace Sys2Proof.Machine

/-- The contexts that issue commands (00_scope R9). -/
inductive Agent where
  | control | audio
  deriving DecidableEq, Repr

/-- The reason a fault mark records (60_exceptions R178). -/
inductive FaultReason where
  /-- RESET or DESTROY while a PROCESS is in flight -/
  | concurrentControl
  /-- PROCESS while a PROCESS is in flight -/
  | concurrentProcess
  /-- an access of another agent to the buffer of the in-flight PROCESS -/
  | hostBufferAccess
  deriving DecidableEq, Repr

/-- The statuses a command returns (60_exceptions R177). -/
inductive Status where
  | ok | errAlloc | errRate | errIllegal | errNoChain | errExists | errBuffer
  deriving DecidableEq, Repr

/-- What a command returned: to whom, the status, and for GET the data word (30_encoding R52). -/
structure Reply where
  agent : Agent
  status : Status
  data : Option Word
  deriving DecidableEq, Repr

/-- Whose transition comes next (20_memory R43): a command of an agent, a step of the engine, or one access to
host memory, of any number of bytes from `addr` on, by any agent but the engine (60_exceptions R178, R180). -/
inductive Turn where
  | command (a : Agent)
  | engine
  | hostRead (addr len : Nat)
  | hostWrite (addr : Nat) (bytes : List Byte)
  deriving DecidableEq, Repr

/-- The 28 parameter registers, 32 bits each (10_state R26). -/
structure Params where
  distortionEnabled : Word
  distortionDrive : Word
  distortionMix : Word
  filterEnabled : Word
  filterCutoff : Word
  filterResonance : Word
  eqEnabled : Word
  eqLow : Word
  eqMid : Word
  eqHigh : Word
  compressorEnabled : Word
  compressorThreshold : Word
  compressorRatio : Word
  compressorAttack : Word
  compressorRelease : Word
  compressorMakeup : Word
  phaserEnabled : Word
  phaserRate : Word
  phaserDepth : Word
  phaserFeedback : Word
  reverbEnabled : Word
  reverbRoomSize : Word
  reverbDamping : Word
  reverbMix : Word
  delayEnabled : Word
  delayTime : Word
  delayFeedback : Word
  delayMix : Word
  deriving DecidableEq, Repr

/-- Stage 0 registers of a channel (10_state R28, 41_distortion R84). -/
structure DistRegs where
  pre : F32
  env : F32
  post : F32
  deriving DecidableEq, Repr

/-- Stage 1 registers of a channel (10_state R28, 42_filter R95). -/
structure FiltRegs where
  lp : F32
  bp : F32
  deriving DecidableEq, Repr

/-- The register pair of one EQ band (10_state R28, 43_eq R106). -/
structure EqBand where
  z1 : F32
  z2 : F32
  deriving DecidableEq, Repr

/-- Stage 2 registers of a channel: `eq.z1[ch][b]`, `eq.z2[ch][b]` for b = 0 low, 1 mid, 2 high. -/
structure EqRegs where
  low : EqBand
  mid : EqBand
  high : EqBand
  deriving DecidableEq, Repr

/-- Stage 3 registers of a channel (10_state R28, 44_compressor R120). -/
structure CompRegs where
  env : F32
  ms : F32
  deriving DecidableEq, Repr

/-- Stage 4 registers of a channel (10_state R28, 45_phaser R139): `ph.s[ch][0..3]` and `ph.fb[ch]`. -/
structure PhRegs where
  s0 : F32
  s1 : F32
  s2 : F32
  s3 : F32
  fb : F32
  deriving DecidableEq, Repr

/-- One comb of a channel (46_reverb R153): `rev.filt[ch][k]`, `rev.idx[ch][k]`, `rev.buf[ch][k]`. -/
structure Comb where
  filt : F32
  idx : Nat
  buf : Cells 32
  deriving DecidableEq, Repr

/-- Stage 5 of a channel: combs 0 to 7. -/
structure RevRegs where
  c0 : Comb
  c1 : Comb
  c2 : Comb
  c3 : Comb
  c4 : Comb
  c5 : Comb
  c6 : Comb
  c7 : Comb
  deriving DecidableEq, Repr

/-- Everything one channel holds: the working registers of 10_state R28, its combs and its delay memory
`dly.buf[ch]` (R30). -/
structure Chan where
  dist : DistRegs
  filt : FiltRegs
  eq : EqRegs
  comp : CompRegs
  ph : PhRegs
  rev : RevRegs
  dly : Cells 32
  deriving DecidableEq, Repr

/-- The working state: channel 0 left, channel 1 right, and what they share (10_state R28, R29, R30): the LFO
phase `ph.phase` and the delay write cursor `dly.w`. -/
structure Work where
  left : Chan
  right : Chan
  phase : F32
  dlyW : Nat
  deriving DecidableEq, Repr

/-- Block coefficients of stage 0 (41_distortion R83). -/
structure DistK where
  dG : F32
  dPre : F32
  dAtt : F32
  dRel : F32
  dLo : F32
  dSpan : F32
  dWet : F32
  dDry : F32
  deriving DecidableEq, Repr

/-- Block coefficients of stage 1 (42_filter R94). -/
structure FiltK where
  fF : F32
  fQ : F32
  deriving DecidableEq, Repr

/-- Block coefficients of one EQ band (43_eq R105). -/
structure BandK where
  b0 : F32
  b1 : F32
  b2 : F32
  a1 : F32
  a2 : F32
  deriving DecidableEq, Repr

/-- Block coefficients of stage 2 (43_eq R105). -/
structure EqK where
  low : BandK
  mid : BandK
  high : BandK
  deriving DecidableEq, Repr

/-- Block coefficients of stage 3 (44_compressor R119). -/
structure CompK where
  cThr : F32
  cR : F32
  cAtt : F32
  cRel : F32
  cRms : F32
  cMk : F32
  deriving DecidableEq, Repr

/-- Block coefficients of stage 4 (45_phaser R136). -/
structure PhK where
  pInc : F32
  pW : F32
  pFb : F32
  pDepth : F32
  deriving DecidableEq, Repr

/-- Block coefficients of stage 5 (46_reverb R152). -/
structure RevK where
  rFb : F32
  rD : F32
  rD1 : F32
  rIn : F32
  rWet : F32
  rDry : F32
  deriving DecidableEq, Repr

/-- Block coefficients of stage 6 (47_delay R165); `off` is an integer. -/
structure DlyK where
  off : Nat
  eFb : F32
  eWet : F32
  eDry : F32
  deriving DecidableEq, Repr

/-- `K`, the block coefficients of a PROCESS (10_state R32). -/
structure Coeffs where
  dist : DistK
  filt : FiltK
  eq : EqK
  comp : CompK
  ph : PhK
  rev : RevK
  dly : DlyK
  deriving DecidableEq, Repr

/-- The in-flight PROCESS (10_state R32), meaningful only while `busy`: the snapshot, the coefficients, the
next frame index `n`, the frame count `N`, the buffer base and the sample rate; and the agent the end step
replies to (40_chain R75, log 15). -/
structure Flight where
  snap : Params
  k : Coeffs
  n : Nat
  frames : Word
  base : Word
  fs : Word
  issuer : Agent
  deriving DecidableEq, Repr

/-- The buffer of a PROCESS as its end step left it (70_reset R202): its base, its frame count and its bytes. -/
structure Output where
  base : Word
  frames : Word
  bytes : Memory
  deriving DecidableEq, Repr

/-- The whole state: the block (10_state), host memory (20_memory R34), and the model's own fields for what
stands outside the block (log 8, 9, 10, 25). -/
structure State where
  /-- the parameters of the machine, which no transition changes (00_scope R11, log 17) -/
  config : Config
  live : Bool
  fault : Option FaultReason
  busy : Bool
  params : Params
  work : Work
  flight : Flight
  /-- host memory -/
  mem : Memory
  /-- the words waiting on the control agent's command port, oldest first -/
  ctl : List Word
  /-- the words waiting on the audio agent's command port, oldest first -/
  aud : List Word
  /-- the agent whose command is being run -/
  issuer : Agent
  /-- the environment's order of the transitions to come -/
  turns : List Turn
  /-- what the commands returned so far, newest first -/
  replies : List Reply
  /-- the buffers of the PROCESS commands that have ended, newest first -/
  outputs : List Output
  /-- the environment's draws `Alloc` to come, true for success -/
  allocDraws : List Bool
  deriving DecidableEq, Repr

/-- Why a step has no next state. -/
inductive Fault where
  /-- Raised by `fetch` at a state whose fault mark is set: no agent has an enabled step (60_exceptions R178). SAFE: the
  machine stops where the spec says it is quiescent. -/
  | stopped (reason : FaultReason)
  /-- Raised by a host access to an address outside the address space (20_memory R34, log 14), and by the engine's frame step
  where a buffer address lies outside it (20_memory R39), which the begin step rules out. SAFE: no such byte exists. -/
  | outsideAddressSpace
  /-- Raised by the engine's turn where `busy` holds and `n > N`: neither the frame step nor the end step is enabled
  (40_chain R71, R75). SAFE: no run reaches it. -/
  | engineStuck
  deriving DecidableEq, Repr

/-- Why an instruction is refused. -/
inductive Refusal where
  /-- Raised by an arm of `exec` that has no meaning yet. SAFE. The block itself refuses no word (60_exceptions R179). -/
  | notModelled (mnemonic : String)
  deriving DecidableEq, Repr

/-- Every parameter register 0: what the registers of no instance hold (log 2). -/
def Params.zero : Params where
  distortionEnabled := 0
  distortionDrive := 0
  distortionMix := 0
  filterEnabled := 0
  filterCutoff := 0
  filterResonance := 0
  eqEnabled := 0
  eqLow := 0
  eqMid := 0
  eqHigh := 0
  compressorEnabled := 0
  compressorThreshold := 0
  compressorRatio := 0
  compressorAttack := 0
  compressorRelease := 0
  compressorMakeup := 0
  phaserEnabled := 0
  phaserRate := 0
  phaserDepth := 0
  phaserFeedback := 0
  reverbEnabled := 0
  reverbRoomSize := 0
  reverbDamping := 0
  reverbMix := 0
  delayEnabled := 0
  delayTime := 0
  delayFeedback := 0
  delayMix := 0

/-- A comb with every register and element +0.0 and its cursor 0 (40_chain R65). -/
def Comb.zero : Comb := ⟨0, 0, []⟩

/-- A channel with every register and element +0.0 and every cursor 0 (40_chain R65). -/
def Chan.zero : Chan where
  dist := ⟨0, 0, 0⟩
  filt := ⟨0, 0⟩
  eq := ⟨⟨0, 0⟩, ⟨0, 0⟩, ⟨0, 0⟩⟩
  comp := ⟨0, 0⟩
  ph := ⟨0, 0, 0, 0, 0⟩
  rev := ⟨.zero, .zero, .zero, .zero, .zero, .zero, .zero, .zero⟩
  dly := []

/-- The zero working state that CREATE and RESET leave (40_chain R65). -/
def Work.zero : Work := ⟨.zero, .zero, 0, 0⟩

/-- Every coefficient 0: held while no PROCESS has begun (log 3). -/
def Coeffs.zero : Coeffs where
  dist := ⟨0, 0, 0, 0, 0, 0, 0, 0⟩
  filt := ⟨0, 0⟩
  eq := ⟨⟨0, 0, 0, 0, 0⟩, ⟨0, 0, 0, 0, 0⟩, ⟨0, 0, 0, 0, 0⟩⟩
  comp := ⟨0, 0, 0, 0, 0, 0⟩
  ph := ⟨0, 0, 0, 0⟩
  rev := ⟨0, 0, 0, 0, 0, 0⟩
  dly := ⟨0, 0, 0, 0⟩

/-- The in-flight registers before any PROCESS (log 3). -/
def Flight.zero : Flight := ⟨.zero, .zero, 0, 0, 0, 0, .audio⟩

/-- Power-up (70_reset R191): no instance, not busy, no fault mark. Every field the spec says does not exist or is
unspecified holds the value its log entry names (log 1, 2, 3, 8, 9, 10, 17). -/
def State.reset : State where
  config := .reference
  live := false
  fault := none
  busy := false
  params := .zero
  work := .zero
  flight := .zero
  mem := []
  ctl := []
  aud := []
  issuer := .control
  turns := []
  replies := []
  outputs := []
  allocDraws := []

end Sys2Proof.Machine
end

