-- ==== Sys2Proof/Machine/Ops.lean ====
section
/-! DEFINITION. The named operations over registers, host memory, replies, the fault mark and the working state, shared by every command. -/

namespace Sys2Proof.Machine

/-- Reads a parameter register, `P[r]` (00_scope R13). -/
def readReg (p : Params) (r : Reg) : Word :=
  match r with
  | .distortionEnabled => p.distortionEnabled
  | .distortionDrive => p.distortionDrive
  | .distortionMix => p.distortionMix
  | .filterEnabled => p.filterEnabled
  | .filterCutoff => p.filterCutoff
  | .filterResonance => p.filterResonance
  | .eqEnabled => p.eqEnabled
  | .eqLow => p.eqLow
  | .eqMid => p.eqMid
  | .eqHigh => p.eqHigh
  | .compressorEnabled => p.compressorEnabled
  | .compressorThreshold => p.compressorThreshold
  | .compressorRatio => p.compressorRatio
  | .compressorAttack => p.compressorAttack
  | .compressorRelease => p.compressorRelease
  | .compressorMakeup => p.compressorMakeup
  | .phaserEnabled => p.phaserEnabled
  | .phaserRate => p.phaserRate
  | .phaserDepth => p.phaserDepth
  | .phaserFeedback => p.phaserFeedback
  | .reverbEnabled => p.reverbEnabled
  | .reverbRoomSize => p.reverbRoomSize
  | .reverbDamping => p.reverbDamping
  | .reverbMix => p.reverbMix
  | .delayEnabled => p.delayEnabled
  | .delayTime => p.delayTime
  | .delayFeedback => p.delayFeedback
  | .delayMix => p.delayMix

/-- Writes a parameter register, `P[r] <- v` (00_scope R13). -/
def writeReg (p : Params) (r : Reg) (v : Word) : Params :=
  match r with
  | .distortionEnabled => { p with distortionEnabled := v }
  | .distortionDrive => { p with distortionDrive := v }
  | .distortionMix => { p with distortionMix := v }
  | .filterEnabled => { p with filterEnabled := v }
  | .filterCutoff => { p with filterCutoff := v }
  | .filterResonance => { p with filterResonance := v }
  | .eqEnabled => { p with eqEnabled := v }
  | .eqLow => { p with eqLow := v }
  | .eqMid => { p with eqMid := v }
  | .eqHigh => { p with eqHigh := v }
  | .compressorEnabled => { p with compressorEnabled := v }
  | .compressorThreshold => { p with compressorThreshold := v }
  | .compressorRatio => { p with compressorRatio := v }
  | .compressorAttack => { p with compressorAttack := v }
  | .compressorRelease => { p with compressorRelease := v }
  | .compressorMakeup => { p with compressorMakeup := v }
  | .phaserEnabled => { p with phaserEnabled := v }
  | .phaserRate => { p with phaserRate := v }
  | .phaserDepth => { p with phaserDepth := v }
  | .phaserFeedback => { p with phaserFeedback := v }
  | .reverbEnabled => { p with reverbEnabled := v }
  | .reverbRoomSize => { p with reverbRoomSize := v }
  | .reverbDamping => { p with reverbDamping := v }
  | .reverbMix => { p with reverbMix := v }
  | .delayEnabled => { p with delayEnabled := v }
  | .delayTime => { p with delayTime := v }
  | .delayFeedback => { p with delayFeedback := v }
  | .delayMix => { p with delayMix := v }

/-- The value of every parameter register after CREATE (10_state R26). -/
def createParams : Params where
  distortionEnabled := 0
  distortionDrive := 0
  distortionMix := 0
  filterEnabled := 0
  filterCutoff := 0x3F800000#32
  filterResonance := 0
  eqEnabled := 0
  eqLow := 0x3F000000#32
  eqMid := 0x3F000000#32
  eqHigh := 0x3F000000#32
  compressorEnabled := 0
  compressorThreshold := 0x3F800000#32
  compressorRatio := 0
  compressorAttack := 0
  compressorRelease := 0
  compressorMakeup := 0
  phaserEnabled := 0
  phaserRate := 0
  phaserDepth := 0
  phaserFeedback := 0
  reverbEnabled := 0
  reverbRoomSize := 0
  reverbDamping := 0
  reverbMix := 0
  delayEnabled := 0
  delayTime := 0
  delayFeedback := 0
  delayMix := 0

/-- The code of a status word (60_exceptions R177). -/
def statusCode : Status → Word
  | .ok => 0
  | .errAlloc => 1
  | .errRate => 2
  | .errIllegal => 3
  | .errNoChain => 4
  | .errExists => 5
  | .errBuffer => 6

/-- `return status` and `return (status, data)` (00_scope R13): a reply to the agent whose command is being run. -/
def reply (s : State) (status : Status) (data : Option Word) : State :=
  { s with replies := ⟨s.issuer, status, data⟩ :: s.replies }

/-- `raise Fault(reason)` (60_exceptions R178): the mark is set where it is `none`, and nothing else changes. -/
def raiseFault (s : State) (reason : FaultReason) : State :=
  { s with fault := some (s.fault.getD reason) }

/-- `zero_state()` (40_chain R65): every working register and memory element +0.0, every cursor 0. -/
def zeroState (s : State) : State := { s with work := .zero }

/-- `draw Alloc` (40_chain R64): the environment's next draw. Where it has listed none, the reference
configuration, success (92 D19, log 8). -/
def drawAlloc (s : State) : Bool × State :=
  match s.allocDraws with
  | [] => (true, s)
  | d :: ds => (d, { s with allocDraws := ds })

/-- `MemRead(addr, 2)` (20_memory R35): the little-endian i16 at `addr`. -/
def memRead16 (m : Memory) (addr : Nat) : Sample := readCell m (addr + 1) ++ readCell m addr

/-- `MemWrite(addr, 2, v)` (20_memory R35): the low byte at `addr`, the high byte above it. -/
def memWrite16 (m : Memory) (addr : Nat) (v : Sample) : Memory :=
  writeCell (writeCell m addr (v.extractLsb' 0 8)) (addr + 1) (v.extractLsb' 8 8)

/-- The bytes of the buffer of the PROCESS in flight, `[base, base + 4N)`, as memory holds them (70_reset R202). -/
def bufferBytes (s : State) : Memory :=
  s.mem.filter fun c => s.flight.base.toNat ≤ c.1 && c.1 < s.flight.base.toNat + 4 * s.flight.frames.toNat

/-- Some byte of the `len` bytes from `addr` on belongs to the buffer of the in-flight PROCESS (60_exceptions R178): the two
ranges meet. -/
def touchesBuffer (s : State) (addr len : Nat) : Bool :=
  s.busy && decide (max addr s.flight.base.toNat < min (addr + len) (s.flight.base.toNat + 4 * s.flight.frames.toNat))

/-- Bytes stored from `addr` upward. -/
def writeBytes (m : Memory) (addr : Nat) : List Byte → Memory
  | [] => m
  | v :: vs => writeBytes (writeCell m addr v) (addr + 1) vs

/-- An access of another agent to `len` bytes from `addr` on that would leave `t`, as one transition (60_exceptions R180): where
it touches the in-flight buffer it is the fault of 60_exceptions R178 and has no other effect; where a byte of it lies outside
the address space there is nothing to access (20_memory R34, log 14). -/
def hostAccess (s : State) (addr len : Nat) (t : State) : Host.Outcome State Fault Refusal :=
  if touchesBuffer s addr len then .next (raiseFault s .hostBufferAccess)
  else if len ≠ 0 ∧ s.config.addressSpace < addr + len then .fault .outsideAddressSpace
  else .next t

/-- Another agent reads `len` bytes from `addr` on (20_memory R51): nothing in the state changes. -/
def hostRead (s : State) (addr len : Nat) : Host.Outcome State Fault Refusal := hostAccess s addr len s

/-- Another agent writes bytes from `addr` on (20_memory R51). -/
def hostWrite (s : State) (addr : Nat) (bytes : List Byte) : Host.Outcome State Fault Refusal :=
  hostAccess s addr bytes.length { s with mem := writeBytes s.mem addr bytes }

end Sys2Proof.Machine
end

