-- ==== Sys2Proof/Machine/Operands.lean ====
section
/-! DEFINITION. The operand forms: how the data word of a SET and the operand words of PROCESS are read (30_encoding R55), and how buffer samples are converted to f32 and back (00_scope R18, R19). -/

namespace Sys2Proof.Machine

/-- `clamp01(v)` (00_scope R17): NaN and everything at or below zero to +0.0, everything above 1 to 1.0, every other
value kept bit for bit. -/
def clamp01 (v : F32) : F32 :=
  if isNaN v then 0x00000000#32
  else if fle v 0x00000000#32 then 0x00000000#32
  else if fgt v fOne then fOne
  else v

/-- The sample rate operand, an i32 in two's complement (30_encoding R55). -/
def rateHz (rate : Word) : Int := rate.toInt

/-- `in16(s)` (00_scope R18): `s × 2^-15`, exact. -/
def in16 (s : Sample) : F32 := roundDyadic (s.toInt < 0) s.toInt.natAbs (-15)

/-- `sat16(y)` (00_scope R19): one f32 multiply by 32768, then NaN to 0, saturation at both rails, and rounding to the
nearest integer, ties to even. -/
def sat16 (y : F32) : Sample :=
  let v := fmul y f32768
  match unpack v with
  | .nan => 0
  | .inf neg => if neg then 0x8000#16 else 0x7FFF#16
  | .fin neg m e =>
    if fge v 0x46FFFE00#32 then 0x7FFF#16
    else if fle v 0xC7000000#32 then 0x8000#16
    else BitVec.ofInt 16 (nearestEvenInt neg m e)

end Sys2Proof.Machine
end

