-- ==== Sys2Proof/Machine/Flags.lean ====
section
/-! DEFINITION. The only flags of the block: the seven per-stage enable bits (10_state R25). How SET computes one, and how the engine reads one from the snapshot. -/

namespace Sys2Proof.Machine

/-- An enable register stores 1 for any nonzero data word and 0 for a zero word (10_state R27). -/
def enableWord (data : Word) : Word := if data = 0 then 0 else 1

/-- What SET stores into a register (40_chain R79): the enable bit of an enable register, `clamp01` of the data for a
normalized one. -/
def setValue (r : Reg) (data : Word) : Word := if r.isEnable then enableWord data else clamp01 data

/-- `snap[s.enabled] = 1` (40_chain R72). -/
def enabled (snap : Params) (r : Reg) : Bool := readReg snap r == 1

/-- The SET of 40_chain R79, the same for every register. -/
def setReg (r : Reg) (data : Word) (s : State) : State :=
  if s.live then reply { s with params := writeReg s.params r (setValue r data) } .ok none
  else reply s .errNoChain none

/-- The GET of 40_chain R80, the same for every register. -/
def getReg (r : Reg) (s : State) : State :=
  if s.live then reply s .ok (some (readReg s.params r))
  else reply s .errNoChain (some 0)

end Sys2Proof.Machine
end

