-- ==== Sys2Proof/Machine/Distortion.lean ====
section
/-! DEFINITION. Stage 0, distortion (41_distortion): block coefficients, the per-sample step, and the SET and GET commands of its registers. -/

namespace Sys2Proof.Machine

/-- `exp(−2 pi × hz / fs)`. -/
def expHz (hz : Nat) (fs : Int) : RealExpr :=
  .exp (.div (.mul (.mul (.rat (-2) 1) .pi) (eNat hz)) (.rat fs 1))

/-- `1 − exp(−1 / (tau × fs))`. -/
def smoothing (tau : RealExpr) (fs : Int) : RealExpr :=
  .sub (eNat 1) (.exp (.div (.rat (-1) 1) (.mul tau (.rat fs 1))))

/-- The block coefficients of 41_distortion R83. -/
def distCoeffs (c : Config) (snap : Params) (fs : Int) : DistK where
  dG := coef c (.add (eNat 1) (.mul (eNat 19) (.f32 snap.distortionDrive)))
  dPre := coef c (.sub (eNat 1) (expHz 100 fs))
  dAtt := coef c (smoothing (eDec 1 1000) fs)
  dRel := coef c (smoothing (eDec 5 100) fs)
  dLo := coef c (.sub (eNat 1) (expHz 2000 fs))
  dSpan := coef c (.sub (expHz 2000 fs) (expHz 8000 fs))
  dWet := snap.distortionMix
  dDry := coef c (.sub (eNat 1) (.f32 snap.distortionMix))

/-- `Dist(ch, x)` on the registers of one channel (41_distortion R84). -/
def distLane (k : DistK) (r : DistRegs) (x : F32) : DistRegs × F32 :=
  let pre := fadd r.pre (fmul k.dPre (fsub x r.pre))
  let h := fsub x pre
  let u := fmul k.dG h
  let s := fdiv u (fadd fOne (fabs u))
  let ax := fabs x
  let c := if fgt ax r.env then k.dAtt else k.dRel
  let env := fadd r.env (fmul c (fsub ax r.env))
  let a := fadd k.dLo (fmul k.dSpan env)
  let post := fadd r.post (fmul a (fsub s r.post))
  let y := fadd (fmul x k.dDry) (fmul post k.dWet)
  (⟨pre, env, post⟩, y)

/-- `Stage_0(xL, xR)` (41_distortion R85). -/
def distStage (k : DistK) (w : Work) (x : F32 × F32) : Work × (F32 × F32) :=
  let l := distLane k w.left.dist x.1
  let r := distLane k w.right.dist x.2
  ({ w with left := { w.left with dist := l.1 }, right := { w.right with dist := r.1 } }, (l.2, r.2))

/-- SET distortion.enabled (41_distortion R87). -/
def execSetDistortionEnabled (data : Word) (s : State) : Host.Outcome State Fault Refusal :=
  .next (setReg .distortionEnabled data s)

/-- GET distortion.enabled (41_distortion R88). -/
def execGetDistortionEnabled (s : State) : Host.Outcome State Fault Refusal :=
  .next (getReg .distortionEnabled s)

/-- SET distortion.drive (41_distortion R89). -/
def execSetDistortionDrive (data : Word) (s : State) : Host.Outcome State Fault Refusal :=
  .next (setReg .distortionDrive data s)

/-- GET distortion.drive (41_distortion R90). -/
def execGetDistortionDrive (s : State) : Host.Outcome State Fault Refusal :=
  .next (getReg .distortionDrive s)

/-- SET distortion.mix (41_distortion R91). -/
def execSetDistortionMix (data : Word) (s : State) : Host.Outcome State Fault Refusal :=
  .next (setReg .distortionMix data s)

/-- GET distortion.mix (41_distortion R92). -/
def execGetDistortionMix (s : State) : Host.Outcome State Fault Refusal :=
  .next (getReg .distortionMix s)

end Sys2Proof.Machine
end

