-- ==== Sys2Proof/Machine/Compressor.lean ====
section
/-! DEFINITION. Stage 3, the compressor (44_compressor): block coefficients, the per-sample step, and the SET and GET commands of its registers. -/

namespace Sys2Proof.Machine

/-- The block coefficients of 44_compressor R119. -/
def compCoeffs (c : Config) (snap : Params) (fs : Int) : CompK where
  cThr := coef c (.pow 10 (.div (.add (.rat (-60) 1) (.mul (eNat 60) (.f32 snap.compressorThreshold))) (eNat 20)))
  cR := coef c (.add (eNat 1) (.mul (eNat 9) (.f32 snap.compressorRatio)))
  cAtt := coef c (smoothing (.add (eDec 1 10000) (.mul (eDec 999 10000) (.f32 snap.compressorAttack))) fs)
  cRel := coef c (smoothing (.add (eDec 1 100) (.mul (eDec 99 100) (.f32 snap.compressorRelease))) fs)
  cRms := coef c (smoothing (eDec 1 100) fs)
  cMk := coef c (.add (eNat 1) (.mul (eNat 3) (.f32 snap.compressorMakeup)))

/-- `Comp(ch, x)` on the registers of one channel (44_compressor R120). -/
def compLane (k : CompK) (r : CompRegs) (x : F32) : CompRegs × F32 :=
  let ax := fabs x
  let c := if fgt ax r.env then k.cAtt else k.cRel
  let env := fadd r.env (fmul c (fsub ax r.env))
  let ms := fadd r.ms (fmul k.cRms (fsub (fmul x x) r.ms))
  let lvl := fmul fHalf (fadd env (fsqrt ms))
  let g := if fgt lvl k.cThr then fdiv (fadd k.cThr (fdiv (fsub lvl k.cThr) k.cR)) lvl else fOne
  let y := fmul (fmul x g) k.cMk
  (⟨env, ms⟩, y)

/-- `Stage_3(xL, xR)` (44_compressor R121). -/
def compStage (k : CompK) (w : Work) (x : F32 × F32) : Work × (F32 × F32) :=
  let l := compLane k w.left.comp x.1
  let r := compLane k w.right.comp x.2
  ({ w with left := { w.left with comp := l.1 }, right := { w.right with comp := r.1 } }, (l.2, r.2))

/-- SET compressor.enabled (44_compressor R123). -/
def execSetCompressorEnabled (data : Word) (s : State) : Host.Outcome State Fault Refusal :=
  .next (setReg .compressorEnabled data s)

/-- GET compressor.enabled (44_compressor R124). -/
def execGetCompressorEnabled (s : State) : Host.Outcome State Fault Refusal :=
  .next (getReg .compressorEnabled s)

/-- SET compressor.threshold (44_compressor R125). -/
def execSetCompressorThreshold (data : Word) (s : State) : Host.Outcome State Fault Refusal :=
  .next (setReg .compressorThreshold data s)

/-- GET compressor.threshold (44_compressor R126). -/
def execGetCompressorThreshold (s : State) : Host.Outcome State Fault Refusal :=
  .next (getReg .compressorThreshold s)

/-- SET compressor.ratio (44_compressor R127). -/
def execSetCompressorRatio (data : Word) (s : State) : Host.Outcome State Fault Refusal :=
  .next (setReg .compressorRatio data s)

/-- GET compressor.ratio (44_compressor R128). -/
def execGetCompressorRatio (s : State) : Host.Outcome State Fault Refusal :=
  .next (getReg .compressorRatio s)

/-- SET compressor.attack (44_compressor R129). -/
def execSetCompressorAttack (data : Word) (s : State) : Host.Outcome State Fault Refusal :=
  .next (setReg .compressorAttack data s)

/-- GET compressor.attack (44_compressor R130). -/
def execGetCompressorAttack (s : State) : Host.Outcome State Fault Refusal :=
  .next (getReg .compressorAttack s)

/-- SET compressor.release (44_compressor R131). -/
def execSetCompressorRelease (data : Word) (s : State) : Host.Outcome State Fault Refusal :=
  .next (setReg .compressorRelease data s)

/-- GET compressor.release (44_compressor R132). -/
def execGetCompressorRelease (s : State) : Host.Outcome State Fault Refusal :=
  .next (getReg .compressorRelease s)

/-- SET compressor.makeup (44_compressor R133). -/
def execSetCompressorMakeup (data : Word) (s : State) : Host.Outcome State Fault Refusal :=
  .next (setReg .compressorMakeup data s)

/-- GET compressor.makeup (44_compressor R134). -/
def execGetCompressorMakeup (s : State) : Host.Outcome State Fault Refusal :=
  .next (getReg .compressorMakeup s)

end Sys2Proof.Machine
end

