-- ==== Sys2Proof/Machine/Delay.lean ====
section
/-! DEFINITION. Stage 6, the delay (47_delay): block coefficients, the per-frame step, and the SET and GET commands of its registers. -/

namespace Sys2Proof.Machine

/-- The delay offset in frames: `time × fs` in one f32 multiply, floored, then clamped to 1 and `CAP − 1` (47_delay R165). -/
def delayOffset (time : F32) (fs : Int) : Nat :=
  (min (max (floorInt (fmul time (ofInt fs))) 1) ((Config.cap : Int) - 1)).toNat

/-- The block coefficients of 47_delay R165. -/
def dlyCoeffs (c : Config) (snap : Params) (fs : Int) : DlyK where
  off := delayOffset snap.delayTime fs
  eFb := coef c (.mul (eDec 95 100) (.f32 snap.delayFeedback))
  eWet := snap.delayMix
  eDry := coef c (.sub (eNat 1) (.f32 snap.delayMix))

/-- `Dly(ch, x, r)` on the delay memory of one channel, with the write cursor `wr`: the read comes before the
write (47_delay R166). -/
def dlyLane (k : DlyK) (wr rd : Nat) (buf : Cells 32) (x : F32) : Cells 32 × F32 :=
  let d := readCell buf rd
  (writeCell buf wr (fadd x (fmul d k.eFb)), fadd (fmul x k.eDry) (fmul d k.eWet))

/-- `Stage_6(xL, xR)` (47_delay R167): one read index and one write cursor for both channels. -/
def dlyStage (k : DlyK) (w : Work) (x : F32 × F32) : Work × (F32 × F32) :=
  let rd := (w.dlyW + Config.cap - k.off) % Config.cap
  let l := dlyLane k w.dlyW rd w.left.dly x.1
  let r := dlyLane k w.dlyW rd w.right.dly x.2
  ({ w with left := { w.left with dly := l.1 }, right := { w.right with dly := r.1 },
            dlyW := (w.dlyW + 1) % Config.cap }, (l.2, r.2))

/-- SET delay.enabled (47_delay R169). -/
def execSetDelayEnabled (data : Word) (s : State) : Host.Outcome State Fault Refusal :=
  .next (setReg .delayEnabled data s)

/-- GET delay.enabled (47_delay R170). -/
def execGetDelayEnabled (s : State) : Host.Outcome State Fault Refusal :=
  .next (getReg .delayEnabled s)

/-- SET delay.time (47_delay R171). -/
def execSetDelayTime (data : Word) (s : State) : Host.Outcome State Fault Refusal :=
  .next (setReg .delayTime data s)

/-- GET delay.time (47_delay R172). -/
def execGetDelayTime (s : State) : Host.Outcome State Fault Refusal :=
  .next (getReg .delayTime s)

/-- SET delay.feedback (47_delay R173). -/
def execSetDelayFeedback (data : Word) (s : State) : Host.Outcome State Fault Refusal :=
  .next (setReg .delayFeedback data s)

/-- GET delay.feedback (47_delay R174). -/
def execGetDelayFeedback (s : State) : Host.Outcome State Fault Refusal :=
  .next (getReg .delayFeedback s)

/-- SET delay.mix (47_delay R175). -/
def execSetDelayMix (data : Word) (s : State) : Host.Outcome State Fault Refusal :=
  .next (setReg .delayMix data s)

/-- GET delay.mix (47_delay R176). -/
def execGetDelayMix (s : State) : Host.Outcome State Fault Refusal :=
  .next (getReg .delayMix s)

end Sys2Proof.Machine
end

