-- ==== Sys2Proof/Machine/Eq.lean ====
section
/-! DEFINITION. Stage 2, the three-band equalizer (43_eq): block coefficients, the per-sample step, and the SET and GET commands of its registers. -/

namespace Sys2Proof.Machine

/-- `A = 10^(dB / 40)` with `dB = −12 + 24 × g` (43_eq R105). -/
def eqA (g : F32) : RealExpr :=
  .pow 10 (.div (.add (.rat (-12) 1) (.mul (eNat 24) (.f32 g))) (eNat 40))

/-- `w0 = 2 pi f0 / fs` with `f0 = min(centre, 0.45 × fs)` (43_eq R105). -/
def eqW0 (centre : Nat) (fs : Int) : RealExpr :=
  .div (.mul (.mul (eNat 2) .pi) (.min (eNat centre) (.mul (eDec 45 100) (.rat fs 1)))) (.rat fs 1)

/-- `al = sw / 2 × sqrt(2)`, for a shelf of slope 1 (43_eq R105). -/
def shelfAl (w0 : RealExpr) : RealExpr := .mul (.div (.sin w0) (eNat 2)) (.sqrt (eNat 2))

/-- The five normalized coefficients of a band, each rounded once (43_eq R105). -/
def bandCoeffs (c : Config) (b0 b1 b2 a0 a1 a2 : RealExpr) : BandK where
  b0 := coef c (.div b0 a0)
  b1 := coef c (.div b1 a0)
  b2 := coef c (.div b2 a0)
  a1 := coef c (.div a1 a0)
  a2 := coef c (.div a2 a0)

/-- Band 0, the low shelf (43_eq R105). -/
def lowShelf (c : Config) (A w0 : RealExpr) : BandK :=
  let cw : RealExpr := .cos w0
  let aPlus : RealExpr := .add A (eNat 1)
  let aMinus : RealExpr := .sub A (eNat 1)
  let root : RealExpr := .mul (.mul (eNat 2) (.sqrt A)) (shelfAl w0)
  bandCoeffs c
    (.mul A (.add (.sub aPlus (.mul aMinus cw)) root))
    (.mul (.mul (eNat 2) A) (.sub aMinus (.mul aPlus cw)))
    (.mul A (.sub (.sub aPlus (.mul aMinus cw)) root))
    (.add (.add aPlus (.mul aMinus cw)) root)
    (.mul (.rat (-2) 1) (.add aMinus (.mul aPlus cw)))
    (.sub (.add aPlus (.mul aMinus cw)) root)

/-- Band 1, the peaking section with Q = 1 (43_eq R105). -/
def peaking (c : Config) (A w0 : RealExpr) : BandK :=
  let al : RealExpr := .div (.sin w0) (.mul (eNat 2) (eNat 1))
  let m2cw : RealExpr := .mul (.rat (-2) 1) (.cos w0)
  bandCoeffs c
    (.add (eNat 1) (.mul al A))
    m2cw
    (.sub (eNat 1) (.mul al A))
    (.add (eNat 1) (.div al A))
    m2cw
    (.sub (eNat 1) (.div al A))

/-- Band 2, the high shelf (43_eq R105). -/
def highShelf (c : Config) (A w0 : RealExpr) : BandK :=
  let cw : RealExpr := .cos w0
  let aPlus : RealExpr := .add A (eNat 1)
  let aMinus : RealExpr := .sub A (eNat 1)
  let root : RealExpr := .mul (.mul (eNat 2) (.sqrt A)) (shelfAl w0)
  bandCoeffs c
    (.mul A (.add (.add aPlus (.mul aMinus cw)) root))
    (.mul (.mul (.rat (-2) 1) A) (.add aMinus (.mul aPlus cw)))
    (.mul A (.sub (.add aPlus (.mul aMinus cw)) root))
    (.add (.sub aPlus (.mul aMinus cw)) root)
    (.mul (eNat 2) (.sub aMinus (.mul aPlus cw)))
    (.sub (.sub aPlus (.mul aMinus cw)) root)

/-- The block coefficients of 43_eq R105. -/
def eqCoeffs (c : Config) (snap : Params) (fs : Int) : EqK where
  low := lowShelf c (eqA snap.eqLow) (eqW0 100 fs)
  mid := peaking c (eqA snap.eqMid) (eqW0 1000 fs)
  high := highShelf c (eqA snap.eqHigh) (eqW0 10000 fs)

/-- One band, a biquad in transposed direct form II (43_eq R106). The new `z1` uses the old `z2`. -/
def eqBand (k : BandK) (r : EqBand) (x : F32) : EqBand × F32 :=
  let y := fadd (fmul k.b0 x) r.z1
  let z1 := fadd (fsub (fmul k.b1 x) (fmul k.a1 y)) r.z2
  let z2 := fsub (fmul k.b2 x) (fmul k.a2 y)
  (⟨z1, z2⟩, y)

/-- `Eq(ch, x)` on the registers of one channel: the bands in series, low first (43_eq R106). -/
def eqLane (k : EqK) (r : EqRegs) (x : F32) : EqRegs × F32 :=
  let low := eqBand k.low r.low x
  let mid := eqBand k.mid r.mid low.2
  let high := eqBand k.high r.high mid.2
  (⟨low.1, mid.1, high.1⟩, high.2)

/-- `Stage_2(xL, xR)` (43_eq R107). -/
def eqStage (k : EqK) (w : Work) (x : F32 × F32) : Work × (F32 × F32) :=
  let l := eqLane k w.left.eq x.1
  let r := eqLane k w.right.eq x.2
  ({ w with left := { w.left with eq := l.1 }, right := { w.right with eq := r.1 } }, (l.2, r.2))

/-- SET eq.enabled (43_eq R110). -/
def execSetEqEnabled (data : Word) (s : State) : Host.Outcome State Fault Refusal :=
  .next (setReg .eqEnabled data s)

/-- GET eq.enabled (43_eq R111). -/
def execGetEqEnabled (s : State) : Host.Outcome State Fault Refusal :=
  .next (getReg .eqEnabled s)

/-- SET eq.low (43_eq R112). -/
def execSetEqLow (data : Word) (s : State) : Host.Outcome State Fault Refusal :=
  .next (setReg .eqLow data s)

/-- GET eq.low (43_eq R113). -/
def execGetEqLow (s : State) : Host.Outcome State Fault Refusal :=
  .next (getReg .eqLow s)

/-- SET eq.mid (43_eq R114). -/
def execSetEqMid (data : Word) (s : State) : Host.Outcome State Fault Refusal :=
  .next (setReg .eqMid data s)

/-- GET eq.mid (43_eq R115). -/
def execGetEqMid (s : State) : Host.Outcome State Fault Refusal :=
  .next (getReg .eqMid s)

/-- SET eq.high (43_eq R116). -/
def execSetEqHigh (data : Word) (s : State) : Host.Outcome State Fault Refusal :=
  .next (setReg .eqHigh data s)

/-- GET eq.high (43_eq R117). -/
def execGetEqHigh (s : State) : Host.Outcome State Fault Refusal :=
  .next (getReg .eqHigh s)

end Sys2Proof.Machine
end

