-- ==== Sys2Proof/Machine/Filter.lean ====
section
/-! DEFINITION. Stage 1, the resonant low-pass filter (42_filter): block coefficients, the per-sample step, and the SET and GET commands of its registers. -/

namespace Sys2Proof.Machine

/-- The block coefficients of 42_filter R94. -/
def filtCoeffs (c : Config) (snap : Params) (fs : Int) : FiltK :=
  let fc : RealExpr := .mul (eNat 20) (.pow 1000 (.f32 snap.filterCutoff))
  let fcc : RealExpr := .min fc (.div (.rat fs 1) (eNat 6))
  let root2 : RealExpr := .sqrt (eNat 2)
  { fF := coef c (.mul (eNat 2) (.sin (.div (.mul .pi fcc) (.rat fs 1))))
    fQ := coef c (.sub root2 (.mul (.sub root2 (eDec 1 10)) (.f32 snap.filterResonance))) }

/-- `Filt(ch, x)` on the registers of one channel (42_filter R95). -/
def filtLane (k : FiltK) (r : FiltRegs) (x : F32) : FiltRegs × F32 :=
  let lp := fadd r.lp (fmul k.fF r.bp)
  let hp := fsub (fsub x lp) (fmul k.fQ r.bp)
  let bp := fadd r.bp (fmul k.fF hp)
  (⟨lp, bp⟩, lp)

/-- `Stage_1(xL, xR)` (42_filter R96). -/
def filtStage (k : FiltK) (w : Work) (x : F32 × F32) : Work × (F32 × F32) :=
  let l := filtLane k w.left.filt x.1
  let r := filtLane k w.right.filt x.2
  ({ w with left := { w.left with filt := l.1 }, right := { w.right with filt := r.1 } }, (l.2, r.2))

/-- SET filter.enabled (42_filter R98). -/
def execSetFilterEnabled (data : Word) (s : State) : Host.Outcome State Fault Refusal :=
  .next (setReg .filterEnabled data s)

/-- GET filter.enabled (42_filter R99). -/
def execGetFilterEnabled (s : State) : Host.Outcome State Fault Refusal :=
  .next (getReg .filterEnabled s)

/-- SET filter.cutoff (42_filter R100). -/
def execSetFilterCutoff (data : Word) (s : State) : Host.Outcome State Fault Refusal :=
  .next (setReg .filterCutoff data s)

/-- GET filter.cutoff (42_filter R101). -/
def execGetFilterCutoff (s : State) : Host.Outcome State Fault Refusal :=
  .next (getReg .filterCutoff s)

/-- SET filter.resonance (42_filter R102). -/
def execSetFilterResonance (data : Word) (s : State) : Host.Outcome State Fault Refusal :=
  .next (setReg .filterResonance data s)

/-- GET filter.resonance (42_filter R103). -/
def execGetFilterResonance (s : State) : Host.Outcome State Fault Refusal :=
  .next (getReg .filterResonance s)

end Sys2Proof.Machine
end

