-- ==== Sys2Proof/Machine/Phaser.lean ====
section
/-! DEFINITION. Stage 4, the phaser and its LFO (45_phaser): block coefficients, the per-frame step, and the SET and GET commands of its registers. -/

namespace Sys2Proof.Machine

/-- The block coefficients of 45_phaser R136. -/
def phCoeffs (c : Config) (snap : Params) (fs : Int) : PhK where
  pInc := coef c (.div (.mul (eNat 5) (.f32 snap.phaserRate)) (.rat fs 1))
  pW := coef c (.div .pi (.rat fs 1))
  pFb := coef c (.mul (eDec 95 100) (.f32 snap.phaserFeedback))
  pDepth := snap.phaserDepth

/-- The all-pass coefficient `c` of a frame, from the shared phase (45_phaser R137). -/
def phC (k : PhK) (phase : F32) : F32 :=
  let t := fabs (fsub (fmul fTwo phase) fOne)
  let m := fmul k.pDepth t
  let fc := fadd f200 (fmul f1800 m)
  let w := fmul fc k.pW
  fdiv (fsub w fOne) (fadd w fOne)

/-- The phase after a frame (45_phaser R138). -/
def phAdvance (k : PhK) (phase : F32) : F32 :=
  let p := fadd phase k.pInc
  fsub p (ffloor p)

/-- One first-order all-pass section: its new register and its output (45_phaser R139). -/
def allPass (c s u : F32) : F32 × F32 :=
  let v := fadd (fmul c u) s
  (fsub u (fmul c v), v)

/-- `Ph(ch, x, c)` on the registers of one channel (45_phaser R139). -/
def phLane (k : PhK) (c : F32) (r : PhRegs) (x : F32) : PhRegs × F32 :=
  let u := fadd x (fmul k.pFb r.fb)
  let v0 := allPass c r.s0 u
  let v1 := allPass c r.s1 v0.2
  let v2 := allPass c r.s2 v1.2
  let v3 := allPass c r.s3 v2.2
  let y := fadd (fmul fHalf x) (fmul fHalf v3.2)
  (⟨v0.1, v1.1, v2.1, v3.1, v3.2⟩, y)

/-- `Stage_4(xL, xR)` (45_phaser R140): one `c` for both channels, then one advance of the shared phase. -/
def phStage (k : PhK) (w : Work) (x : F32 × F32) : Work × (F32 × F32) :=
  let c := phC k w.phase
  let l := phLane k c w.left.ph x.1
  let r := phLane k c w.right.ph x.2
  ({ w with left := { w.left with ph := l.1 }, right := { w.right with ph := r.1 },
            phase := phAdvance k w.phase }, (l.2, r.2))

/-- SET phaser.enabled (45_phaser R142). -/
def execSetPhaserEnabled (data : Word) (s : State) : Host.Outcome State Fault Refusal :=
  .next (setReg .phaserEnabled data s)

/-- GET phaser.enabled (45_phaser R143). -/
def execGetPhaserEnabled (s : State) : Host.Outcome State Fault Refusal :=
  .next (getReg .phaserEnabled s)

/-- SET phaser.rate (45_phaser R144). -/
def execSetPhaserRate (data : Word) (s : State) : Host.Outcome State Fault Refusal :=
  .next (setReg .phaserRate data s)

/-- GET phaser.rate (45_phaser R145). -/
def execGetPhaserRate (s : State) : Host.Outcome State Fault Refusal :=
  .next (getReg .phaserRate s)

/-- SET phaser.depth (45_phaser R146). -/
def execSetPhaserDepth (data : Word) (s : State) : Host.Outcome State Fault Refusal :=
  .next (setReg .phaserDepth data s)

/-- GET phaser.depth (45_phaser R147). -/
def execGetPhaserDepth (s : State) : Host.Outcome State Fault Refusal :=
  .next (getReg .phaserDepth s)

/-- SET phaser.feedback (45_phaser R148). -/
def execSetPhaserFeedback (data : Word) (s : State) : Host.Outcome State Fault Refusal :=
  .next (setReg .phaserFeedback data s)

/-- GET phaser.feedback (45_phaser R149). -/
def execGetPhaserFeedback (s : State) : Host.Outcome State Fault Refusal :=
  .next (getReg .phaserFeedback s)

end Sys2Proof.Machine
end

