-- ==== Sys2Proof/Machine/Reverb.lean ====
section
/-! DEFINITION. Stage 5, the reverb (46_reverb): block coefficients, the per-sample step, and the SET and GET commands of its registers. -/

namespace Sys2Proof.Machine

/-- The block coefficients of 46_reverb R152. -/
def revCoeffs (c : Config) (snap : Params) : RevK where
  rFb := coef c (.add (eDec 7 10) (.mul (eDec 28 100) (.f32 snap.reverbRoomSize)))
  rD := coef c (.mul (eDec 4 10) (.f32 snap.reverbDamping))
  rD1 := coef c (.sub (eNat 1) (.mul (eDec 4 10) (.f32 snap.reverbDamping)))
  rIn := coef c (eDec 15 1000)
  rWet := snap.reverbMix
  rDry := coef c (.sub (eNat 1) (.f32 snap.reverbMix))

/-- One comb of length `len` for the comb input `inp`: the damping low-pass, the feedback write at the element
just read, the cursor's step, and the comb's output (46_reverb R153). -/
def combStep (k : RevK) (len : Nat) (inp : F32) (c : Comb) : Comb × F32 :=
  let o := readCell c.buf c.idx
  let filt := fadd (fmul o k.rD1) (fmul c.filt k.rD)
  (⟨filt, (c.idx + 1) % len, writeCell c.buf c.idx (fadd inp (fmul filt k.rFb))⟩, o)

/-- `Rev(ch, x)` on the combs of one channel, k = 0 to 7 (46_reverb R153). -/
def revLane (c : Config) (k : RevK) (r : RevRegs) (x : F32) : RevRegs × F32 :=
  let inp := fmul x k.rIn
  let o0 := combStep k c.combLen0 inp r.c0
  let o1 := combStep k c.combLen1 inp r.c1
  let o2 := combStep k c.combLen2 inp r.c2
  let o3 := combStep k c.combLen3 inp r.c3
  let o4 := combStep k c.combLen4 inp r.c4
  let o5 := combStep k c.combLen5 inp r.c5
  let o6 := combStep k c.combLen6 inp r.c6
  let o7 := combStep k c.combLen7 inp r.c7
  let acc := fadd (fadd (fadd (fadd (fadd (fadd (fadd (fadd 0x00000000#32 o0.2) o1.2) o2.2) o3.2) o4.2) o5.2) o6.2) o7.2
  let y := fadd (fmul x k.rDry) (fmul acc k.rWet)
  (⟨o0.1, o1.1, o2.1, o3.1, o4.1, o5.1, o6.1, o7.1⟩, y)

/-- `Stage_5(xL, xR)` (46_reverb R154). -/
def revStage (c : Config) (k : RevK) (w : Work) (x : F32 × F32) : Work × (F32 × F32) :=
  let l := revLane c k w.left.rev x.1
  let r := revLane c k w.right.rev x.2
  ({ w with left := { w.left with rev := l.1 }, right := { w.right with rev := r.1 } }, (l.2, r.2))

/-- SET reverb.enabled (46_reverb R156). -/
def execSetReverbEnabled (data : Word) (s : State) : Host.Outcome State Fault Refusal :=
  .next (setReg .reverbEnabled data s)

/-- GET reverb.enabled (46_reverb R157). -/
def execGetReverbEnabled (s : State) : Host.Outcome State Fault Refusal :=
  .next (getReg .reverbEnabled s)

/-- SET reverb.room_size (46_reverb R158). -/
def execSetReverbRoomSize (data : Word) (s : State) : Host.Outcome State Fault Refusal :=
  .next (setReg .reverbRoomSize data s)

/-- GET reverb.room_size (46_reverb R159). -/
def execGetReverbRoomSize (s : State) : Host.Outcome State Fault Refusal :=
  .next (getReg .reverbRoomSize s)

/-- SET reverb.damping (46_reverb R160). -/
def execSetReverbDamping (data : Word) (s : State) : Host.Outcome State Fault Refusal :=
  .next (setReg .reverbDamping data s)

/-- GET reverb.damping (46_reverb R161). -/
def execGetReverbDamping (s : State) : Host.Outcome State Fault Refusal :=
  .next (getReg .reverbDamping s)

/-- SET reverb.mix (46_reverb R162). -/
def execSetReverbMix (data : Word) (s : State) : Host.Outcome State Fault Refusal :=
  .next (setReg .reverbMix data s)

/-- GET reverb.mix (46_reverb R163). -/
def execGetReverbMix (s : State) : Host.Outcome State Fault Refusal :=
  .next (getReg .reverbMix s)

end Sys2Proof.Machine
end

