-- ==== Sys2Proof/Machine/Chain.lean ====
section
/-! DEFINITION. The chain-control commands CREATE, DESTROY, RESET and PROCESS (40_chain R64 to R70). PROCESS is its begin step; the frame steps and the end step are the engine's (Machine/Engine.lean). -/

namespace Sys2Proof.Machine

/-- A fresh instance (40_chain R64): CREATE values in every parameter register, the zero working state. -/
def createInstance (s : State) : State :=
  zeroState { s with live := true, busy := false, params := createParams }

/-- CREATE (40_chain R64). -/
def execCreate (s : State) : Host.Outcome State Fault Refusal :=
  .next (if s.live then reply s .errExists none
    else
      let d := drawAlloc s
      if d.1 then reply (createInstance d.2) .ok none else reply d.2 .errAlloc none)

/-- DESTROY (40_chain R66): `live` false, and with it the parameters, the working state and the memories cease to
exist: they hold what power-up holds (log 4). -/
def execDestroy (s : State) : Host.Outcome State Fault Refusal :=
  .next (if !s.live then reply s .errNoChain none
    else if s.busy then raiseFault s .concurrentControl
    else reply { s with live := false, params := .zero, work := .zero } .ok none)

/-- RESET (40_chain R67). -/
def execReset (s : State) : Host.Outcome State Fault Refusal :=
  .next (if !s.live then reply s .errNoChain none
    else if s.busy then raiseFault s .concurrentControl
    else reply (zeroState s) .ok none)

/-- `K`: the block coefficients from the snapshot and the sample rate (40_chain R70). Those of a disabled stage
are computed too, and no rule reads them (log 18). -/
def coefficients (c : Config) (snap : Params) (fs : Int) : Coeffs where
  dist := distCoeffs c snap fs
  filt := filtCoeffs c snap fs
  eq := eqCoeffs c snap fs
  comp := compCoeffs c snap fs
  ph := phCoeffs c snap fs
  rev := revCoeffs c snap
  dly := dlyCoeffs c snap fs

/-- The begin step after its checks (40_chain R70). -/
def beginProcess (base frames rate : Word) (s : State) : State :=
  { s with
    busy := true
    flight :=
      { snap := s.params
        k := coefficients s.config s.params (rateHz rate)
        n := 0
        frames := frames
        base := base
        fs := rate
        issuer := s.issuer } }

/-- PROCESS: the begin step, its checks in the order of 40_chain R69 and 60_exceptions R180. -/
def execProcess (base frames rate : Word) (s : State) : Host.Outcome State Fault Refusal :=
  .next (if !s.live then reply s .errNoChain none
    else if s.busy then raiseFault s .concurrentProcess
    else if rateHz rate < s.config.fsMin ∨ s.config.fsMax < rateHz rate then reply s .errRate none
    else if frames = 0 then reply s .ok none
    else if base.toNat % 2 ≠ 0 then reply s .errBuffer none
    else if base.toNat + 4 * frames.toNat - 1 > s.config.addressSpace - 1 then reply s .errBuffer none
    else beginProcess base frames rate s)

end Sys2Proof.Machine
end

