-- ==== Sys2Proof/Machine/Dispatch.lean ====
section
/-! DEFINITION. One arm per command of the opcode table, each one call of its meaning. -/

namespace Sys2Proof.Machine

def exec (i : Instr) (s : State) : Host.Outcome State Fault Refusal :=
  match i with
  | .create => Sys2Proof.Machine.execCreate s
  | .destroy => Sys2Proof.Machine.execDestroy s
  | .reset => Sys2Proof.Machine.execReset s
  | .process base frames sampleRate => Sys2Proof.Machine.execProcess base frames sampleRate s
  | .setDistortionEnabled data => Sys2Proof.Machine.execSetDistortionEnabled data s
  | .setDistortionDrive data => Sys2Proof.Machine.execSetDistortionDrive data s
  | .setDistortionMix data => Sys2Proof.Machine.execSetDistortionMix data s
  | .setFilterEnabled data => Sys2Proof.Machine.execSetFilterEnabled data s
  | .setFilterCutoff data => Sys2Proof.Machine.execSetFilterCutoff data s
  | .setFilterResonance data => Sys2Proof.Machine.execSetFilterResonance data s
  | .setEqEnabled data => Sys2Proof.Machine.execSetEqEnabled data s
  | .setEqLow data => Sys2Proof.Machine.execSetEqLow data s
  | .setEqMid data => Sys2Proof.Machine.execSetEqMid data s
  | .setEqHigh data => Sys2Proof.Machine.execSetEqHigh data s
  | .setCompressorEnabled data => Sys2Proof.Machine.execSetCompressorEnabled data s
  | .setCompressorThreshold data => Sys2Proof.Machine.execSetCompressorThreshold data s
  | .setCompressorRatio data => Sys2Proof.Machine.execSetCompressorRatio data s
  | .setCompressorAttack data => Sys2Proof.Machine.execSetCompressorAttack data s
  | .setCompressorRelease data => Sys2Proof.Machine.execSetCompressorRelease data s
  | .setCompressorMakeup data => Sys2Proof.Machine.execSetCompressorMakeup data s
  | .setPhaserEnabled data => Sys2Proof.Machine.execSetPhaserEnabled data s
  | .setPhaserRate data => Sys2Proof.Machine.execSetPhaserRate data s
  | .setPhaserDepth data => Sys2Proof.Machine.execSetPhaserDepth data s
  | .setPhaserFeedback data => Sys2Proof.Machine.execSetPhaserFeedback data s
  | .setReverbEnabled data => Sys2Proof.Machine.execSetReverbEnabled data s
  | .setReverbRoomSize data => Sys2Proof.Machine.execSetReverbRoomSize data s
  | .setReverbDamping data => Sys2Proof.Machine.execSetReverbDamping data s
  | .setReverbMix data => Sys2Proof.Machine.execSetReverbMix data s
  | .setDelayEnabled data => Sys2Proof.Machine.execSetDelayEnabled data s
  | .setDelayTime data => Sys2Proof.Machine.execSetDelayTime data s
  | .setDelayFeedback data => Sys2Proof.Machine.execSetDelayFeedback data s
  | .setDelayMix data => Sys2Proof.Machine.execSetDelayMix data s
  | .getDistortionEnabled => Sys2Proof.Machine.execGetDistortionEnabled s
  | .getDistortionDrive => Sys2Proof.Machine.execGetDistortionDrive s
  | .getDistortionMix => Sys2Proof.Machine.execGetDistortionMix s
  | .getFilterEnabled => Sys2Proof.Machine.execGetFilterEnabled s
  | .getFilterCutoff => Sys2Proof.Machine.execGetFilterCutoff s
  | .getFilterResonance => Sys2Proof.Machine.execGetFilterResonance s
  | .getEqEnabled => Sys2Proof.Machine.execGetEqEnabled s
  | .getEqLow => Sys2Proof.Machine.execGetEqLow s
  | .getEqMid => Sys2Proof.Machine.execGetEqMid s
  | .getEqHigh => Sys2Proof.Machine.execGetEqHigh s
  | .getCompressorEnabled => Sys2Proof.Machine.execGetCompressorEnabled s
  | .getCompressorThreshold => Sys2Proof.Machine.execGetCompressorThreshold s
  | .getCompressorRatio => Sys2Proof.Machine.execGetCompressorRatio s
  | .getCompressorAttack => Sys2Proof.Machine.execGetCompressorAttack s
  | .getCompressorRelease => Sys2Proof.Machine.execGetCompressorRelease s
  | .getCompressorMakeup => Sys2Proof.Machine.execGetCompressorMakeup s
  | .getPhaserEnabled => Sys2Proof.Machine.execGetPhaserEnabled s
  | .getPhaserRate => Sys2Proof.Machine.execGetPhaserRate s
  | .getPhaserDepth => Sys2Proof.Machine.execGetPhaserDepth s
  | .getPhaserFeedback => Sys2Proof.Machine.execGetPhaserFeedback s
  | .getReverbEnabled => Sys2Proof.Machine.execGetReverbEnabled s
  | .getReverbRoomSize => Sys2Proof.Machine.execGetReverbRoomSize s
  | .getReverbDamping => Sys2Proof.Machine.execGetReverbDamping s
  | .getReverbMix => Sys2Proof.Machine.execGetReverbMix s
  | .getDelayEnabled => Sys2Proof.Machine.execGetDelayEnabled s
  | .getDelayTime => Sys2Proof.Machine.execGetDelayTime s
  | .getDelayFeedback => Sys2Proof.Machine.execGetDelayFeedback s
  | .getDelayMix => Sys2Proof.Machine.execGetDelayMix s

end Sys2Proof.Machine
end

