-- ==== Sys2Proof/Machine/Engine.lean ====
section
/-! DEFINITION. The engine (00_scope R9): one frame of the in-flight PROCESS per step, then the end step (40_chain R71, R72, R75). -/

namespace Sys2Proof.Machine

/-- A stage runs where its snapshot enable bit is 1, and is skipped whole where it is 0 (40_chain R73). -/
def stageIf (on : Bool) (stage : Work → F32 × F32 → Work × (F32 × F32)) (a : Work × (F32 × F32)) :
    Work × (F32 × F32) :=
  if on then stage a.1 a.2 else a

/-- The enabled stages 0 to 6 in order, each fed the output of the one before (40_chain R72, 00_scope R3). -/
def runStages (c : Config) (snap : Params) (k : Coeffs) (w : Work) (x : F32 × F32) : Work × (F32 × F32) :=
  let a0 := stageIf (enabled snap .distortionEnabled) (distStage k.dist) (w, x)
  let a1 := stageIf (enabled snap .filterEnabled) (filtStage k.filt) a0
  let a2 := stageIf (enabled snap .eqEnabled) (eqStage k.eq) a1
  let a3 := stageIf (enabled snap .compressorEnabled) (compStage k.comp) a2
  let a4 := stageIf (enabled snap .phaserEnabled) (phStage k.ph) a3
  let a5 := stageIf (enabled snap .reverbEnabled) (revStage c k.rev) a4
  stageIf (enabled snap .delayEnabled) (dlyStage k.dly) a5

/-- The byte address of the left sample of frame `n` (20_memory R41), in unbounded integers (40_chain R81). -/
def frameAddr (f : Flight) : Nat := f.base.toNat + 4 * f.n

/-- The engine step of frame `n` (40_chain R72, 20_memory R42): read L, read R, the stages, write L, write R. A buffer that
leaves the address space, which the begin step rules out, is a fault (log 13). -/
def frameStep (s : State) : Host.Outcome State Fault Refusal :=
  let a := frameAddr s.flight
  if s.config.addressSpace ≤ a + 3 then .fault .outsideAddressSpace
  else
    let r := runStages s.config s.flight.snap s.flight.k s.work
      (in16 (memRead16 s.mem a), in16 (memRead16 s.mem (a + 2)))
    .next { s with
      work := r.1
      mem := memWrite16 (memWrite16 s.mem a (sat16 r.2.1)) (a + 2) (sat16 r.2.2)
      flight := { s.flight with n := s.flight.n + 1 } }

/-- The end step (40_chain R75): `busy` false, OK returned to the agent that issued the PROCESS, and the buffer as it stands
now kept for the result of the run (70_reset R202, log 25). -/
def endStep (s : State) : State :=
  { s with
    busy := false
    replies := ⟨s.flight.issuer, .ok, none⟩ :: s.replies
    outputs := ⟨s.flight.base, s.flight.frames, bufferBytes s⟩ :: s.outputs }

/-- The engine's turn: a frame step while `n < N`, the end step at `n = N` (40_chain R71, R75), and nothing
while no PROCESS is in flight (60_exceptions R190). -/
def engineTurn (s : State) : Host.Outcome State Fault Refusal :=
  if !s.busy then .next s
  else if s.flight.n < s.flight.frames.toNat then frameStep s
  else if s.flight.n = s.flight.frames.toNat then .next (endStep s)
  else .fault .engineStuck

end Sys2Proof.Machine
end

