-- ==== Sys2Proof/Machine/Fetch.lean ====
section
/-! DEFINITION. Whose transition comes next, and taking a command from a port (20_memory R43, 30_encoding R52, R54). -/

namespace Sys2Proof.Machine

/-- The words waiting on an agent's command port (30_encoding R52). -/
def portOf (s : State) : Agent → List Word
  | .control => s.ctl
  | .audio => s.aud

/-- The words of an agent's command port replaced. -/
def withPort (s : State) (a : Agent) (ws : List Word) : State :=
  match a with
  | .control => { s with ctl := ws }
  | .audio => { s with aud := ws }

/-- A whole command, or an illegal word, waits on the port. -/
def commandWaits (ws : List Word) : Bool := decode ws != .incomplete

/-- The next transition and the order after it. Where the environment has listed none (log 9): the engine while a
PROCESS is in flight, else a waiting control command, else a waiting audio command, else the engine's turn, which
is then idle. -/
def nextTurn (s : State) : Turn × List Turn :=
  match s.turns with
  | t :: ts => (t, ts)
  | [] =>
    if s.busy then (.engine, [])
    else if commandWaits s.ctl then (.command .control, [])
    else if commandWaits s.aud then (.command .audio, [])
    else (.engine, [])

/-- What a step does: run a decoded command at a state, or anything else, already done. -/
inductive Fetched where
  | run (i : Instr) (s : State)
  | done (o : Host.Outcome State Fault Refusal)

/-- An agent's turn: its next command is taken from its port and run (30_encoding R54). An illegal word is a command of one
word that returns ERR_ILLEGAL (30_encoding R57). Where no whole command waits, none has been issued (60_exceptions R179). -/
def commandTurn (s : State) (a : Agent) : Fetched :=
  match decode (portOf s a) with
  | .command i rest => .run i { withPort s a rest with issuer := a }
  | .illegal _ rest => .done (.next (reply { withPort s a rest with issuer := a } .errIllegal none))
  | .incomplete => .done (.next s)

/-- The next transition of the total order (20_memory R43). At a marked state no agent has an enabled step (60_exceptions R178). -/
def fetch (s : State) : Fetched :=
  match s.fault with
  | some reason => .done (.fault (.stopped reason))
  | none =>
    let s' := { s with turns := (nextTurn s).2 }
    match (nextTurn s).1 with
    | .command a => commandTurn s' a
    | .engine => .done (engineTurn s')
    | .hostRead addr len => .done (hostRead s' addr len)
    | .hostWrite addr bytes => .done (hostWrite s' addr bytes)

/-- The port a table word is placed on: PROCESS is the audio agent's, every other command the control agent's (00_scope R9). -/
def issuerOf (cmd : Word) : Agent := if cmd = 0x13000000#32 then .audio else .control

/-- `ws` put at the front of an agent's port, and that agent's turn put first. -/
def placeCommand (s : State) (a : Agent) (ws : List Word) : State :=
  { withPort s a (ws ++ portOf s a) with turns := .command a :: s.turns }

end Sys2Proof.Machine
end

