-- ==== Sys2Proof/Machine/Step.lean ====
section
/-! DEFINITION. One step: the next transition of the total order (20_memory R43), and placing a command where the next step fetches it. -/

namespace Sys2Proof.Machine

/-- One atomic transition (20_memory R43). -/
def step (s : State) : Host.Outcome State Fault Refusal :=
  match fetch s with
  | .run i s' => exec i s'
  | .done o => o

/-- `s` with the command whose bits are `w` at the front of the port of the agent that issues it, and that agent's turn
next (log 11). -/
def State.withFetchWord (s : State) (nbits w : Nat) : State :=
  placeCommand s (issuerOf (BitVec.ofNat 32 (w % 2 ^ nbits))) (tableWords nbits w)

end Sys2Proof.Machine
end

