-- ==== Sys2Proof/Machine/Assembler.lean ====
section
/-! DEFINITION. The assembly syntax of the command set and its pseudo-commands (30_encoding R59, R60). They belong to the host's side of the command port: the block sees only the words they expand to. -/

namespace Sys2Proof.Machine

/-- The value operand of a SET line (30_encoding R59): a decimal (a fraction here), `inf`, `-inf`, `nan`, `-0.0`, a raw
bit pattern, or, for an enable register, an integer. -/
inductive Literal where
  | decimal (num : Int) (den : Nat)
  | inf
  | negInf
  | nan
  | negZero
  | raw (bits : Word)
  | integer (n : Int)
  deriving DecidableEq, Repr

/-- The data word of a literal: a decimal is rounded to the nearest f32, ties to even; `nan` is the quiet NaN
0x7FC00000 (30_encoding R59). DESIGN CHOICE (log 22): an integer is reduced modulo 2^32. -/
def literalWord : Literal → Word
  | .decimal num den => roundRatio num den
  | .inf => 0x7F800000#32
  | .negInf => 0xFF800000#32
  | .nan => 0x7FC00000#32
  | .negZero => 0x80000000#32
  | .raw bits => bits
  | .integer n => BitVec.ofInt 32 n

/-- A line of assembly: a command, or a pseudo-command (30_encoding R59, R60). `enable` and `disable` name their stage
by its enable register. -/
inductive Line where
  | create
  | destroy
  | reset
  | process (base frames : Word) (rate : Int)
  | set (r : Reg) (value : Literal)
  | get (r : Reg)
  | enable (stage : Reg)
  | disable (stage : Reg)
  | bypassAll
  /-- `SETCC stage.param, cc`, a MIDI value 0 to 127 scaled to 0.0 to 1.0 -/
  | setcc (r : Reg) (cc : Nat)
  deriving DecidableEq, Repr

/-- The enable registers of the seven stages in order (30_encoding R60). -/
def enableRegs : List Reg :=
  [.distortionEnabled, .filterEnabled, .eqEnabled, .compressorEnabled, .phaserEnabled, .reverbEnabled, .delayEnabled]

/-- The commands a line stands for (30_encoding R59, R60). DESIGN CHOICE (log 22), where the spec
gives no word: a sample rate is reduced modulo 2^32, a literal of the wrong kind for its register is its own word, and a
`cc` above 127 is scaled like any other. -/
def assemble (c : Config) : Line → List Instr
  | .create => [.create]
  | .destroy => [.destroy]
  | .reset => [.reset]
  | .process base frames rate => [.process base frames (BitVec.ofInt 32 rate)]
  | .set r value => [setInstr r (literalWord value)]
  | .get r => [getInstr r]
  | .enable stage => [setInstr stage 1]
  | .disable stage => [setInstr stage 0]
  | .bypassAll => enableRegs.map fun r => setInstr r 0
  | .setcc r cc => [setInstr r (coef c (.div (eNat cc) (eNat 127)))]

/-- The name `stage.param` of a register (10_state R26). -/
def regName : Reg → String
  | .distortionEnabled => "distortion.enabled"
  | .distortionDrive => "distortion.drive"
  | .distortionMix => "distortion.mix"
  | .filterEnabled => "filter.enabled"
  | .filterCutoff => "filter.cutoff"
  | .filterResonance => "filter.resonance"
  | .eqEnabled => "eq.enabled"
  | .eqLow => "eq.low"
  | .eqMid => "eq.mid"
  | .eqHigh => "eq.high"
  | .compressorEnabled => "compressor.enabled"
  | .compressorThreshold => "compressor.threshold"
  | .compressorRatio => "compressor.ratio"
  | .compressorAttack => "compressor.attack"
  | .compressorRelease => "compressor.release"
  | .compressorMakeup => "compressor.makeup"
  | .phaserEnabled => "phaser.enabled"
  | .phaserRate => "phaser.rate"
  | .phaserDepth => "phaser.depth"
  | .phaserFeedback => "phaser.feedback"
  | .reverbEnabled => "reverb.enabled"
  | .reverbRoomSize => "reverb.room_size"
  | .reverbDamping => "reverb.damping"
  | .reverbMix => "reverb.mix"
  | .delayEnabled => "delay.enabled"
  | .delayTime => "delay.time"
  | .delayFeedback => "delay.feedback"
  | .delayMix => "delay.mix"

/-- The words of an assembly program, in order. -/
def assembleWords (c : Config) (lines : List Line) : List Word := lines.flatMap fun l => (assemble c l).flatMap encode

end Sys2Proof.Machine
end

