-- ==== Sys2Proof/Machine/Result.lean ====
section
/-! DEFINITION. The end of a run and its result (70_reset R202), functions of the state the run ends in. -/

namespace Sys2Proof.Machine

/-- The result of a run (70_reset R202): the statuses and data words returned and the buffers of the ended PROCESS commands,
both oldest first, and the state of 10_state. Of that state `busy` is false and the mark none at the end, and the
in-flight registers mean nothing (10_state R32). -/
structure Result where
  replies : List Reply
  outputs : List Output
  live : Bool
  params : Params
  work : Work
  deriving DecidableEq, Repr

/-- A state in which a run ends successfully (70_reset R202): no PROCESS in flight, no fault mark, and no command
waiting for its status. -/
def State.ended (s : State) : Bool :=
  !s.busy && s.fault.isNone && !commandWaits s.ctl && !commandWaits s.aud

/-- The result of a run that ends in `s`, where it ends successfully there. -/
def State.result (s : State) : Option Result :=
  if s.ended then some ⟨s.replies.reverse, s.outputs.reverse, s.live, s.params, s.work⟩ else none

end Sys2Proof.Machine
end

