-- ==== Sys2Proof/Safety.lean ====
section
/-! DEFINITION. The terms claims are stated in: the invariant that rules out states no run reaches, and the exact real numbers that binary32 patterns and coefficient expressions stand for. -/

namespace Sys2Proof.Machine

/-- The values a parameter register can hold (10_state R26): 0 or 1 in an enable register; in a normalized one an f32 from
+0.0 to 1.0, whose bit patterns are the numbers 0 to 0x3F800000. -/
abbrev legalValue (r : Reg) (v : Word) : Prop :=
  if r.isEnable then v = 0 ∨ v = 1 else v.toNat ≤ 0x3F800000

/-- Every parameter register holds a legal value. -/
def Params.legal (p : Params) : Prop := ∀ r, legalValue r (readReg p r)

/-- What 92 "OPEN parameters" asks of a configuration: `FS_MIN` and every comb length at least 1. -/
abbrev Config.legal (c : Config) : Prop :=
  1 ≤ c.fsMin ∧ 1 ≤ c.combLen0 ∧ 1 ≤ c.combLen1 ∧ 1 ≤ c.combLen2 ∧ 1 ≤ c.combLen3 ∧ 1 ≤ c.combLen4 ∧
  1 ≤ c.combLen5 ∧ 1 ≤ c.combLen6 ∧ 1 ≤ c.combLen7

/-- A comb of length `len`: its cursor in range (10_state R30), its memory canonical and within its length. -/
def Comb.ok (len : Nat) (c : Comb) : Prop := c.idx < len ∧ Cells.wf c.buf ∧ Cells.below len c.buf

/-- The eight combs of a channel. -/
def RevRegs.ok (c : Config) (r : RevRegs) : Prop :=
  Comb.ok c.combLen0 r.c0 ∧ Comb.ok c.combLen1 r.c1 ∧ Comb.ok c.combLen2 r.c2 ∧
  Comb.ok c.combLen3 r.c3 ∧ Comb.ok c.combLen4 r.c4 ∧ Comb.ok c.combLen5 r.c5 ∧
  Comb.ok c.combLen6 r.c6 ∧ Comb.ok c.combLen7 r.c7

/-- A channel's memories and cursors (10_state R30). -/
def Chan.ok (c : Config) (ch : Chan) : Prop := RevRegs.ok c ch.rev ∧ Cells.wf ch.dly ∧ Cells.below Config.cap ch.dly

/-- The working state's memories and cursors (10_state R30). -/
def Work.ok (c : Config) (w : Work) : Prop := Chan.ok c w.left ∧ Chan.ok c w.right ∧ w.dlyW < Config.cap

/-- What the begin step leaves of an in-flight PROCESS and the engine keeps (40_chain R69, R70): a supported rate, a
nonempty buffer at an even base inside the address space, the frame index at most `N`, a legal snapshot, the
coefficients of that snapshot, and a delay offset from 1 to `CAP − 1` (47_delay R165). -/
def Flight.ok (c : Config) (f : Flight) : Prop :=
  c.fsMin ≤ rateHz f.fs ∧ rateHz f.fs ≤ c.fsMax ∧ 0 < f.frames.toNat ∧ f.base.toNat % 2 = 0 ∧
  f.base.toNat + 4 * f.frames.toNat ≤ c.addressSpace ∧ f.n ≤ f.frames.toNat ∧ Params.legal f.snap ∧
  f.k = coefficients c f.snap (rateHz f.fs) ∧ 1 ≤ f.k.dly.off ∧ f.k.dly.off ≤ Config.cap - 1

/-- The machine's invariant: a legal configuration, host memory canonical, legal parameters, cursors and internal memories in range, and while a
PROCESS is in flight, an instance and a sound in-flight record. -/
def State.Inv (s : State) : Prop :=
  Config.legal s.config ∧ Memory.wf s.config s.mem ∧ Params.legal s.params ∧ Work.ok s.config s.work ∧
  (s.busy = true → s.live = true ∧ Flight.ok s.config s.flight)

/-- The exact real value of a finite binary32; 0 for a NaN or an infinity. -/
noncomputable def f32Value (v : F32) : ℝ :=
  match unpack v with
  | .fin neg m e => (if neg then -1 else 1) * (m : ℝ) * (2 : ℝ) ^ e
  | _ => 0

/-- The exact real value of a coefficient expression (00_scope R15). -/
noncomputable def exprValue : RealExpr → ℝ
  | .rat n d => (n : ℝ) / (d : ℝ)
  | .f32 v => f32Value v
  | .pi => Real.pi
  | .add a b => exprValue a + exprValue b
  | .sub a b => exprValue a - exprValue b
  | .mul a b => exprValue a * exprValue b
  | .div a b => exprValue a / exprValue b
  | .min a b => min (exprValue a) (exprValue b)
  | .sqrt a => Real.sqrt (exprValue a)
  | .exp a => Real.exp (exprValue a)
  | .sin a => Real.sin (exprValue a)
  | .cos a => Real.cos (exprValue a)
  | .pow base a => (base : ℝ) ^ exprValue a

/-- `v` is the binary32 nearest the real `r`, ties to even (00_scope R15), for `r` inside the finite range: no finite
binary32 is nearer, and where one of another value is as near, `v` has the even significand. -/
def IsNearestEven (r : ℝ) (v : F32) : Prop :=
  isFinite v = true ∧
  ∀ w, isFinite w = true →
    |f32Value v - r| ≤ |f32Value w - r| ∧
    (|f32Value v - r| = |f32Value w - r| → f32Value w ≠ f32Value v → v.toNat % 2 = 0)

/-- `v` is the real `r` rounded to binary32, to nearest with ties to even (00_scope R14): the nearest finite binary32 below
the overflow threshold (half a last place above the largest finite value), the infinity of its sign from there on. -/
def RoundsTo (r : ℝ) (v : F32) : Prop :=
  (|r| < 2 ^ 128 - 2 ^ 103 → IsNearestEven r v) ∧
  (2 ^ 128 - 2 ^ 103 ≤ r → v = finf false) ∧ (r ≤ -(2 ^ 128 - 2 ^ 103) → v = finf true)

/-- A command word with a meaning: the 60 of 30_encoding R56, by their formulas. -/
def listedWord (w : Word) : Prop :=
  w = 0x10000000#32 ∨ w = 0x11000000#32 ∨ w = 0x12000000#32 ∨ w = 0x13000000#32 ∨
  (∃ r : Reg, w = BitVec.ofNat 32 (0x20000000 + r.rn * 2 ^ 20)) ∨
  (∃ r : Reg, w = BitVec.ofNat 32 (0x30000000 + r.rn * 2 ^ 20))

/-- Two states the engine cannot tell apart: what an in-flight PROCESS reads (20_memory R44, 40_chain R72). -/
def engineView (s t : State) : Prop :=
  s.config = t.config ∧ s.busy = t.busy ∧ s.flight = t.flight ∧ s.work = t.work ∧ s.mem = t.mem

/-- Two states with one in-flight PROCESS that agree on everything of the left channel and on what the channels share:
its registers, its memories, its samples in the buffer, the LFO phase and the delay cursor (10_state R29). -/
def sameLeft (s t : State) : Prop :=
  s.config = t.config ∧ s.busy = t.busy ∧ s.flight = t.flight ∧ s.work.left = t.work.left ∧
  s.work.phase = t.work.phase ∧ s.work.dlyW = t.work.dlyW ∧
  ∀ n < s.flight.frames.toNat,
    memRead16 s.mem (s.flight.base.toNat + 4 * n) = memRead16 t.mem (s.flight.base.toNat + 4 * n)

/-- `sameLeft` for the right channel. -/
def sameRight (s t : State) : Prop :=
  s.config = t.config ∧ s.busy = t.busy ∧ s.flight = t.flight ∧ s.work.right = t.work.right ∧
  s.work.phase = t.work.phase ∧ s.work.dlyW = t.work.dlyW ∧
  ∀ n < s.flight.frames.toNat,
    memRead16 s.mem (s.flight.base.toNat + 4 * n + 2) = memRead16 t.mem (s.flight.base.toNat + 4 * n + 2)

/-- A comb of length `len` after the comb inputs `xs`, one step each (46_reverb R153). -/
def combRun (k : RevK) (len : Nat) (c : Comb) (xs : List F32) : Comb :=
  xs.foldl (fun c x => (combStep k len x c).1) c

/-- The working state after the delay stage has run on the frames `xs` (47_delay R167). -/
def delayRun (k : DlyK) (w : Work) (xs : List (F32 × F32)) : Work :=
  xs.foldl (fun w x => (dlyStage k w x).1) w

end Sys2Proof.Machine
end

