-- ==== Sys2Proof/Certificates/Slice0/Obligations.lean ====
section
/-! DEFINITION. The statements for the provers: what the numbered rules of spec/ say the block does. -/

open Sys2Proof Sys2Proof.Machine

/-- The words of 30_encoding R56, one or more of each family, decode to the commands they stand for. -/
def Obligations.SpecWordsDecode : Prop :=
  decode [0x10000000#32] = .command .create [] ∧
  decode [0x11000000#32] = .command .destroy [] ∧
  decode [0x12000000#32] = .command .reset [] ∧
  decode [0x13000000#32, 0x1000#32, 2#32, 48000#32, 0x10000000#32] =
    .command (.process 0x1000#32 2#32 48000#32) [0x10000000#32] ∧
  decode [0x20000000#32, 1#32] = .command (.setDistortionEnabled 1#32) [] ∧
  decode [0x21100000#32, 0x3F000000#32] = .command (.setFilterCutoff 0x3F000000#32) [] ∧
  decode [0x22300000#32, 0x3F800000#32] = .command (.setEqHigh 0x3F800000#32) [] ∧
  decode [0x23500000#32, 7#32, 9#32] = .command (.setCompressorMakeup 7#32) [9#32] ∧
  decode [0x24300000#32, 7#32] = .command (.setPhaserFeedback 7#32) [] ∧
  decode [0x25100000#32, 7#32] = .command (.setReverbRoomSize 7#32) [] ∧
  decode [0x26300000#32, 7#32] = .command (.setDelayMix 7#32) [] ∧
  decode [0x30100000#32] = .command .getDistortionDrive [] ∧
  decode [0x31200000#32] = .command .getFilterResonance [] ∧
  decode [0x32000000#32] = .command .getEqEnabled [] ∧
  decode [0x33100000#32] = .command .getCompressorThreshold [] ∧
  decode [0x34200000#32] = .command .getPhaserDepth [] ∧
  decode [0x35300000#32] = .command .getReverbMix [] ∧
  decode [0x36300000#32] = .command .getDelayMix []

/-- Decode and encode agree, both ways: a command is decoded exactly where its words (30_encoding R54, R56) stand. -/
def Obligations.DecodeInvertsEncodeExactly : Prop :=
  ∀ (ws : List Word) (i : Instr) (rest : List Word),
    decode ws = .command i rest ↔ ws = encode i ++ rest

/-- The checks of WellFormed.lean accept exactly the encodings of commands (30_encoding R53, R54, R57). -/
def Obligations.WellFormedIsEncoded : Prop :=
  ∀ ws : List Word, wellFormedCommand ws = true ↔ ∃ i, ws = encode i

/-- Every word outside the table of 30_encoding R56 is illegal and is a one-word command that answers ERR_ILLEGAL (R57). -/
def Obligations.UnlistedWordsAreIllegal : Prop :=
  (∀ (w : Word) (ws : List Word), (∃ why, decode (w :: ws) = .illegal why ws) ↔ ¬ listedWord w) ∧
  ∀ (s : State) (a : Agent) (ts : List Turn) (w : Word) (rest : List Word),
    s.fault = none → s.turns = .command a :: ts → portOf s a = w :: rest → ¬ listedWord w →
    step s = .next { withPort s a rest with
      turns := ts, issuer := a, replies := ⟨a, .errIllegal, none⟩ :: s.replies }

/-- A step is `exec` of the command decoded at the port of the agent whose turn it is (20_memory R43, 30_encoding R52); turns, ports and issuer are the model's own fields (log 9, 10). -/
def Obligations.StepRunsTheDecodedCommand : Prop :=
  ∀ (s : State) (a : Agent) (ts : List Turn) (i : Instr) (rest : List Word),
    s.fault = none → s.turns = .command a :: ts → decode (portOf s a) = .command i rest →
    step s = exec i { withPort s a rest with turns := ts, issuer := a }

/-- `withFetchWord` places a command so that the next step runs exactly it, at a state otherwise unchanged (log 11). -/
def Obligations.PlacedCommandRunsNext : Prop :=
  ∀ (s : State) (nbits w : Nat) (i : Instr),
    s.fault = none → decode (tableWords nbits w) = .command i [] →
    step (s.withFetchWord nbits w) =
      exec i { s with issuer := issuerOf (BitVec.ofNat 32 (w % 2 ^ nbits)) }

/-- No agent, the engine included, has an enabled step at a marked state (60_exceptions R178); the model answers it with the fault `stopped` (log 12). -/
def Obligations.MarkedStateIsQuiescent : Prop :=
  ∀ (s : State) (reason : FaultReason), s.fault = some reason → step s = .fault (.stopped reason)

/-- The fault mark is sticky (10_state R22) and records the first reason; commands set it only as 60_exceptions R178 lists. -/
def Obligations.NoCommandClearsTheMark : Prop :=
  ∀ (i : Instr) (s t : State), exec i s = .next t →
    (∀ reason, s.fault = some reason → t.fault = some reason) ∧
    (s.fault = none → t.fault ≠ none →
      s.live = true ∧ s.busy = true ∧
      (i = .reset ∨ i = .destroy ∨ ∃ base frames rate, i = .process base frames rate))

/-- The power-up state (70_reset R191). -/
def Obligations.PowerUpState : Prop :=
  State.reset.live = false ∧ State.reset.busy = false ∧ State.reset.fault = none

/-- The invariant `State.Inv` holds at power-up (10_state R26, R30); the register values there are the model's own (log 2, 3). -/
def Obligations.ResetMeetsTheInvariant : Prop :=
  State.Inv State.reset

/-- Every transition keeps `State.Inv`: the register ranges of 10_state R26, the cursor ranges of R30, and what the begin step of 40_chain R69 and R70 established. -/
def Obligations.EveryStepKeepsTheInvariant : Prop :=
  ∀ s t : State, State.Inv s → step s = .next t → State.Inv t

/-- CREATE (40_chain R64), its three outcomes. -/
def Obligations.CreateMakesAFreshInstance : Prop :=
  ∀ s : State,
    (s.live = false → s.allocDraws.headD true = true →
      exec .create s = .next { s with
        live := true
        busy := false
        params := {
          distortionEnabled := 0, distortionDrive := 0, distortionMix := 0,
          filterEnabled := 0, filterCutoff := 0x3F800000#32, filterResonance := 0,
          eqEnabled := 0, eqLow := 0x3F000000#32, eqMid := 0x3F000000#32, eqHigh := 0x3F000000#32,
          compressorEnabled := 0, compressorThreshold := 0x3F800000#32, compressorRatio := 0,
          compressorAttack := 0, compressorRelease := 0, compressorMakeup := 0,
          phaserEnabled := 0, phaserRate := 0, phaserDepth := 0, phaserFeedback := 0,
          reverbEnabled := 0, reverbRoomSize := 0, reverbDamping := 0, reverbMix := 0,
          delayEnabled := 0, delayTime := 0, delayFeedback := 0, delayMix := 0 }
        work := Work.zero
        allocDraws := s.allocDraws.tail
        replies := ⟨s.issuer, .ok, none⟩ :: s.replies }) ∧
    (s.live = false → s.allocDraws.headD true = false →
      exec .create s = .next { s with
        allocDraws := s.allocDraws.tail, replies := ⟨s.issuer, .errAlloc, none⟩ :: s.replies }) ∧
    (s.live = true →
      exec .create s = .next { s with replies := ⟨s.issuer, .errExists, none⟩ :: s.replies })

/-- DESTROY (40_chain R66) and RESET (R67) where they succeed; what stands in the registers that no longer exist is the model's choice (log 4). -/
def Obligations.DestroyAndResetResults : Prop :=
  ∀ s : State, s.live = true → s.busy = false →
    exec .destroy s = .next { s with
      live := false, params := Params.zero, work := Work.zero,
      replies := ⟨s.issuer, .ok, none⟩ :: s.replies } ∧
    exec .reset s = .next { s with
      work := Work.zero, replies := ⟨s.issuer, .ok, none⟩ :: s.replies }

/-- `zero_state()` (40_chain R65), register by register. -/
def Obligations.ZeroStateWritesExactlyTheWorkingState : Prop :=
  ∀ s : State,
    { zeroState s with work := s.work } = s ∧ (zeroState s).work.phase = 0 ∧ (zeroState s).work.dlyW = 0 ∧
    (zeroState s).work.left.dist.pre = 0 ∧
    (zeroState s).work.left.dist.env = 0 ∧
    (zeroState s).work.left.dist.post = 0 ∧
    (zeroState s).work.left.filt.lp = 0 ∧
    (zeroState s).work.left.filt.bp = 0 ∧
    (zeroState s).work.left.eq.low.z1 = 0 ∧
    (zeroState s).work.left.eq.low.z2 = 0 ∧
    (zeroState s).work.left.eq.mid.z1 = 0 ∧
    (zeroState s).work.left.eq.mid.z2 = 0 ∧
    (zeroState s).work.left.eq.high.z1 = 0 ∧
    (zeroState s).work.left.eq.high.z2 = 0 ∧
    (zeroState s).work.left.comp.env = 0 ∧
    (zeroState s).work.left.comp.ms = 0 ∧
    (zeroState s).work.left.ph.s0 = 0 ∧
    (zeroState s).work.left.ph.s1 = 0 ∧
    (zeroState s).work.left.ph.s2 = 0 ∧
    (zeroState s).work.left.ph.s3 = 0 ∧
    (zeroState s).work.left.ph.fb = 0 ∧
    (zeroState s).work.left.rev.c0.filt = 0 ∧ (zeroState s).work.left.rev.c0.idx = 0 ∧
      (∀ i, readCell (zeroState s).work.left.rev.c0.buf i = 0) ∧
    (zeroState s).work.left.rev.c1.filt = 0 ∧ (zeroState s).work.left.rev.c1.idx = 0 ∧
      (∀ i, readCell (zeroState s).work.left.rev.c1.buf i = 0) ∧
    (zeroState s).work.left.rev.c2.filt = 0 ∧ (zeroState s).work.left.rev.c2.idx = 0 ∧
      (∀ i, readCell (zeroState s).work.left.rev.c2.buf i = 0) ∧
    (zeroState s).work.left.rev.c3.filt = 0 ∧ (zeroState s).work.left.rev.c3.idx = 0 ∧
      (∀ i, readCell (zeroState s).work.left.rev.c3.buf i = 0) ∧
    (zeroState s).work.left.rev.c4.filt = 0 ∧ (zeroState s).work.left.rev.c4.idx = 0 ∧
      (∀ i, readCell (zeroState s).work.left.rev.c4.buf i = 0) ∧
    (zeroState s).work.left.rev.c5.filt = 0 ∧ (zeroState s).work.left.rev.c5.idx = 0 ∧
      (∀ i, readCell (zeroState s).work.left.rev.c5.buf i = 0) ∧
    (zeroState s).work.left.rev.c6.filt = 0 ∧ (zeroState s).work.left.rev.c6.idx = 0 ∧
      (∀ i, readCell (zeroState s).work.left.rev.c6.buf i = 0) ∧
    (zeroState s).work.left.rev.c7.filt = 0 ∧ (zeroState s).work.left.rev.c7.idx = 0 ∧
      (∀ i, readCell (zeroState s).work.left.rev.c7.buf i = 0) ∧
    (∀ i, readCell (zeroState s).work.left.dly i = 0) ∧
    (zeroState s).work.right.dist.pre = 0 ∧
    (zeroState s).work.right.dist.env = 0 ∧
    (zeroState s).work.right.dist.post = 0 ∧
    (zeroState s).work.right.filt.lp = 0 ∧
    (zeroState s).work.right.filt.bp = 0 ∧
    (zeroState s).work.right.eq.low.z1 = 0 ∧
    (zeroState s).work.right.eq.low.z2 = 0 ∧
    (zeroState s).work.right.eq.mid.z1 = 0 ∧
    (zeroState s).work.right.eq.mid.z2 = 0 ∧
    (zeroState s).work.right.eq.high.z1 = 0 ∧
    (zeroState s).work.right.eq.high.z2 = 0 ∧
    (zeroState s).work.right.comp.env = 0 ∧
    (zeroState s).work.right.comp.ms = 0 ∧
    (zeroState s).work.right.ph.s0 = 0 ∧
    (zeroState s).work.right.ph.s1 = 0 ∧
    (zeroState s).work.right.ph.s2 = 0 ∧
    (zeroState s).work.right.ph.s3 = 0 ∧
    (zeroState s).work.right.ph.fb = 0 ∧
    (zeroState s).work.right.rev.c0.filt = 0 ∧ (zeroState s).work.right.rev.c0.idx = 0 ∧
      (∀ i, readCell (zeroState s).work.right.rev.c0.buf i = 0) ∧
    (zeroState s).work.right.rev.c1.filt = 0 ∧ (zeroState s).work.right.rev.c1.idx = 0 ∧
      (∀ i, readCell (zeroState s).work.right.rev.c1.buf i = 0) ∧
    (zeroState s).work.right.rev.c2.filt = 0 ∧ (zeroState s).work.right.rev.c2.idx = 0 ∧
      (∀ i, readCell (zeroState s).work.right.rev.c2.buf i = 0) ∧
    (zeroState s).work.right.rev.c3.filt = 0 ∧ (zeroState s).work.right.rev.c3.idx = 0 ∧
      (∀ i, readCell (zeroState s).work.right.rev.c3.buf i = 0) ∧
    (zeroState s).work.right.rev.c4.filt = 0 ∧ (zeroState s).work.right.rev.c4.idx = 0 ∧
      (∀ i, readCell (zeroState s).work.right.rev.c4.buf i = 0) ∧
    (zeroState s).work.right.rev.c5.filt = 0 ∧ (zeroState s).work.right.rev.c5.idx = 0 ∧
      (∀ i, readCell (zeroState s).work.right.rev.c5.buf i = 0) ∧
    (zeroState s).work.right.rev.c6.filt = 0 ∧ (zeroState s).work.right.rev.c6.idx = 0 ∧
      (∀ i, readCell (zeroState s).work.right.rev.c6.buf i = 0) ∧
    (zeroState s).work.right.rev.c7.filt = 0 ∧ (zeroState s).work.right.rev.c7.idx = 0 ∧
      (∀ i, readCell (zeroState s).work.right.rev.c7.buf i = 0) ∧
    (∀ i, readCell (zeroState s).work.right.dly i = 0)

/-- The faults of commands while `busy` holds (40_chain R76, 60_exceptions R178). That the faulting command returns no status is the model's reading, of a fault as another outcome than a status word (00_scope R10, log 12). -/
def Obligations.CommandsDuringProcessFault : Prop :=
  ∀ (s : State) (base frames rate : Word), s.live = true → s.busy = true →
    exec .reset s = .next { s with fault := some (s.fault.getD .concurrentControl) } ∧
    exec .destroy s = .next { s with fault := some (s.fault.getD .concurrentControl) } ∧
    exec (.process base frames rate) s =
      .next { s with fault := some (s.fault.getD .concurrentProcess) }

/-- Every command but CREATE on a block without an instance (10_state R21). -/
def Obligations.CommandsWithoutAnInstance : Prop :=
  ∀ s : State, s.live = false →
    (∀ r : Reg, exec (getInstr r) s = .next { s with
      replies := ⟨s.issuer, .errNoChain, some 0⟩ :: s.replies }) ∧
    ∀ i : Instr, i ≠ .create → (∀ r : Reg, i ≠ getInstr r) →
      exec i s = .next { s with replies := ⟨s.issuer, .errNoChain, none⟩ :: s.replies }

/-- RESET is idempotent, and CREATE after DESTROY keeps nothing of the destroyed instance (70_reset R193). -/
def Obligations.ResetIdempotentAndCreateForgets : Prop :=
  (∀ s t : State, s.live = true → s.busy = false → exec .reset s = .next t →
    exec .reset t = .next { t with replies := ⟨s.issuer, .ok, none⟩ :: t.replies }) ∧
  ∀ s d c f g : State, s.live = true → s.busy = false →
    exec .destroy s = .next d → d.allocDraws.headD true = true → exec .create d = .next c →
    f.live = false → f.allocDraws.headD true = true → exec .create f = .next g →
    c.live = g.live ∧ c.busy = g.busy ∧ c.params = g.params ∧ c.work = g.work

/-- The begin step's checks (40_chain R69, 60_exceptions R180), one implication per line of the rule. The check at `2^w - 1` for an address width other than 32 is the model's choice (00_scope R11, log 17), and that the fault returns no status is its reading (60_exceptions R178, log 12). -/
def Obligations.ProcessChecksInOrder : Prop :=
  ∀ (s : State) (base frames rate : Word),
    (s.live = false →
      exec (.process base frames rate) s =
        .next { s with replies := ⟨s.issuer, .errNoChain, none⟩ :: s.replies }) ∧
    (s.live = true → s.busy = true →
      exec (.process base frames rate) s =
        .next { s with fault := some (s.fault.getD .concurrentProcess) }) ∧
    (s.live = true → s.busy = false → (rate.toInt < s.config.fsMin ∨ s.config.fsMax < rate.toInt) →
      exec (.process base frames rate) s =
        .next { s with replies := ⟨s.issuer, .errRate, none⟩ :: s.replies }) ∧
    (s.live = true → s.busy = false → s.config.fsMin ≤ rate.toInt → rate.toInt ≤ s.config.fsMax →
      (frames.toNat = 0 →
        exec (.process base frames rate) s =
          .next { s with replies := ⟨s.issuer, .ok, none⟩ :: s.replies }) ∧
      (frames.toNat ≠ 0 → base.toNat % 2 = 1 →
        exec (.process base frames rate) s =
          .next { s with replies := ⟨s.issuer, .errBuffer, none⟩ :: s.replies }) ∧
      (frames.toNat ≠ 0 → base.toNat % 2 = 0 → base.toNat + 4 * frames.toNat - 1 > 2 ^ s.config.addrWidth - 1 →
        exec (.process base frames rate) s =
          .next { s with replies := ⟨s.issuer, .errBuffer, none⟩ :: s.replies }))

/-- The begin step after its checks (40_chain R70), at the configuration's rates and address width (log 17); the issuer it records is the model's own (log 15). -/
def Obligations.ProcessBeginsWithASnapshot : Prop :=
  ∀ (s : State) (base frames rate : Word), s.live = true → s.busy = false →
    s.config.fsMin ≤ rate.toInt → rate.toInt ≤ s.config.fsMax → frames.toNat ≠ 0 → base.toNat % 2 = 0 →
    base.toNat + 4 * frames.toNat - 1 ≤ 2 ^ s.config.addrWidth - 1 →
    exec (.process base frames rate) s = .next { s with
      busy := true
      flight := { snap := s.params, k := coefficients s.config s.params rate.toInt, n := 0, frames := frames,
                  base := base, fs := rate, issuer := s.issuer } }

/-- The engine step of frame `n` (40_chain R72, 20_memory R41, R42), the stages in the order of 00_scope R3. -/
def Obligations.EngineFrameStep : Prop :=
  ∀ s : State, s.busy = true → s.flight.n < s.flight.frames.toNat →
    s.flight.base.toNat + 4 * s.flight.n + 3 < 2 ^ s.config.addrWidth →
    ∃ x a0 a1 a2 a3 a4 a5 a6 : Work × (F32 × F32),
      x = (s.work, (in16 (memRead16 s.mem (s.flight.base.toNat + 4 * s.flight.n)),
                    in16 (memRead16 s.mem (s.flight.base.toNat + 4 * s.flight.n + 2)))) ∧
      a0 = (if readReg s.flight.snap .distortionEnabled = 1 then distStage s.flight.k.dist x.1 x.2 else x) ∧
      a1 = (if readReg s.flight.snap .filterEnabled = 1 then filtStage s.flight.k.filt a0.1 a0.2 else a0) ∧
      a2 = (if readReg s.flight.snap .eqEnabled = 1 then eqStage s.flight.k.eq a1.1 a1.2 else a1) ∧
      a3 = (if readReg s.flight.snap .compressorEnabled = 1 then compStage s.flight.k.comp a2.1 a2.2 else a2) ∧
      a4 = (if readReg s.flight.snap .phaserEnabled = 1 then phStage s.flight.k.ph a3.1 a3.2 else a3) ∧
      a5 = (if readReg s.flight.snap .reverbEnabled = 1 then revStage s.config s.flight.k.rev a4.1 a4.2 else a4) ∧
      a6 = (if readReg s.flight.snap .delayEnabled = 1 then dlyStage s.flight.k.dly a5.1 a5.2 else a5) ∧
      engineTurn s = .next { s with
        work := a6.1
        mem := memWrite16 (memWrite16 s.mem (s.flight.base.toNat + 4 * s.flight.n) (sat16 a6.2.1))
                 (s.flight.base.toNat + 4 * s.flight.n + 2) (sat16 a6.2.2)
        flight := { s.flight with n := s.flight.n + 1 } }

/-- The memory frame of an engine step (20_memory R42), and what it wrote. -/
def Obligations.FrameWritesOnlyItsFourBytes : Prop :=
  ∀ s t : State, Memory.wf s.config s.mem → s.busy = true → s.flight.n < s.flight.frames.toNat →
    engineTurn s = .next t →
    (∀ addr, (addr < s.flight.base.toNat + 4 * s.flight.n ∨ s.flight.base.toNat + 4 * s.flight.n + 4 ≤ addr) →
      readCell t.mem addr = readCell s.mem addr) ∧
    memRead16 t.mem (s.flight.base.toNat + 4 * s.flight.n) =
      sat16 (runStages s.config s.flight.snap s.flight.k s.work
        (in16 (memRead16 s.mem (s.flight.base.toNat + 4 * s.flight.n)),
         in16 (memRead16 s.mem (s.flight.base.toNat + 4 * s.flight.n + 2)))).2.1 ∧
    memRead16 t.mem (s.flight.base.toNat + 4 * s.flight.n + 2) =
      sat16 (runStages s.config s.flight.snap s.flight.k s.work
        (in16 (memRead16 s.mem (s.flight.base.toNat + 4 * s.flight.n)),
         in16 (memRead16 s.mem (s.flight.base.toNat + 4 * s.flight.n + 2)))).2.2

/-- The end step (40_chain R75) with what the result of a run keeps of it (70_reset R202), and the idle engine (60_exceptions R190); the reply goes to the issuing agent and the buffer is kept in fields of the model's own (log 15, 25). -/
def Obligations.EndStepAndIdleEngine : Prop :=
  ∀ s : State,
    (s.busy = true → s.flight.n = s.flight.frames.toNat →
      ∃ bytes : Memory,
        engineTurn s = .next { s with
          busy := false
          replies := ⟨s.flight.issuer, .ok, none⟩ :: s.replies
          outputs := ⟨s.flight.base, s.flight.frames, bytes⟩ :: s.outputs } ∧
        ∀ addr, readCell bytes addr =
          if s.flight.base.toNat ≤ addr ∧ addr < s.flight.base.toNat + 4 * s.flight.frames.toNat
          then readCell s.mem addr else 0) ∧
    (s.busy = false → engineTurn s = .next s)

/-- With the engine's turns given and no command between them, an in-flight PROCESS ends after exactly its frame steps and the end step (40_chain R71, R75), and touches nothing outside its buffer and the working state. That the reply goes to `flight.issuer` is the model's reading (log 15). -/
def Obligations.EngineTurnsEndTheProcess : Prop :=
  ∀ (s : State) (ts : List Turn), s.fault = none → s.busy = true →
    s.flight.n ≤ s.flight.frames.toNat →
    s.flight.base.toNat + 4 * s.flight.frames.toNat ≤ 2 ^ s.config.addrWidth →
    s.turns = List.replicate (s.flight.frames.toNat - s.flight.n + 1) .engine ++ ts →
    ∃ (w : Work) (m bytes : Memory),
      Host.Core.run core (s.flight.frames.toNat - s.flight.n + 1) s = .next { s with
        work := w
        mem := m
        busy := false
        flight := { s.flight with n := s.flight.frames.toNat }
        turns := ts
        replies := ⟨s.flight.issuer, .ok, none⟩ :: s.replies
        outputs := ⟨s.flight.base, s.flight.frames, bytes⟩ :: s.outputs } ∧
      ∀ addr,
        ((addr < s.flight.base.toNat ∨ s.flight.base.toNat + 4 * s.flight.frames.toNat ≤ addr) →
          readCell m addr = readCell s.mem addr) ∧
        (s.flight.base.toNat ≤ addr → addr < s.flight.base.toNat + 4 * s.flight.frames.toNat →
          readCell bytes addr = readCell m addr)

/-- The whole-chain passthrough (40_chain R74) over a complete PROCESS, from its command words to its status and its output. -/
def Obligations.AllDisabledIsAPassthrough : Prop :=
  ∀ (s : State) (base frames rate : Word) (rest : List Word) (ts : List Turn),
    s.fault = none → s.live = true → s.busy = false → Memory.wf s.config s.mem →
    (∀ r : Reg, r.isEnable = true → readReg s.params r ≠ 1) →
    s.config.fsMin ≤ rate.toInt → rate.toInt ≤ s.config.fsMax → frames.toNat ≠ 0 → base.toNat % 2 = 0 →
    base.toNat + 4 * frames.toNat ≤ 2 ^ s.config.addrWidth →
    s.aud = [0x13000000#32, base, frames, rate] ++ rest →
    s.turns = .command .audio :: (List.replicate (frames.toNat + 1) .engine ++ ts) →
    ∃ (t : State) (bytes : Memory), Host.Core.run core (frames.toNat + 2) s = .next t ∧
      t.mem = s.mem ∧ t.work = s.work ∧ t.params = s.params ∧ t.live = true ∧ t.busy = false ∧
      t.fault = none ∧ t.aud = rest ∧ t.ctl = s.ctl ∧ t.turns = ts ∧ t.config = s.config ∧
      t.replies = ⟨.audio, .ok, none⟩ :: s.replies ∧
      t.outputs = ⟨base, frames, bytes⟩ :: s.outputs ∧
      ∀ addr, base.toNat ≤ addr → addr < base.toNat + 4 * frames.toNat →
        readCell bytes addr = readCell s.mem addr

/-- `in16(s)` is exact (00_scope R18). -/
def Obligations.SampleToFloatIsExact : Prop :=
  ∀ s : Sample, isFinite (in16 s) = true ∧ f32Value (in16 s) = (s.toInt : ℝ) / 2 ^ 15 ∧
    -1 ≤ f32Value (in16 s) ∧ f32Value (in16 s) ≤ 32767 / 32768

/-- `sat16(y)` by the real value of its operand (00_scope R19), and its round trip with `in16`. -/
def Obligations.FloatToSampleSaturates : Prop :=
  (∀ y : F32,
    (isNaN y = true → sat16 y = 0) ∧
    (y = 0x7F800000#32 → (sat16 y).toInt = 32767) ∧ (y = 0xFF800000#32 → (sat16 y).toInt = -32768) ∧
    (isFinite y = true →
      (32767 ≤ f32Value y * 32768 → (sat16 y).toInt = 32767) ∧
      (f32Value y * 32768 ≤ -32768 → (sat16 y).toInt = -32768) ∧
      (-32768 < f32Value y * 32768 → f32Value y * 32768 < 32767 →
        |((sat16 y).toInt : ℝ) - f32Value y * 32768| ≤ 1 / 2 ∧
        (|((sat16 y).toInt : ℝ) - f32Value y * 32768| = 1 / 2 → (sat16 y).toInt % 2 = 0)))) ∧
  ∀ s : Sample, sat16 (in16 s) = s

/-- `clamp01(v)` by the real value of its operand (00_scope R17). -/
def Obligations.ClampToTheUnitRange : Prop :=
  ∀ v : F32,
    (isNaN v = true → clamp01 v = 0x00000000#32) ∧
    (v = 0xFF800000#32 → clamp01 v = 0x00000000#32) ∧ (v = 0x7F800000#32 → clamp01 v = 0x3F800000#32) ∧
    (isFinite v = true →
      (f32Value v ≤ 0 → clamp01 v = 0x00000000#32) ∧
      (1 < f32Value v → clamp01 v = 0x3F800000#32) ∧
      (0 < f32Value v → f32Value v ≤ 1 → clamp01 v = v))

/-- The SET and GET commands of stage 0 (41_distortion R87 to R92), each by its next state. -/
def Obligations.DistortionSetAndGet : Prop :=
  ∀ (s : State) (data : Word), s.live = true →
    exec (.setDistortionEnabled data) s = .next { s with
      params := { s.params with distortionEnabled := if data = 0 then 0 else 1 }
      replies := ⟨s.issuer, .ok, none⟩ :: s.replies } ∧
    exec .getDistortionEnabled s = .next { s with
      replies := ⟨s.issuer, .ok, some s.params.distortionEnabled⟩ :: s.replies } ∧
    exec (.setDistortionDrive data) s = .next { s with
      params := { s.params with distortionDrive := clamp01 data }
      replies := ⟨s.issuer, .ok, none⟩ :: s.replies } ∧
    exec .getDistortionDrive s = .next { s with
      replies := ⟨s.issuer, .ok, some s.params.distortionDrive⟩ :: s.replies } ∧
    exec (.setDistortionMix data) s = .next { s with
      params := { s.params with distortionMix := clamp01 data }
      replies := ⟨s.issuer, .ok, none⟩ :: s.replies } ∧
    exec .getDistortionMix s = .next { s with
      replies := ⟨s.issuer, .ok, some s.params.distortionMix⟩ :: s.replies }

/-- The SET and GET commands of stage 1 (42_filter R98 to R103), each by its next state. -/
def Obligations.FilterSetAndGet : Prop :=
  ∀ (s : State) (data : Word), s.live = true →
    exec (.setFilterEnabled data) s = .next { s with
      params := { s.params with filterEnabled := if data = 0 then 0 else 1 }
      replies := ⟨s.issuer, .ok, none⟩ :: s.replies } ∧
    exec .getFilterEnabled s = .next { s with
      replies := ⟨s.issuer, .ok, some s.params.filterEnabled⟩ :: s.replies } ∧
    exec (.setFilterCutoff data) s = .next { s with
      params := { s.params with filterCutoff := clamp01 data }
      replies := ⟨s.issuer, .ok, none⟩ :: s.replies } ∧
    exec .getFilterCutoff s = .next { s with
      replies := ⟨s.issuer, .ok, some s.params.filterCutoff⟩ :: s.replies } ∧
    exec (.setFilterResonance data) s = .next { s with
      params := { s.params with filterResonance := clamp01 data }
      replies := ⟨s.issuer, .ok, none⟩ :: s.replies } ∧
    exec .getFilterResonance s = .next { s with
      replies := ⟨s.issuer, .ok, some s.params.filterResonance⟩ :: s.replies }

/-- The SET and GET commands of stage 2 (43_eq R110 to R117), each by its next state. -/
def Obligations.EqSetAndGet : Prop :=
  ∀ (s : State) (data : Word), s.live = true →
    exec (.setEqEnabled data) s = .next { s with
      params := { s.params with eqEnabled := if data = 0 then 0 else 1 }
      replies := ⟨s.issuer, .ok, none⟩ :: s.replies } ∧
    exec .getEqEnabled s = .next { s with
      replies := ⟨s.issuer, .ok, some s.params.eqEnabled⟩ :: s.replies } ∧
    exec (.setEqLow data) s = .next { s with
      params := { s.params with eqLow := clamp01 data }
      replies := ⟨s.issuer, .ok, none⟩ :: s.replies } ∧
    exec .getEqLow s = .next { s with
      replies := ⟨s.issuer, .ok, some s.params.eqLow⟩ :: s.replies } ∧
    exec (.setEqMid data) s = .next { s with
      params := { s.params with eqMid := clamp01 data }
      replies := ⟨s.issuer, .ok, none⟩ :: s.replies } ∧
    exec .getEqMid s = .next { s with
      replies := ⟨s.issuer, .ok, some s.params.eqMid⟩ :: s.replies } ∧
    exec (.setEqHigh data) s = .next { s with
      params := { s.params with eqHigh := clamp01 data }
      replies := ⟨s.issuer, .ok, none⟩ :: s.replies } ∧
    exec .getEqHigh s = .next { s with
      replies := ⟨s.issuer, .ok, some s.params.eqHigh⟩ :: s.replies }

/-- The SET and GET commands of stage 3 (44_compressor R123 to R134), each by its next state. -/
def Obligations.CompressorSetAndGet : Prop :=
  ∀ (s : State) (data : Word), s.live = true →
    exec (.setCompressorEnabled data) s = .next { s with
      params := { s.params with compressorEnabled := if data = 0 then 0 else 1 }
      replies := ⟨s.issuer, .ok, none⟩ :: s.replies } ∧
    exec .getCompressorEnabled s = .next { s with
      replies := ⟨s.issuer, .ok, some s.params.compressorEnabled⟩ :: s.replies } ∧
    exec (.setCompressorThreshold data) s = .next { s with
      params := { s.params with compressorThreshold := clamp01 data }
      replies := ⟨s.issuer, .ok, none⟩ :: s.replies } ∧
    exec .getCompressorThreshold s = .next { s with
      replies := ⟨s.issuer, .ok, some s.params.compressorThreshold⟩ :: s.replies } ∧
    exec (.setCompressorRatio data) s = .next { s with
      params := { s.params with compressorRatio := clamp01 data }
      replies := ⟨s.issuer, .ok, none⟩ :: s.replies } ∧
    exec .getCompressorRatio s = .next { s with
      replies := ⟨s.issuer, .ok, some s.params.compressorRatio⟩ :: s.replies } ∧
    exec (.setCompressorAttack data) s = .next { s with
      params := { s.params with compressorAttack := clamp01 data }
      replies := ⟨s.issuer, .ok, none⟩ :: s.replies } ∧
    exec .getCompressorAttack s = .next { s with
      replies := ⟨s.issuer, .ok, some s.params.compressorAttack⟩ :: s.replies } ∧
    exec (.setCompressorRelease data) s = .next { s with
      params := { s.params with compressorRelease := clamp01 data }
      replies := ⟨s.issuer, .ok, none⟩ :: s.replies } ∧
    exec .getCompressorRelease s = .next { s with
      replies := ⟨s.issuer, .ok, some s.params.compressorRelease⟩ :: s.replies } ∧
    exec (.setCompressorMakeup data) s = .next { s with
      params := { s.params with compressorMakeup := clamp01 data }
      replies := ⟨s.issuer, .ok, none⟩ :: s.replies } ∧
    exec .getCompressorMakeup s = .next { s with
      replies := ⟨s.issuer, .ok, some s.params.compressorMakeup⟩ :: s.replies }

/-- The SET and GET commands of stage 4 (45_phaser R142 to R149), each by its next state. -/
def Obligations.PhaserSetAndGet : Prop :=
  ∀ (s : State) (data : Word), s.live = true →
    exec (.setPhaserEnabled data) s = .next { s with
      params := { s.params with phaserEnabled := if data = 0 then 0 else 1 }
      replies := ⟨s.issuer, .ok, none⟩ :: s.replies } ∧
    exec .getPhaserEnabled s = .next { s with
      replies := ⟨s.issuer, .ok, some s.params.phaserEnabled⟩ :: s.replies } ∧
    exec (.setPhaserRate data) s = .next { s with
      params := { s.params with phaserRate := clamp01 data }
      replies := ⟨s.issuer, .ok, none⟩ :: s.replies } ∧
    exec .getPhaserRate s = .next { s with
      replies := ⟨s.issuer, .ok, some s.params.phaserRate⟩ :: s.replies } ∧
    exec (.setPhaserDepth data) s = .next { s with
      params := { s.params with phaserDepth := clamp01 data }
      replies := ⟨s.issuer, .ok, none⟩ :: s.replies } ∧
    exec .getPhaserDepth s = .next { s with
      replies := ⟨s.issuer, .ok, some s.params.phaserDepth⟩ :: s.replies } ∧
    exec (.setPhaserFeedback data) s = .next { s with
      params := { s.params with phaserFeedback := clamp01 data }
      replies := ⟨s.issuer, .ok, none⟩ :: s.replies } ∧
    exec .getPhaserFeedback s = .next { s with
      replies := ⟨s.issuer, .ok, some s.params.phaserFeedback⟩ :: s.replies }

/-- The SET and GET commands of stage 5 (46_reverb R156 to R163), each by its next state. -/
def Obligations.ReverbSetAndGet : Prop :=
  ∀ (s : State) (data : Word), s.live = true →
    exec (.setReverbEnabled data) s = .next { s with
      params := { s.params with reverbEnabled := if data = 0 then 0 else 1 }
      replies := ⟨s.issuer, .ok, none⟩ :: s.replies } ∧
    exec .getReverbEnabled s = .next { s with
      replies := ⟨s.issuer, .ok, some s.params.reverbEnabled⟩ :: s.replies } ∧
    exec (.setReverbRoomSize data) s = .next { s with
      params := { s.params with reverbRoomSize := clamp01 data }
      replies := ⟨s.issuer, .ok, none⟩ :: s.replies } ∧
    exec .getReverbRoomSize s = .next { s with
      replies := ⟨s.issuer, .ok, some s.params.reverbRoomSize⟩ :: s.replies } ∧
    exec (.setReverbDamping data) s = .next { s with
      params := { s.params with reverbDamping := clamp01 data }
      replies := ⟨s.issuer, .ok, none⟩ :: s.replies } ∧
    exec .getReverbDamping s = .next { s with
      replies := ⟨s.issuer, .ok, some s.params.reverbDamping⟩ :: s.replies } ∧
    exec (.setReverbMix data) s = .next { s with
      params := { s.params with reverbMix := clamp01 data }
      replies := ⟨s.issuer, .ok, none⟩ :: s.replies } ∧
    exec .getReverbMix s = .next { s with
      replies := ⟨s.issuer, .ok, some s.params.reverbMix⟩ :: s.replies }

/-- The SET and GET commands of stage 6 (47_delay R169 to R176), each by its next state. -/
def Obligations.DelaySetAndGet : Prop :=
  ∀ (s : State) (data : Word), s.live = true →
    exec (.setDelayEnabled data) s = .next { s with
      params := { s.params with delayEnabled := if data = 0 then 0 else 1 }
      replies := ⟨s.issuer, .ok, none⟩ :: s.replies } ∧
    exec .getDelayEnabled s = .next { s with
      replies := ⟨s.issuer, .ok, some s.params.delayEnabled⟩ :: s.replies } ∧
    exec (.setDelayTime data) s = .next { s with
      params := { s.params with delayTime := clamp01 data }
      replies := ⟨s.issuer, .ok, none⟩ :: s.replies } ∧
    exec .getDelayTime s = .next { s with
      replies := ⟨s.issuer, .ok, some s.params.delayTime⟩ :: s.replies } ∧
    exec (.setDelayFeedback data) s = .next { s with
      params := { s.params with delayFeedback := clamp01 data }
      replies := ⟨s.issuer, .ok, none⟩ :: s.replies } ∧
    exec .getDelayFeedback s = .next { s with
      replies := ⟨s.issuer, .ok, some s.params.delayFeedback⟩ :: s.replies } ∧
    exec (.setDelayMix data) s = .next { s with
      params := { s.params with delayMix := clamp01 data }
      replies := ⟨s.issuer, .ok, none⟩ :: s.replies } ∧
    exec .getDelayMix s = .next { s with
      replies := ⟨s.issuer, .ok, some s.params.delayMix⟩ :: s.replies }

/-- A GET returns the last value SET stored (20_memory R45), and registers do not disturb each other. -/
def Obligations.SetThenGetReadsTheStoredValue : Prop :=
  ∀ (s : State) (r : Reg) (data : Word), s.live = true →
    ∃ t, exec (setInstr r data) s = .next t ∧
      exec (getInstr r) t = .next (reply t .ok
        (some (if r.isEnable then (if data = 0 then 0 else 1) else clamp01 data))) ∧
      ∀ r', r' ≠ r → exec (getInstr r') t = .next (reply t .ok (some (readReg s.params r')))

/-- A register only ever receives a legal value (10_state R26, R27): the setter's output is in range, and is a fixed point of the setter. -/
def Obligations.StoredValuesAreLegal : Prop :=
  ∀ (r : Reg) (data : Word), legalValue r (setValue r data) ∧ setValue r (setValue r data) = setValue r data

/-- Commands issued during a PROCESS do not affect it (20_memory R44, 40_chain R76): they change parameters, replies or the mark only. -/
def Obligations.CommandsLeaveAnInFlightProcess : Prop :=
  ∀ (i : Instr) (s t : State), s.live = true → s.busy = true → exec i s = .next t →
    t.live = true ∧ t.busy = true ∧ t.flight = s.flight ∧ t.work = s.work ∧ t.mem = s.mem

/-- Every frame reads parameters only from the snapshot (20_memory R44). -/
def Obligations.EngineReadsOnlyTheSnapshot : Prop :=
  ∀ s s' t : State, engineView s s' → engineTurn s = .next t →
    ∃ t', engineTurn s' = .next t' ∧ engineView t t' ∧
      t'.params = s'.params ∧ t'.live = s'.live ∧ t'.ctl = s'.ctl ∧ t'.aud = s'.aud ∧
      t'.turns = s'.turns ∧ t'.allocDraws = s'.allocDraws ∧ t'.fault = s'.fault

/-- Every command has one of its outcomes (00_scope R10, 60_exceptions R177, R178), and an error status means nothing changed. That a fault is an outcome without a status word, beside the "exactly one status word" of R177, is the model's reading (log 12). -/
def Obligations.EveryCommandAnswersOnce : Prop :=
  ∀ (i : Instr) (s : State), ∃ t, exec i s = .next t ∧
    ((∃ status data, t.replies = ⟨s.issuer, status, data⟩ :: s.replies ∧ t.fault = s.fault ∧
        (status ≠ .ok → { t with replies := s.replies, allocDraws := s.allocDraws } = s)) ∨
     (t.replies = s.replies ∧ t.fault ≠ none ∧ { t with fault := s.fault } = s) ∨
     (s.busy = false ∧ t.busy = true ∧ { t with busy := false, flight := s.flight } = s))

/-- The codes of 60_exceptions R177. -/
def Obligations.StatusCodes : Prop :=
  statusCode .ok = 0#32 ∧ statusCode .errAlloc = 1#32 ∧ statusCode .errRate = 2#32 ∧
  statusCode .errIllegal = 3#32 ∧ statusCode .errNoChain = 4#32 ∧ statusCode .errExists = 5#32 ∧
  statusCode .errBuffer = 6#32 ∧ ∀ a b, statusCode a = statusCode b → a = b

/-- The frame of all sixty commands: host memory is reached only by the engine (20_memory R34, R42); a command neither writes it nor depends on it. -/
def Obligations.CommandsTouchNoHostMemory : Prop :=
  ∀ (i : Instr) (s t : State), exec i s = .next t →
    (∀ addr, readCell t.mem addr = readCell s.mem addr) ∧ t.mem = s.mem ∧ t.ctl = s.ctl ∧ t.aud = s.aud ∧
    t.turns = s.turns ∧ t.issuer = s.issuer ∧ t.outputs = s.outputs ∧ t.config = s.config ∧
    (t.allocDraws = s.allocDraws ∨ (i = .create ∧ t.allocDraws = s.allocDraws.tail)) ∧
    ∀ m : Memory, exec i { s with mem := m } = .next { t with mem := m }

/-- `MemRead` and `MemWrite` (20_memory R35), little-endian (R36). -/
def Obligations.HostMemoryPort : Prop :=
  ∀ (c : Config) (m : Memory) (a : Nat) (v : Sample), Memory.wf c m →
    (memRead16 m a).toNat = (readCell m a).toNat + 256 * (readCell m (a + 1)).toNat ∧
    (readCell (memWrite16 m a v) a).toNat = v.toNat % 256 ∧
    (readCell (memWrite16 m a v) (a + 1)).toNat = v.toNat / 256 ∧
    (∀ b, b ≠ a → b ≠ a + 1 → readCell (memWrite16 m a v) b = readCell m b) ∧
    memRead16 (memWrite16 m a v) a = v ∧
    (a + 1 < 2 ^ c.addrWidth → Memory.wf c (memWrite16 m a v))

/-- Host accesses to memory (60_exceptions R178, 20_memory R51), each one atomic transition (60_exceptions R180); the fault outside the address space is the model's (log 14). -/
def Obligations.HostAccessToTheBufferFaults : Prop :=
  ∀ (s : State) (addr len : Nat) (bytes : List Byte) (ts : List Turn), s.fault = none → Memory.wf s.config s.mem →
    bytes.length = len →
    (s.turns = .hostRead addr len :: ts ∨ s.turns = .hostWrite addr bytes :: ts →
      (s.busy = true ∧ (∃ a, addr ≤ a ∧ a < addr + len ∧
          s.flight.base.toNat ≤ a ∧ a < s.flight.base.toNat + 4 * s.flight.frames.toNat) →
        step s = .next { s with turns := ts, fault := some .hostBufferAccess }) ∧
      (¬ (s.busy = true ∧ ∃ a, addr ≤ a ∧ a < addr + len ∧
          s.flight.base.toNat ≤ a ∧ a < s.flight.base.toNat + 4 * s.flight.frames.toNat) →
        len ≠ 0 → 2 ^ s.config.addrWidth < addr + len → step s = .fault .outsideAddressSpace)) ∧
    (¬ (s.busy = true ∧ ∃ a, addr ≤ a ∧ a < addr + len ∧
        s.flight.base.toNat ≤ a ∧ a < s.flight.base.toNat + 4 * s.flight.frames.toNat) →
      (len = 0 ∨ addr + len ≤ 2 ^ s.config.addrWidth) →
      (s.turns = .hostRead addr len :: ts → step s = .next { s with turns := ts }) ∧
      (s.turns = .hostWrite addr bytes :: ts →
        ∃ m : Memory, step s = .next { s with turns := ts, mem := m } ∧ Memory.wf s.config m ∧
          (∀ (i : Nat) (h : i < bytes.length), readCell m (addr + i) = bytes[i]) ∧
          ∀ a, (a < addr ∨ addr + len ≤ a) → readCell m a = readCell s.mem a))

/-- The channels share only `ph.phase` and `dly.w`, and neither channel's samples affect the other's output (10_state R29). -/
def Obligations.ChannelsDoNotAffectEachOther : Prop :=
  ∀ s s' t t' : State, Memory.wf s.config s.mem → Memory.wf s'.config s'.mem →
    engineTurn s = .next t → engineTurn s' = .next t' →
    (sameLeft s s' → sameLeft t t') ∧ (sameRight s s' → sameRight t t')

/-- A disabled stage is skipped whole (40_chain R73), its state kept (10_state R28). -/
def Obligations.DisabledStagesKeepTheirState : Prop :=
  ∀ (c : Config) (snap : Params) (k : Coeffs) (w : Work) (x : F32 × F32),
    (readReg snap .distortionEnabled ≠ 1 →
      (runStages c snap k w x).1.left.dist = w.left.dist ∧ (runStages c snap k w x).1.right.dist = w.right.dist) ∧
    (readReg snap .filterEnabled ≠ 1 →
      (runStages c snap k w x).1.left.filt = w.left.filt ∧ (runStages c snap k w x).1.right.filt = w.right.filt) ∧
    (readReg snap .eqEnabled ≠ 1 →
      (runStages c snap k w x).1.left.eq = w.left.eq ∧ (runStages c snap k w x).1.right.eq = w.right.eq) ∧
    (readReg snap .compressorEnabled ≠ 1 →
      (runStages c snap k w x).1.left.comp = w.left.comp ∧ (runStages c snap k w x).1.right.comp = w.right.comp) ∧
    (readReg snap .phaserEnabled ≠ 1 →
      (runStages c snap k w x).1.left.ph = w.left.ph ∧ (runStages c snap k w x).1.right.ph = w.right.ph ∧ (runStages c snap k w x).1.phase = w.phase) ∧
    (readReg snap .reverbEnabled ≠ 1 →
      (runStages c snap k w x).1.left.rev = w.left.rev ∧ (runStages c snap k w x).1.right.rev = w.right.rev) ∧
    (readReg snap .delayEnabled ≠ 1 →
      (runStages c snap k w x).1.left.dly = w.left.dly ∧ (runStages c snap k w x).1.right.dly = w.right.dly ∧ (runStages c snap k w x).1.dlyW = w.dlyW) ∧
    ((∀ r : Reg, r.isEnable = true → readReg snap r ≠ 1) → runStages c snap k w x = (w, x))

/-- Distortion with mix = 0 (41_distortion R86); the registers still update, and a finite `post` and the reference `Coef` (log 5) are premises. -/
def Obligations.DryDistortionPassesItsInput : Prop :=
  ∀ (c : Config) (snap : Params) (fs : Int) (r : DistRegs) (x : F32), c.coefOther = [] →
    snap.distortionMix = 0x00000000#32 →
    isFinite x = true → x ≠ 0x80000000#32 →
    isFinite (distLane (distCoeffs c snap fs) r x).1.post = true →
    (distLane (distCoeffs c snap fs) r x).2 = x

/-- The filter's step and the next one (42_filter R95): the input of a step enters the output one step later. -/
def Obligations.FilterAnswersOneSampleLate : Prop :=
  ∀ (k : FiltK) (r : FiltRegs) (x y : F32),
    (filtLane k r x).2 = fadd r.lp (fmul k.fF r.bp) ∧ (filtLane k r x).2 = (filtLane k r y).2 ∧
    (filtLane k r x).1.lp = (filtLane k r x).2 ∧
    (filtLane k r x).1.bp =
      fadd r.bp (fmul k.fF (fsub (fsub x (fadd r.lp (fmul k.fF r.bp))) (fmul k.fQ r.bp))) ∧
    (filtLane k (filtLane k r x).1 y).2 =
      fadd (fadd r.lp (fmul k.fF r.bp))
        (fmul k.fF (fadd r.bp (fmul k.fF
          (fsub (fsub x (fadd r.lp (fmul k.fF r.bp))) (fmul k.fQ r.bp))))) ∧
    (isFinite k.fF = true → (filtLane k ⟨0, 0⟩ x).2 = 0x00000000#32)

/-- A band at unity gain (43_eq R108). -/
def Obligations.UnityBandPassesItsInput : Prop :=
  ∀ (k : BandK) (x : F32), k.b0 = 0x3F800000#32 → k.b1 = k.a1 → k.b2 = k.a2 →
    isFinite x = true → x ≠ 0x80000000#32 →
    isFinite (fmul k.a1 x) = true → isFinite (fmul k.a2 x) = true →
    eqBand k ⟨0, 0⟩ x = (⟨0, 0⟩, x)

/-- The compressor's gain is 1 at or below the threshold (44_compressor R120, R122). -/
def Obligations.CompressorBelowThresholdPasses : Prop :=
  ∀ (k : CompK) (r : CompRegs) (x : F32), k.cMk = 0x3F800000#32 → isFinite x = true →
    fgt (fmul fHalf (fadd (compLane k r x).1.env (fsqrt (compLane k r x).1.ms))) k.cThr = false →
    (compLane k r x).2 = x

/-- The phase wraps into [0, 1) (45_phaser R138); an increment of +0.0 leaves it. -/
def Obligations.PhaseStaysInTheUnitInterval : Prop :=
  ∀ (k : PhK) (phase : F32), phase.toNat < 0x3F800000 →
    (k.pInc.toNat < 0x3F800000 → (phAdvance k phase).toNat < 0x3F800000) ∧
    (k.pInc = 0x00000000#32 → phAdvance k phase = phase)

/-- The comb's delay is exactly `COMB_LEN[k]` steps (46_reverb R153). -/
def Obligations.CombDelaysByExactlyItsLength : Prop :=
  ∀ (k : RevK) (len : Nat) (c : Comb) (x y : F32) (xs : List F32),
    c.idx < len → Cells.wf c.buf → xs.length + 1 = len →
    (combStep k len y (combRun k len (combStep k len x c).1 xs)).2 =
      fadd x (fmul (combStep k len x c).1.filt k.rFb) ∧
    (combStep k len y (combRun k len (combStep k len x c).1 xs)).1.idx = (c.idx + 1) % len

/-- The delayed sample is the one written `off` frames ago, the input of that frame plus the feedback (47_delay R166, R167). -/
def Obligations.DelayReadsOffFramesBack : Prop :=
  ∀ (k : DlyK) (w : Work) (x y : F32 × F32) (xs : List (F32 × F32)),
    1 ≤ k.off → k.off ≤ 47999 → w.dlyW < 48000 → Cells.wf w.left.dly → Cells.wf w.right.dly →
    xs.length + 1 = k.off →
    readCell (dlyStage k w x).1.left.dly w.dlyW =
      fadd x.1 (fmul (readCell w.left.dly ((w.dlyW + 48000 - k.off) % 48000)) k.eFb) ∧
    readCell (dlyStage k w x).1.right.dly w.dlyW =
      fadd x.2 (fmul (readCell w.right.dly ((w.dlyW + 48000 - k.off) % 48000)) k.eFb) ∧
    (dlyStage k (delayRun k (dlyStage k w x).1 xs) y).2 =
      (fadd (fmul y.1 k.eDry)
        (fmul (fadd x.1 (fmul (readCell w.left.dly ((w.dlyW + 48000 - k.off) % 48000)) k.eFb)) k.eWet),
       fadd (fmul y.2 k.eDry)
        (fmul (fadd x.2 (fmul (readCell w.right.dly ((w.dlyW + 48000 - k.off) % 48000)) k.eFb)) k.eWet)) ∧
    (dlyStage k (delayRun k (dlyStage k w x).1 xs) y).1.dlyW = (w.dlyW + k.off + 1) % 48000

/-- The offset `off` (47_delay R165). -/
def Obligations.DelayOffsetIsClampedFrames : Prop :=
  ∀ (time : F32) (fs : Int), time.toNat ≤ 0x3F800000 → 1 ≤ fs → fs ≤ 16777216 →
    f32Value (ofInt fs) = (fs : ℝ) ∧
    IsNearestEven (f32Value time * (fs : ℝ)) (fmul time (ofInt fs)) ∧
    (delayOffset time fs : Int) = min (max ⌊f32Value (fmul time (ofInt fs))⌋ 1) 47999

/-- Binary32 `+`, `-` and `*` are correctly rounded (00_scope R14). -/
def Obligations.AddSubtractMultiplyRoundOnce : Prop :=
  ∀ a b : F32, isFinite a = true → isFinite b = true →
    RoundsTo (f32Value a + f32Value b) (fadd a b) ∧
    RoundsTo (f32Value a - f32Value b) (fsub a b) ∧
    RoundsTo (f32Value a * f32Value b) (fmul a b)

/-- Binary32 `/` and `sqrt` are correctly rounded (00_scope R14). -/
def Obligations.DivideAndRootRoundOnce : Prop :=
  (∀ a b : F32, isFinite a = true → isFinite b = true → f32Value b ≠ 0 →
    RoundsTo (f32Value a / f32Value b) (fdiv a b)) ∧
  ∀ a : F32, isFinite a = true → 0 ≤ f32Value a → RoundsTo (Real.sqrt (f32Value a)) (fsqrt a)

/-- Ordered comparison, `abs` and `floor` (00_scope R14). -/
def Obligations.CompareAbsFloorAreExact : Prop :=
  (∀ a b : F32, (isNaN a = true ∨ isNaN b = true → fgt a b = false) ∧
    (isFinite a = true → isFinite b = true → (fgt a b = true ↔ f32Value b < f32Value a))) ∧
  ∀ a : F32, isFinite a = true →
    isFinite (fabs a) = true ∧ f32Value (fabs a) = |f32Value a| ∧ fsign (fabs a) = false ∧
    isFinite (ffloor a) = true ∧ f32Value (ffloor a) = (⌊f32Value a⌋ : ℝ)

/-- `Coef(e)` is the real value rounded once (00_scope R15), wherever one of the precisions tried decides it, or the value the configuration lists (log 5, 6, 24). -/
def Obligations.CoefficientsAreCorrectlyRounded : Prop :=
  ∀ (c : Config) (e : RealExpr),
    (c.coefOther.lookup e = none →
      ((coefAt 96 e).isSome = true ∨ (coefAt 192 e).isSome = true ∨ (coefAt 384 e).isSome = true) →
      RoundsTo (exprValue e) (coef c e)) ∧
    ∀ v : F32, c.coefOther.lookup e = some v → coef c e = v

/-- The phaser's step written out from 45_phaser R137 to R140, every register it writes. -/
def Obligations.PhaserComputesItsStep : Prop :=
  ∀ (k : PhK) (w : Work) (x : F32 × F32),
    ∃ t fc wc c p uL vL0 vL1 vL2 vL3 uR vR0 vR1 vR2 vR3 : F32,
      t = fabs (fsub (fmul 0x40000000#32 w.phase) 0x3F800000#32) ∧
      fc = fadd 0x43480000#32 (fmul 0x44E10000#32 (fmul k.pDepth t)) ∧
      wc = fmul fc k.pW ∧
      c = fdiv (fsub wc 0x3F800000#32) (fadd wc 0x3F800000#32) ∧
      p = fadd w.phase k.pInc ∧
      uL = fadd x.1 (fmul k.pFb w.left.ph.fb) ∧
      vL0 = fadd (fmul c uL) w.left.ph.s0 ∧ vL1 = fadd (fmul c vL0) w.left.ph.s1 ∧
      vL2 = fadd (fmul c vL1) w.left.ph.s2 ∧ vL3 = fadd (fmul c vL2) w.left.ph.s3 ∧
      uR = fadd x.2 (fmul k.pFb w.right.ph.fb) ∧
      vR0 = fadd (fmul c uR) w.right.ph.s0 ∧ vR1 = fadd (fmul c vR0) w.right.ph.s1 ∧
      vR2 = fadd (fmul c vR1) w.right.ph.s2 ∧ vR3 = fadd (fmul c vR2) w.right.ph.s3 ∧
      phStage k w x =
        ({ w with
            left := { w.left with ph := {
              s0 := fsub uL (fmul c vL0), s1 := fsub vL0 (fmul c vL1),
              s2 := fsub vL1 (fmul c vL2), s3 := fsub vL2 (fmul c vL3), fb := vL3 } }
            right := { w.right with ph := {
              s0 := fsub uR (fmul c vR0), s1 := fsub vR0 (fmul c vR1),
              s2 := fsub vR1 (fmul c vR2), s3 := fsub vR2 (fmul c vR3), fb := vR3 } }
            phase := fsub p (ffloor p) },
         (fadd (fmul 0x3F000000#32 x.1) (fmul 0x3F000000#32 vL3),
          fadd (fmul 0x3F000000#32 x.2) (fmul 0x3F000000#32 vR3)))

/-- The parameters of 00_scope R11, held by the state and fixed (log 5, 17). -/
def Obligations.NoStepChangesTheConfiguration : Prop :=
  State.reset.config = {
    fsMin := 8000, fsMax := 192000, combLen0 := 1117, combLen1 := 1187, combLen2 := 1277, combLen3 := 1361,
    combLen4 := 1423, combLen5 := 1489, combLen6 := 1559, combLen7 := 1619, addrWidth := 32, coefOther := [] } ∧
  ∀ s t : State, step s = .next t → t.config = s.config

/-- The end and the result of a run (70_reset R202); replies and outputs stand in the model's own fields (log 10, 25). -/
def Obligations.ResultOfARun : Prop :=
  ∀ s : State,
    (s.result.isSome = true ↔
      s.busy = false ∧ s.fault = none ∧ decode s.ctl = .incomplete ∧ decode s.aud = .incomplete) ∧
    (∀ r, s.result = some r → r.replies.reverse = s.replies ∧ r.outputs.reverse = s.outputs ∧
      r.live = s.live ∧ r.params = s.params ∧ r.work = s.work) ∧
    ∀ t, step s = .next t →
      (t.replies = s.replies ∨ ∃ x, t.replies = x :: s.replies) ∧
      (t.outputs = s.outputs ∨
        (s.busy = true ∧ t.busy = false ∧
          t.outputs = ⟨s.flight.base, s.flight.frames, bufferBytes s⟩ :: s.outputs))
end

