-- ==== Sys2Proof/Laws/Cells.lean ====
section
/-! SUPPORT. The laws of sparse memories: read after write, what a write leaves alone, and that a write keeps the canonical form and the bound on listed indexes; and the same for the 16-bit accesses of host memory. -/

namespace Sys2Proof.Machine

variable {w : Nat}

@[simp] theorem readCell_nil (a : Nat) : readCell ([] : Cells w) a = 0 := rfl

theorem readCell_cons (k : Nat) (v : BitVec w) (cs : Cells w) (a : Nat) :
    readCell ((k, v) :: cs) a = if a = k then v else readCell cs a := rfl

/-- An index no entry lists reads as 0. -/
theorem readCell_of_unlisted {m : Cells w} {a : Nat} (h : ∀ x ∈ m, x.1 ≠ a) : readCell m a = 0 := by
  induction m with
  | nil => rfl
  | cons x cs ih =>
    obtain ⟨k, v⟩ := x
    rw [readCell_cons, if_neg (fun e => h (k, v) (by simp) e.symm)]
    exact ih fun y hy => h y (by simp [hy])

theorem readCell_consCell_self {a : Nat} {v : BitVec w} {cs : Cells w} (h : ∀ x ∈ cs, x.1 ≠ a) :
    readCell (consCell a v cs) a = v := by
  unfold consCell
  split
  · next hv => rw [readCell_of_unlisted h, hv]
  · simp [readCell_cons]

theorem readCell_consCell_of_ne {a b : Nat} {v : BitVec w} {cs : Cells w} (h : b ≠ a) :
    readCell (consCell a v cs) b = readCell cs b := by
  unfold consCell
  split
  · rfl
  · simp [readCell_cons, h]

/-- A write leaves every other index alone. -/
theorem readCell_writeCell_of_ne {a b : Nat} (v : BitVec w) (m : Cells w) (h : b ≠ a) :
    readCell (writeCell m a v) b = readCell m b := by
  induction m with
  | nil => simp [writeCell, readCell_consCell_of_ne h]
  | cons x cs ih =>
    obtain ⟨k, u⟩ := x
    unfold writeCell
    split
    · exact readCell_consCell_of_ne h
    · split
      · next hk => rw [readCell_consCell_of_ne h, readCell_cons, if_neg (by omega)]
      · rw [readCell_cons, readCell_cons, ih]

theorem Cells.wf_cons {x : Nat × BitVec w} {cs : Cells w} :
    Cells.wf (x :: cs) ↔ (∀ y ∈ cs, x.1 < y.1) ∧ x.2 ≠ 0 ∧ Cells.wf cs := by
  simp only [Cells.wf, List.pairwise_cons, List.mem_cons, forall_eq_or_imp]
  tauto

/-- A read after a write to the same index gives the value written. -/
theorem readCell_writeCell_self {m : Cells w} (hm : Cells.wf m) (a : Nat) (v : BitVec w) :
    readCell (writeCell m a v) a = v := by
  induction m with
  | nil => exact readCell_consCell_self (by simp)
  | cons x cs ih =>
    obtain ⟨k, u⟩ := x
    obtain ⟨hlt, hu, hcs⟩ := Cells.wf_cons.1 hm
    unfold writeCell
    split
    · next h =>
      refine readCell_consCell_self fun y hy => ?_
      rcases List.mem_cons.1 hy with rfl | hy
      · exact Nat.ne_of_gt h
      · have := hlt y hy
        simp only at this
        omega
    · split
      · next h1 h2 => exact readCell_consCell_self fun y hy => by have := hlt y hy; simp only at this; omega
      · next h1 h2 => rw [readCell_cons, if_neg h2]; exact ih hcs

theorem mem_consCell {a : Nat} {v : BitVec w} {cs : Cells w} {x : Nat × BitVec w} (h : x ∈ consCell a v cs) :
    x = (a, v) ∨ x ∈ cs := by
  unfold consCell at h
  split at h
  · exact .inr h
  · simpa using h

/-- Every entry after a write is the one written or an old one. -/
theorem mem_writeCell {m : Cells w} {a : Nat} {v : BitVec w} {x : Nat × BitVec w} (h : x ∈ writeCell m a v) :
    x = (a, v) ∨ x ∈ m := by
  induction m with
  | nil => exact mem_consCell h
  | cons y cs ih =>
    obtain ⟨k, u⟩ := y
    unfold writeCell at h
    split at h
    · exact mem_consCell h
    · split at h
      · rcases mem_consCell h with h | h
        · exact .inl h
        · exact .inr (by simp [h])
      · rcases List.mem_cons.1 h with h | h
        · exact .inr (by simp [h])
        · rcases ih h with h | h
          · exact .inl h
          · exact .inr (by simp [h])

theorem wf_consCell {a : Nat} {v : BitVec w} {cs : Cells w} (h : ∀ y ∈ cs, a < y.1) (hcs : Cells.wf cs) :
    Cells.wf (consCell a v cs) := by
  unfold consCell
  split
  · exact hcs
  · next hv => exact Cells.wf_cons.2 ⟨h, hv, hcs⟩

/-- A write keeps the canonical form. -/
theorem wf_writeCell {m : Cells w} (hm : Cells.wf m) (a : Nat) (v : BitVec w) : Cells.wf (writeCell m a v) := by
  induction m with
  | nil => exact wf_consCell (by simp) hm
  | cons x cs ih =>
    obtain ⟨k, u⟩ := x
    obtain ⟨hlt, hu, hcs⟩ := Cells.wf_cons.1 hm
    simp only at hlt hu
    unfold writeCell
    split
    · next h =>
      refine wf_consCell (fun y hy => ?_) hm
      rcases List.mem_cons.1 hy with rfl | hy
      · exact h
      · exact Nat.lt_trans h (hlt y hy)
    · split
      · next h1 h2 => subst h2; exact wf_consCell hlt hcs
      · next h1 h2 =>
        refine Cells.wf_cons.2 ⟨fun y hy => ?_, hu, ih hcs⟩
        rcases mem_writeCell hy with rfl | hy
        · simp only; omega
        · exact hlt y hy

/-- A write below a bound keeps the bound. -/
theorem below_writeCell {m : Cells w} {n a : Nat} (hm : Cells.below n m) (ha : a < n) (v : BitVec w) :
    Cells.below n (writeCell m a v) := by
  intro x hx
  rcases mem_writeCell hx with rfl | hx
  · exact ha
  · exact hm x hx

theorem wf_nil : Cells.wf ([] : Cells w) := by simp [Cells.wf]

theorem below_nil (n : Nat) : Cells.below n ([] : Cells w) := by simp [Cells.below]

theorem Memory.wf_nil (c : Config) : Memory.wf c [] := ⟨Machine.wf_nil, below_nil _⟩

/-- Host memory at power-up is canonical. -/
theorem Memory.wf_reset : Memory.wf State.reset.config State.reset.mem := Memory.wf_nil _

theorem Memory.wf_writeCell {c : Config} {m : Memory} (hm : Memory.wf c m) {a : Nat} (ha : a < c.addressSpace) (v : Byte) :
    Memory.wf c (writeCell m a v) :=
  ⟨Machine.wf_writeCell hm.1 a v, below_writeCell hm.2 ha v⟩

/-- A 16-bit write keeps host memory canonical. -/
theorem Memory.wf_memWrite16 {c : Config} {m : Memory} (hm : Memory.wf c m) {a : Nat} (ha : a + 1 < c.addressSpace)
    (v : Sample) : Memory.wf c (memWrite16 m a v) :=
  Memory.wf_writeCell (Memory.wf_writeCell hm (by omega) _) ha _

/-- Bytes written inside the address space keep host memory canonical. -/
theorem Memory.wf_writeBytes {c : Config} : ∀ (vs : List Byte) {m : Memory} {a : Nat}, Memory.wf c m →
    (vs = [] ∨ a + vs.length ≤ c.addressSpace) → Memory.wf c (writeBytes m a vs)
  | [], _, _, hm, _ => hm
  | v :: vs, m, a, hm, h => by
    have h' : a + (vs.length + 1) ≤ c.addressSpace := by simpa using h
    exact Memory.wf_writeBytes vs (Memory.wf_writeCell hm (by omega) v) (.inr (by omega))

/-- Bytes written leave every other byte alone. -/
theorem readCell_writeBytes_of_not_mem {b : Nat} : ∀ (vs : List Byte) (m : Memory) (a : Nat),
    (b < a ∨ a + vs.length ≤ b) → readCell (writeBytes m a vs) b = readCell m b
  | [], _, _, _ => rfl
  | v :: vs, m, a, h => by
    simp only [List.length_cons] at h
    exact (readCell_writeBytes_of_not_mem vs (writeCell m a v) (a + 1) (by omega)).trans
      (readCell_writeCell_of_ne _ _ (by omega))

/-- Bytes written read back. -/
theorem readCell_writeBytes_self : ∀ (vs : List Byte) {m : Memory} {a i : Nat}, Cells.wf m → (h : i < vs.length) →
    readCell (writeBytes m a vs) (a + i) = vs[i]
  | v :: vs, m, a, 0, hm, _ =>
    (readCell_writeBytes_of_not_mem vs _ (a + 1) (by omega)).trans (readCell_writeCell_self hm a v)
  | v :: vs, m, a, i + 1, hm, h => by
    have := readCell_writeBytes_self vs (a := a + 1) (Machine.wf_writeCell hm a v) (Nat.lt_of_succ_lt_succ h)
    simpa [writeBytes, Nat.add_assoc, Nat.add_comm 1 i] using this

/-- A 16-bit write leaves every byte but its two alone. -/
theorem readCell_memWrite16_of_ne {a b : Nat} (m : Memory) (v : Sample) (h0 : b ≠ a) (h1 : b ≠ a + 1) :
    readCell (memWrite16 m a v) b = readCell m b := by
  unfold memWrite16
  rw [readCell_writeCell_of_ne _ _ h1, readCell_writeCell_of_ne _ _ h0]

theorem readCell_memWrite16_low {m : Memory} (hm : Cells.wf m) (a : Nat) (v : Sample) :
    readCell (memWrite16 m a v) a = v.extractLsb' 0 8 := by
  unfold memWrite16
  rw [readCell_writeCell_of_ne _ _ (by omega), readCell_writeCell_self hm]

theorem readCell_memWrite16_high {m : Memory} (hm : Cells.wf m) (a : Nat) (v : Sample) :
    readCell (memWrite16 m a v) (a + 1) = v.extractLsb' 8 8 := by
  unfold memWrite16
  rw [readCell_writeCell_self (Machine.wf_writeCell hm _ _)]

/-- The two bytes of a sample, put together again. -/
theorem sample_bytes (v : Sample) : (v.extractLsb' 8 8 ++ v.extractLsb' 0 8 : Sample) = v := by
  ext i hi
  simp only [BitVec.getElem_append, BitVec.getElem_extractLsb']
  split
  · simp [BitVec.getLsbD_eq_getElem hi]
  · next h => simp [show 8 + (i - 8) = i by omega, BitVec.getLsbD_eq_getElem hi]

end Sys2Proof.Machine
end

