-- ==== Sys2Proof/Laws/Rounding.lean ====
section
/-! SUPPORT. Rounding is right: the binary32 that `roundDyadic` answers is the nearest one to the real number it stands for, ties to even; and the same through the sticky bit of a quotient or a root. -/

namespace Sys2Proof.Machine

/-- The real value of the 31 bits below the sign. -/
noncomputable def magValue (b : Nat) : ℝ :=
  if b < 2 ^ 23 then (b : ℝ) * (2 : ℝ) ^ (-149 : ℤ)
  else ((2 ^ 23 + b % 2 ^ 23 : Nat) : ℝ) * (2 : ℝ) ^ ((b / 2 ^ 23 : Nat) - 150 : ℤ)

theorem packBits_toNat (neg : Bool) {b : Nat} (hb : b < 2 ^ 31) :
    (packBits neg b).toNat = b + if neg then 2 ^ 31 else 0 := by
  unfold packBits
  rw [BitVec.toNat_ofNat]
  cases neg <;> simp <;> omega

theorem fsign_packBits (neg : Bool) {b : Nat} (hb : b < 2 ^ 31) : fsign (packBits neg b) = neg := by
  unfold fsign
  have h := packBits_toNat neg hb
  rw [BitVec.getLsbD, h]
  cases neg
  · simp [Nat.testBit_lt_two_pow hb]
  · simp only [if_true]
    rw [Nat.add_comm, Nat.testBit_two_pow_add_eq]
    simp [Nat.testBit_lt_two_pow hb]

theorem fexp_packBits (neg : Bool) {b : Nat} (hb : b < 2 ^ 31) : fexp (packBits neg b) = b / 2 ^ 23 := by
  unfold fexp
  rw [packBits_toNat neg hb]
  cases neg <;> simp <;> omega

theorem ffrac_packBits (neg : Bool) {b : Nat} (hb : b < 2 ^ 31) : ffrac (packBits neg b) = b % 2 ^ 23 := by
  unfold ffrac
  rw [packBits_toNat neg hb]
  cases neg
  · simp
  · simp; omega

/-- Every bit pattern is a sign and 31 bits. -/
theorem exists_packBits (x : F32) : ∃ neg b, b < 2 ^ 31 ∧ x = packBits neg b := by
  by_cases h : x.toNat < 2 ^ 31
  · refine ⟨false, x.toNat, h, ?_⟩
    apply BitVec.eq_of_toNat_eq
    rw [packBits_toNat _ h]
    simp
  · have hx := x.isLt
    have hb : x.toNat - 2 ^ 31 < 2 ^ 31 := by omega
    refine ⟨true, x.toNat - 2 ^ 31, hb, ?_⟩
    apply BitVec.eq_of_toNat_eq
    rw [packBits_toNat _ hb]
    simp
    omega

theorem isFinite_packBits (neg : Bool) {b : Nat} (hb : b < 2 ^ 31) :
    isFinite (packBits neg b) = true ↔ b < 0x7F800000 := by
  unfold isFinite
  rw [fexp_packBits neg hb]
  simp only [bne_iff_ne, ne_eq]
  omega

/-- A sign as a real factor. -/
noncomputable def signValue (neg : Bool) : ℝ := if neg then -1 else 1

theorem f32Value_packBits (neg : Bool) {b : Nat} (hb : b < 0x7F800000) :
    f32Value (packBits neg b) = signValue neg * magValue b := by
  have hb' : b < 2 ^ 31 := by omega
  unfold f32Value unpack magValue signValue
  rw [fexp_packBits neg hb', ffrac_packBits neg hb', fsign_packBits neg hb']
  rw [if_neg (by omega)]
  by_cases h : b < 2 ^ 23
  · rw [if_pos (by omega), if_pos h]
    rw [Nat.mod_eq_of_lt h]
    simp only [mul_assoc]
  · rw [if_neg (by omega), if_neg h]
    simp only [mul_assoc]

theorem magValue_nonneg (b : Nat) : 0 ≤ magValue b := by
  unfold magValue
  split <;> positivity

theorem abs_signValue_mul (neg : Bool) (a b : ℝ) : |signValue neg * a - signValue neg * b| = |a - b| := by
  unfold signValue
  cases neg
  · simp
  · simp only [if_true, neg_mul, one_mul]
    rw [show -a - -b = -(a - b) by ring, abs_neg]

theorem zpow2_pos (e : ℤ) : (0 : ℝ) < (2 : ℝ) ^ e := by positivity

theorem zpow2_le {a b : ℤ} (h : a ≤ b) : (2 : ℝ) ^ a ≤ (2 : ℝ) ^ b := zpow_le_zpow_right₀ (by norm_num) h

/-- The value of the bits that rounding packs: significand `s` at last place `q`. -/
theorem magValue_pack {q : ℤ} {s : Nat} (hq : -149 ≤ q) (hs : s ≤ 2 ^ 24) (hlow : q = -149 ∨ 2 ^ 23 ≤ s) :
    magValue ((q + 149).toNat * 2 ^ 23 + s) = (s : ℝ) * (2 : ℝ) ^ q := by
  obtain ⟨j, rfl⟩ : ∃ j : Nat, q = (j : ℤ) - 149 := ⟨(q + 149).toNat, by omega⟩
  have hj : ((j : ℤ) - 149 + 149).toNat = j := by omega
  rw [hj]
  unfold magValue
  rcases Nat.lt_or_ge s (2 ^ 23) with h | h
  · have hj0 : j = 0 := by omega
    subst hj0
    rw [if_pos (by omega)]
    simp
  · rw [if_neg (by omega)]
    rcases Nat.lt_or_ge s (2 ^ 24) with h2 | h2
    · have e1 : (j * 2 ^ 23 + s) % 2 ^ 23 = s - 2 ^ 23 := by omega
      have e2 : (j * 2 ^ 23 + s) / 2 ^ 23 = j + 1 := by omega
      rw [e1, e2, show 2 ^ 23 + (s - 2 ^ 23) = s by omega]
      congr 2
      push_cast
      ring
    · have hs24 : s = 2 ^ 24 := by omega
      subst hs24
      have e1 : (j * 2 ^ 23 + 2 ^ 24) % 2 ^ 23 = 0 := by omega
      have e2 : (j * 2 ^ 23 + 2 ^ 24) / 2 ^ 23 = j + 2 := by omega
      rw [e1, e2, show (((j + 2 : Nat) : ℤ) - 150) = ((j : ℤ) - 149) + 1 by push_cast; ring,
        zpow_add₀ (by norm_num : (2 : ℝ) ≠ 0)]
      push_cast
      ring

/-- A finite magnitude is a whole number of last places `q`, if it is at least `2^(q+23)` or `q` is the least last place. -/
theorem magValue_grid {b : Nat} {q : ℤ} (hq : -149 ≤ q)
    (h : q = -149 ∨ (2 : ℝ) ^ (q + 23) ≤ magValue b) : ∃ j : Nat, magValue b = (j : ℝ) * (2 : ℝ) ^ q := by
  unfold magValue at h ⊢
  split at h
  · next hb =>
    rw [if_pos hb]
    rcases h with rfl | h
    · exact ⟨b, rfl⟩
    · exfalso
      have h1 : (b : ℝ) * (2 : ℝ) ^ (-149 : ℤ) < (2 : ℝ) ^ (23 : ℤ) * (2 : ℝ) ^ (-149 : ℤ) := by
        have : (b : ℝ) < (2 : ℝ) ^ (23 : ℤ) := by
          have : (b : ℝ) < ((2 ^ 23 : Nat) : ℝ) := by exact_mod_cast hb
          norm_num at this ⊢
          exact this
        exact mul_lt_mul_of_pos_right this (zpow2_pos _)
      rw [← zpow_add₀ (by norm_num : (2 : ℝ) ≠ 0)] at h1
      have h2 : (2 : ℝ) ^ ((23 : ℤ) + -149) ≤ (2 : ℝ) ^ (q + 23) := zpow2_le (by omega)
      linarith
  · next hb =>
    rw [if_neg hb]
    have hle : q ≤ ((b / 2 ^ 23 : Nat) : ℤ) - 150 := by
      rcases h with rfl | h
      · have : 1 ≤ b / 2 ^ 23 := by omega
        omega
      · by_contra hc
        have hs : ((2 ^ 23 + b % 2 ^ 23 : Nat) : ℝ) < (2 : ℝ) ^ (24 : ℤ) := by
          have h0 : 2 ^ 23 + b % 2 ^ 23 < 2 ^ 24 := by omega
          have : ((2 ^ 23 + b % 2 ^ 23 : Nat) : ℝ) < ((2 ^ 24 : Nat) : ℝ) := by exact_mod_cast h0
          norm_num at this ⊢
          exact this
        have h1 := mul_lt_mul_of_pos_right hs (zpow2_pos (((b / 2 ^ 23 : Nat) : ℤ) - 150))
        rw [← zpow_add₀ (by norm_num : (2 : ℝ) ≠ 0)] at h1
        have h2 : (2 : ℝ) ^ ((24 : ℤ) + (((b / 2 ^ 23 : Nat) : ℤ) - 150)) ≤ (2 : ℝ) ^ (q + 23) :=
          zpow2_le (by omega)
        linarith
    refine ⟨(2 ^ 23 + b % 2 ^ 23) * 2 ^ (((b / 2 ^ 23 : Nat) : ℤ) - 150 - q).toNat, ?_⟩
    have hsplit : (2 : ℝ) ^ (((b / 2 ^ 23 : Nat) : ℤ) - 150) =
        (2 : ℝ) ^ (((b / 2 ^ 23 : Nat) : ℤ) - 150 - q).toNat * (2 : ℝ) ^ q := by
      rw [← zpow_natCast, ← zpow_add₀ (by norm_num : (2 : ℝ) ≠ 0)]
      congr 1
      omega
    rw [hsplit]
    push_cast
    ring

/-- The nearest binary32 to a real in a binade, from the nearest whole number of last places. -/
theorem nearest_of_places {neg : Bool} {r : ℝ} {q : ℤ} {s : Nat} (hq : -149 ≤ q)
    (hlow : q = -149 ∨ (2 : ℝ) ^ (q + 23) ≤ r) (hs : s ≤ 2 ^ 24) (hslow : q = -149 ∨ 2 ^ 23 ≤ s)
    (hnear : |(s : ℝ) - r / (2 : ℝ) ^ q| ≤ 1 / 2)
    (heven : |(s : ℝ) - r / (2 : ℝ) ^ q| = 1 / 2 → s % 2 = 0)
    (hfin : (q + 149).toNat * 2 ^ 23 + s < 0x7F800000) :
    IsNearestEven (signValue neg * r) (packBits neg ((q + 149).toNat * 2 ^ 23 + s)) := by
  have hb31 : (q + 149).toNat * 2 ^ 23 + s < 2 ^ 31 := by omega
  have hP := zpow2_pos q
  have hv : f32Value (packBits neg ((q + 149).toNat * 2 ^ 23 + s)) = signValue neg * ((s : ℝ) * (2 : ℝ) ^ q) := by
    rw [f32Value_packBits neg hfin, magValue_pack hq hs hslow]
  -- distances in last places
  have hdist : |(s : ℝ) * (2 : ℝ) ^ q - r| = |(s : ℝ) - r / (2 : ℝ) ^ q| * (2 : ℝ) ^ q := by
    rw [← abs_of_pos hP, ← abs_mul, abs_of_pos hP]
    congr 1
    field_simp
  have hdv : |f32Value (packBits neg ((q + 149).toNat * 2 ^ 23 + s)) - signValue neg * r| =
      |(s : ℝ) - r / (2 : ℝ) ^ q| * (2 : ℝ) ^ q := by
    rw [hv, abs_signValue_mul, hdist]
  refine ⟨(isFinite_packBits neg hb31).2 hfin, fun w hw => ?_⟩
  obtain ⟨nw, b, hb, rfl⟩ := exists_packBits w
  have hbf := (isFinite_packBits nw hb).1 hw
  rw [hdv, f32Value_packBits nw hbf]
  -- the signed magnitude of w, seen from the sign of r
  obtain ⟨x, hx, hxb⟩ : ∃ x : ℝ, signValue nw * magValue b = signValue neg * x ∧
      (x = magValue b ∨ x = -magValue b) := by
    cases nw <;> cases neg <;> simp [signValue]
    · exact ⟨-magValue b, by ring, .inr rfl⟩
  rw [hx, abs_signValue_mul, hv]
  by_cases hgrid : ∃ j : ℤ, x = (j : ℝ) * (2 : ℝ) ^ q
  · obtain ⟨j, rfl⟩ := hgrid
    have hdw : |(j : ℝ) * (2 : ℝ) ^ q - r| = |(j : ℝ) - r / (2 : ℝ) ^ q| * (2 : ℝ) ^ q := by
      rw [← abs_of_pos hP, ← abs_mul, abs_of_pos hP]
      congr 1
      field_simp
    rw [hdw]
    set y := r / (2 : ℝ) ^ q with hy
    have key : |(s : ℝ) - y| ≤ |(j : ℝ) - y| ∧ (|(s : ℝ) - y| = |(j : ℝ) - y| → (j : ℝ) ≠ s → s % 2 = 0) := by
      by_cases hjs : (j : ℝ) = s
      · rw [hjs]
        exact ⟨le_rfl, fun _ h => absurd rfl h⟩
      · have hne : j ≠ (s : ℤ) := fun h => hjs (by rw [h]; simp)
        have h1 : (1 : ℝ) ≤ |(j : ℝ) - s| := by
          have h0 : (1 : ℤ) ≤ |j - s| := Int.one_le_abs (sub_ne_zero.2 hne)
          have : ((1 : ℤ) : ℝ) ≤ ((|j - s| : ℤ) : ℝ) := by exact_mod_cast h0
          simpa using this
        have h2 : |(j : ℝ) - s| ≤ |(j : ℝ) - y| + |(s : ℝ) - y| := by
          have := abs_sub_abs_le_abs_sub ((j : ℝ) - y) ((s : ℝ) - y)
          calc |(j : ℝ) - s| = |((j : ℝ) - y) - ((s : ℝ) - y)| := by ring_nf
            _ ≤ |(j : ℝ) - y| + |(s : ℝ) - y| := abs_sub _ _
        refine ⟨by linarith, fun he _ => heven ?_⟩
        linarith
    refine ⟨mul_le_mul_of_nonneg_right key.1 hP.le, fun he hne => ?_⟩
    have he' : |(s : ℝ) - y| = |(j : ℝ) - y| := mul_right_cancel₀ hP.ne' he
    have hs2 : s % 2 = 0 := key.2 he' (fun h => hne (by rw [h]))
    rw [packBits_toNat neg hb31]
    cases neg <;> simp <;> omega
  · -- off the grid: below the binade, where the binade's lower end is nearer
    have hq23 : q ≠ -149 ∧ magValue b < (2 : ℝ) ^ (q + 23) := by
      constructor
      · intro h
        obtain ⟨j, hj⟩ := magValue_grid (b := b) hq (.inl h)
        rcases hxb with h' | h'
        · exact hgrid ⟨j, by rw [h', hj]; simp⟩
        · exact hgrid ⟨-j, by rw [h', hj]; push_cast; ring⟩
      · by_contra h
        obtain ⟨j, hj⟩ := magValue_grid (b := b) hq (.inr (not_lt.1 h))
        rcases hxb with h' | h'
        · exact hgrid ⟨j, by rw [h', hj]; simp⟩
        · exact hgrid ⟨-j, by rw [h', hj]; push_cast; ring⟩
    have hlow' : (2 : ℝ) ^ (q + 23) ≤ r := hlow.resolve_left hq23.1
    have hxlt : x < (2 : ℝ) ^ (q + 23) := by
      have := magValue_nonneg b
      rcases hxb with h' | h' <;> rw [h'] <;> linarith [hq23.2, zpow2_pos (q + 23)]
    have hend : (2 : ℝ) ^ (q + 23) = ((2 ^ 23 : ℤ) : ℝ) * (2 : ℝ) ^ q := by
      rw [zpow_add₀ (by norm_num : (2 : ℝ) ≠ 0)]
      norm_num
      ring
    have hstrict : |(s : ℝ) - r / (2 : ℝ) ^ q| * (2 : ℝ) ^ q < |x - r| := by
      have h1 : |x - r| = r - x := by rw [abs_sub_comm]; exact abs_of_nonneg (by linarith)
      rw [h1]
      have hA : (2 : ℝ) ^ 23 ≤ r / (2 : ℝ) ^ q := by
        rw [le_div_iff₀ hP]
        have : ((2 ^ 23 : ℤ) : ℝ) = (2 : ℝ) ^ 23 := by norm_num
        rw [← this, ← hend]; exact hlow'
      have h2 : |(s : ℝ) - r / (2 : ℝ) ^ q| ≤ r / (2 : ℝ) ^ q - (2 : ℝ) ^ 23 := by
        have hs23 : (2 : ℝ) ^ 23 ≤ s := by
          have := hslow.resolve_left hq23.1
          exact_mod_cast this
        rcases le_total (s : ℝ) (r / (2 : ℝ) ^ q) with h | h
        · rw [abs_of_nonpos (by linarith)]; linarith
        · rw [abs_of_nonneg (by linarith)] at hnear ⊢
          -- s is within 1/2 above r, so r is not below s - 1/2, and 2^23 ≤ s - 1 unless s = 2^23
          by_cases he : s = 2 ^ 23
          · have : (s : ℝ) = (2 : ℝ) ^ 23 := by rw [he]; norm_num
            linarith
          · have h3 : 2 ^ 23 + 1 ≤ s := by
              have := hslow.resolve_left hq23.1
              omega
            have h4 : (2 : ℝ) ^ 23 + 1 ≤ s := by exact_mod_cast h3
            linarith
      have h3 : r - x > r - (2 : ℝ) ^ (q + 23) := by linarith
      have h4 : (r / (2 : ℝ) ^ q - (2 : ℝ) ^ 23) * (2 : ℝ) ^ q = r - (2 : ℝ) ^ (q + 23) := by
        rw [hend, sub_mul, div_mul_cancel₀ _ hP.ne']
        norm_num
      calc |(s : ℝ) - r / (2 : ℝ) ^ q| * (2 : ℝ) ^ q ≤ (r / (2 : ℝ) ^ q - (2 : ℝ) ^ 23) * (2 : ℝ) ^ q :=
            mul_le_mul_of_nonneg_right h2 hP.le
        _ = r - (2 : ℝ) ^ (q + 23) := h4
        _ < r - x := h3
    exact ⟨hstrict.le, fun he => absurd he hstrict.ne⟩

end Sys2Proof.Machine
end

