-- ==== Sys2Proof/Laws/RoundOnce.lean ====
section
/-! SUPPORT. What the rounding operations answer, in one lemma each: `roundDyadic` rounds a dyadic number, or the number a sticky bit stands for, once; `roundRatio` a rational; and a value that both ends of an interval round to is what everything between rounds to. The integer square root. -/

namespace Sys2Proof.Machine

/-- The overflow threshold. -/
theorem thr_eq : (2 : ℝ) ^ 128 - 2 ^ 103 = (2 ^ 24 - 1 / 2) * (2 : ℝ) ^ (104 : ℤ) := by norm_num

/-- `m × 2^e` stands for the real `r`: exactly, or with a last bit 1 that only says `r` lies strictly within one unit of it. -/
def StandsFor (r : ℝ) (m : Nat) (e : ℤ) : Prop :=
  r = (m : ℝ) * (2 : ℝ) ^ e ∨ (m % 2 = 1 ∧ |r - (m : ℝ) * (2 : ℝ) ^ e| < (2 : ℝ) ^ e ∧ 25 ≤ Nat.log2 m)

theorem StandsFor.scale {r : ℝ} {m : Nat} {e : ℤ} (h : StandsFor r m e) (j : ℤ) :
    StandsFor (r * (2 : ℝ) ^ j) m (e + j) := by
  have hj := zpow2_pos j
  rcases h with rfl | ⟨h1, h2, h3⟩
  · left
    rw [zpow_add₀ (by norm_num : (2 : ℝ) ≠ 0)]
    ring
  · refine .inr ⟨h1, ?_, h3⟩
    rw [zpow_add₀ (by norm_num : (2 : ℝ) ≠ 0),
      show r * (2 : ℝ) ^ j - (m : ℝ) * ((2 : ℝ) ^ e * (2 : ℝ) ^ j) = (r - (m : ℝ) * (2 : ℝ) ^ e) * (2 : ℝ) ^ j by ring,
      abs_mul, abs_of_pos hj]
    exact mul_lt_mul_of_pos_right h2 hj

/-- `shiftNearestEven` in integers: within half a unit, and even at exactly half. -/
theorem shiftNearestEven_spec (m k : Nat) :
    2 * |((shiftNearestEven m k * 2 ^ k : Nat) : ℤ) - m| ≤ (2 ^ k : Nat) ∧
    (2 * |((shiftNearestEven m k * 2 ^ k : Nat) : ℤ) - m| = (2 ^ k : Nat) → shiftNearestEven m k % 2 = 0) := by
  unfold shiftNearestEven
  simp only
  have hP : 0 < 2 ^ k := by positivity
  have hdm := Nat.div_add_mod m (2 ^ k)
  have hlt := Nat.mod_lt m hP
  generalize 2 ^ k = P at *
  generalize m / P = Q at *
  generalize m % P = R at *
  have hcm : P * Q = Q * P := Nat.mul_comm P Q
  split
  · next h =>
    have h1 : ((((Q + 1) * P : Nat) : ℤ) - m) = P - R := by
      rw [Nat.add_mul, ← hdm, hcm]; push_cast; ring
    rw [h1, abs_of_nonneg (by omega)]
    exact ⟨by omega, by intro h2; omega⟩
  · next h =>
    have h1 : (((Q * P : Nat) : ℤ) - m) = -R := by
      rw [← hdm, hcm]; push_cast; ring
    rw [h1, abs_neg, abs_of_nonneg (by omega)]
    exact ⟨by omega, by intro h2; omega⟩

/-- The same, as a distance in units of the last place. -/
theorem shiftNearestEven_real (m k : Nat) :
    |((shiftNearestEven m k : Nat) : ℝ) - (m : ℝ) / 2 ^ k| ≤ 1 / 2 ∧
    (|((shiftNearestEven m k : Nat) : ℝ) - (m : ℝ) / 2 ^ k| = 1 / 2 → shiftNearestEven m k % 2 = 0) := by
  obtain ⟨h1, h2⟩ := shiftNearestEven_spec m k
  generalize shiftNearestEven m k = s at *
  have hP : (0 : ℝ) < 2 ^ k := by positivity
  have e : |(s : ℝ) - (m : ℝ) / 2 ^ k| = ((|((s * 2 ^ k : Nat) : ℤ) - m| : ℤ) : ℝ) / 2 ^ k := by
    rw [Int.cast_abs, ← abs_of_pos hP, ← abs_div, abs_of_pos hP]
    push_cast
    congr 1
    field_simp
  rw [e]
  constructor
  · rw [div_le_div_iff₀ hP (by norm_num)]
    have : ((2 * |((s * 2 ^ k : Nat) : ℤ) - m| : ℤ) : ℝ) ≤ (((2 ^ k : Nat) : ℤ) : ℝ) := by exact_mod_cast h1
    push_cast at this ⊢
    linarith
  · intro h
    apply h2
    rw [div_eq_div_iff hP.ne' (by norm_num)] at h
    have : ((2 * |((s * 2 ^ k : Nat) : ℤ) - m| : ℤ) : ℝ) = (((2 ^ k : Nat) : ℤ) : ℝ) := by
      push_cast at h ⊢
      linarith
    exact_mod_cast this

/-- With a sticky last bit the distance is strictly below half. -/
theorem shiftNearestEven_sticky {m k : Nat} {d : ℝ} (hm : m % 2 = 1) (hk : 2 ≤ k) (hd : |d| < 1 / 2 ^ k) :
    |((shiftNearestEven m k : Nat) : ℝ) - ((m : ℝ) / 2 ^ k + d)| < 1 / 2 := by
  obtain ⟨h1, -⟩ := shiftNearestEven_spec m k
  generalize shiftNearestEven m k = s at *
  have hP : (0 : ℝ) < 2 ^ k := by positivity
  obtain ⟨j, rfl⟩ : ∃ j, k = j + 2 := ⟨k - 2, by omega⟩
  have hint : 2 * |((s * 2 ^ (j + 2) : Nat) : ℤ) - m| ≤ (2 ^ (j + 2) : Nat) - 2 := by
    have e4 : 2 ^ (j + 2) = 4 * 2 ^ j := by ring
    rw [e4] at h1 ⊢
    have e5 : s * (4 * 2 ^ j) = 4 * (s * 2 ^ j) := by ring
    rw [e5] at h1 ⊢
    generalize s * 2 ^ j = A at *
    generalize 2 ^ j = B at *
    rcases abs_cases (((4 * A : Nat) : ℤ) - m) with ⟨h, _⟩ | ⟨h, _⟩ <;> rw [h] at h1 ⊢ <;> push_cast at h1 ⊢ <;> omega
  have hreal : |(s : ℝ) - (m : ℝ) / 2 ^ (j + 2)| ≤ 1 / 2 - 1 / 2 ^ (j + 2) := by
    have e : |(s : ℝ) - (m : ℝ) / 2 ^ (j + 2)| = ((|((s * 2 ^ (j + 2) : Nat) : ℤ) - m| : ℤ) : ℝ) / 2 ^ (j + 2) := by
      rw [Int.cast_abs, ← abs_of_pos hP, ← abs_div, abs_of_pos hP]
      push_cast
      congr 1
      field_simp
    have h2 : ((2 * |((s * 2 ^ (j + 2) : Nat) : ℤ) - m| : ℤ) : ℝ) ≤ (((2 ^ (j + 2) : Nat) - 2 : ℤ) : ℝ) := by
      exact_mod_cast hint
    rw [e, div_le_iff₀ hP, sub_mul, one_div_mul_cancel hP.ne']
    push_cast at h2 ⊢
    linarith
  have htri : |(s : ℝ) - ((m : ℝ) / 2 ^ (j + 2) + d)| ≤ |(s : ℝ) - (m : ℝ) / 2 ^ (j + 2)| + |d| := by
    rw [← sub_sub]
    exact abs_sub _ _
  linarith

theorem IsNearestEven_zero (neg : Bool) : IsNearestEven 0 (fzero neg) := by
  have h0 : f32Value (fzero neg) = 0 := by
    unfold fzero
    rw [f32Value_packBits neg (by norm_num)]
    simp [magValue]
  refine ⟨(isFinite_packBits neg (by norm_num)).2 (by norm_num), fun w _ => ?_⟩
  rw [h0]
  simp only [sub_zero, abs_zero]
  refine ⟨abs_nonneg _, fun h hne => absurd (abs_eq_zero.1 h.symm) hne⟩

theorem RoundsTo_zero (neg : Bool) : RoundsTo 0 (fzero neg) := by
  refine ⟨fun _ => IsNearestEven_zero neg, fun h => ?_, fun h => ?_⟩
  · norm_num at h
  · norm_num at h

/-- What `roundDyadic` answers: the number that `m × 2^e` stands for, with its sign, rounded once. -/
theorem roundDyadic_spec (neg : Bool) {r : ℝ} {m : Nat} {e : ℤ} (h : StandsFor r m e) :
    RoundsTo (signValue neg * r) (roundDyadic neg m e) := by
  unfold roundDyadic
  split
  · next hm =>
    subst hm
    rcases h with rfl | ⟨h, -, -⟩
    · simpa using RoundsTo_zero neg
    · omega
  · next hm =>
    have hl1 : 2 ^ Nat.log2 m ≤ m := Nat.log2_self_le hm
    have hl2 : m < 2 ^ (Nat.log2 m + 1) := Nat.lt_log2_self
    generalize hL : Nat.log2 m = L at *
    have hq0 : ulpExp m e = max (e + L - 23) (-149) := by unfold ulpExp; rw [hL]
    simp only
    generalize hqd : ulpExp m e = q at *
    have hq : -149 ≤ q := by omega
    have h2 : (2 : ℝ) ≠ 0 := by norm_num
    have hP := zpow2_pos q
    have hE := zpow2_pos e
    have hmlo : (2 : ℝ) ^ (L : ℤ) ≤ m := by rw [zpow_natCast]; exact_mod_cast hl1
    have hmhi : (m : ℝ) + 1 ≤ (2 : ℝ) ^ ((L : ℤ) + 1) := by
      have : ((m + 1 : Nat) : ℝ) ≤ ((2 ^ (L + 1) : Nat) : ℝ) := by exact_mod_cast hl2
      have e1 : ((L : ℤ) + 1) = ((L + 1 : Nat) : ℤ) := by push_cast; ring
      rw [e1, zpow_natCast]
      push_cast at this
      exact this
    -- the size of r
    have hrlo : (2 : ℝ) ^ (e + L) ≤ r := by
      rw [zpow_add₀ h2]
      rcases h with rfl | ⟨h1, h3, h4⟩
      · rw [mul_comm]; exact mul_le_mul_of_nonneg_right hmlo hE.le
      · have hne : m ≠ 2 ^ L := by
          intro hc
          have : 2 ^ L % 2 = 0 := by
            obtain ⟨j, rfl⟩ : ∃ j, L = j + 1 := ⟨L - 1, by omega⟩
            rw [pow_succ]; omega
          omega
        have hm1 : (2 : ℝ) ^ (L : ℤ) ≤ m - 1 := by
          have h5 : 2 ^ L + 1 ≤ m := by omega
          have : ((2 ^ L + 1 : Nat) : ℝ) ≤ m := by exact_mod_cast h5
          rw [zpow_natCast]
          push_cast at this
          linarith
        have h6 := (abs_lt.1 h3).1
        have h7 : (2 : ℝ) ^ e * (2 : ℝ) ^ (L : ℤ) ≤ (2 : ℝ) ^ e * (m - 1) := mul_le_mul_of_nonneg_left hm1 hE.le
        have h8 : (2 : ℝ) ^ e * ((m : ℝ) - 1) = m * (2 : ℝ) ^ e - (2 : ℝ) ^ e := by ring
        linarith
    have hrhi : r < (2 : ℝ) ^ (e + L + 1) := by
      have hb : ((m : ℝ) + 1) * (2 : ℝ) ^ e ≤ (2 : ℝ) ^ (e + L + 1) := by
        rw [show e + L + 1 = ((L : ℤ) + 1) + e by ring, zpow_add₀ h2 _ e]
        exact mul_le_mul_of_nonneg_right hmhi hE.le
      rcases h with rfl | ⟨-, h3, -⟩
      · linarith [hb, hE, show ((m : ℝ) + 1) * (2 : ℝ) ^ e = m * (2 : ℝ) ^ e + (2 : ℝ) ^ e by ring]
      · have h6 := (abs_lt.1 h3).2
        linarith [hb, hE, show ((m : ℝ) + 1) * (2 : ℝ) ^ e = m * (2 : ℝ) ^ e + (2 : ℝ) ^ e by ring]
    have hr0 : 0 < r := lt_of_lt_of_le (zpow2_pos _) hrlo
    have hlow : q = -149 ∨ (2 : ℝ) ^ (q + 23) ≤ r := by
      by_cases hc : q = -149
      · exact .inl hc
      · exact .inr (le_trans (zpow2_le (by omega)) hrlo)
    have hrq : r < (2 : ℝ) ^ (q + 24) := lt_of_lt_of_le hrhi (zpow2_le (by omega))
    have hyhi : r / (2 : ℝ) ^ q < 2 ^ 24 := by
      rw [div_lt_iff₀ hP]
      have : (2 : ℝ) ^ (q + 24) = 2 ^ 24 * (2 : ℝ) ^ q := by rw [zpow_add₀ h2, mul_comm]; norm_num
      linarith
    have hylo : q = -149 ∨ (2 : ℝ) ^ 23 ≤ r / (2 : ℝ) ^ q := by
      refine hlow.imp_right fun hc => ?_
      rw [le_div_iff₀ hP]
      have : (2 : ℝ) ^ (q + 23) = 2 ^ 23 * (2 : ℝ) ^ q := by rw [zpow_add₀ h2, mul_comm]; norm_num
      linarith
    -- the rounded significand
    obtain ⟨s, hs, hnear, heven⟩ : ∃ s : Nat,
        (if q ≤ e then m * 2 ^ (e - q).toNat else shiftNearestEven m (q - e).toNat) = s ∧
        |(s : ℝ) - r / (2 : ℝ) ^ q| ≤ 1 / 2 ∧ (|(s : ℝ) - r / (2 : ℝ) ^ q| = 1 / 2 → s % 2 = 0) := by
      refine ⟨_, rfl, ?_⟩
      split
      · next hqe =>
        have hex : r = (m : ℝ) * (2 : ℝ) ^ e := by
          rcases h with h | ⟨-, -, h4⟩
          · exact h
          · omega
        have : r / (2 : ℝ) ^ q = ((m * 2 ^ (e - q).toNat : Nat) : ℝ) := by
          rw [hex, mul_div_assoc, ← zpow_sub₀ h2]
          push_cast
          rw [← zpow_natCast, Int.toNat_of_nonneg (by omega)]
        rw [this]
        simp
      · next hqe =>
        have hk : ((q - e).toNat : ℤ) = q - e := Int.toNat_of_nonneg (by omega)
        have hmk : (m : ℝ) * (2 : ℝ) ^ e / (2 : ℝ) ^ q = (m : ℝ) / 2 ^ (q - e).toNat := by
          rw [← zpow_natCast, hk, zpow_sub₀ h2]
          field_simp
        rcases h with h | ⟨h1, h3, h4⟩
        · rw [h, hmk]
          exact shiftNearestEven_real m _
        · have hd : r / (2 : ℝ) ^ q = (m : ℝ) / 2 ^ (q - e).toNat + (r - m * (2 : ℝ) ^ e) / (2 : ℝ) ^ q := by
            rw [← hmk]; ring
          have hdl : |(r - m * (2 : ℝ) ^ e) / (2 : ℝ) ^ q| < 1 / 2 ^ (q - e).toNat := by
            rw [abs_div, abs_of_pos hP, div_lt_iff₀ hP]
            refine lt_of_lt_of_eq h3 ?_
            rw [← zpow_natCast, hk, zpow_sub₀ h2]
            field_simp
          have := shiftNearestEven_sticky h1 (k := (q - e).toNat) (by omega) hdl
          rw [hd]
          exact ⟨this.le, fun hc => absurd hc this.ne⟩
    rw [hs]
    have hab := abs_le.1 hnear
    have hs24 : s ≤ 2 ^ 24 := by
      have : (s : ℝ) < ((2 ^ 24 + 1 : Nat) : ℝ) := by push_cast; linarith [hab.2]
      have := Nat.cast_lt.1 this
      omega
    have hslow : q = -149 ∨ 2 ^ 23 ≤ s := by
      refine hylo.imp_right fun hc => ?_
      have e1 : ((2 ^ 23 - 1 : Nat) : ℝ) = 2 ^ 23 - 1 := by norm_num
      have : ((2 ^ 23 - 1 : Nat) : ℝ) < (s : ℝ) := by rw [e1]; linarith [hab.1]
      have := Nat.cast_lt.1 this
      omega
    have habs : |signValue neg * r| = r := by
      unfold signValue
      cases neg <;> simp [abs_of_pos hr0]
    by_cases hfin : (q + 149).toNat * 2 ^ 23 + s < 0x7F800000
    · rw [min_eq_left (by omega)]
      have hthr : r < 2 ^ 128 - 2 ^ 103 := by
        rcases lt_or_ge q 104 with hc | hc
        · have h9 : (2 : ℝ) ^ (q + 24) ≤ (2 : ℝ) ^ (127 : ℤ) := zpow2_le (by omega)
          have h10 : (2 : ℝ) ^ (127 : ℤ) ≤ 2 ^ 128 - 2 ^ 103 := by norm_num
          linarith
        · have hq104 : q = 104 := by omega
          subst hq104
          by_contra hge
          have hge : (2 : ℝ) ^ 128 - 2 ^ 103 ≤ r := not_lt.1 hge
          rw [thr_eq, ← le_div_iff₀ (zpow2_pos _)] at hge
          have hsn : s ≤ 2 ^ 24 - 1 := by
            have : (104 + 149 : ℤ).toNat = 253 := rfl
            omega
          have hsr : (s : ℝ) ≤ 2 ^ 24 - 1 := by
            have : (s : ℝ) ≤ ((2 ^ 24 - 1 : Nat) : ℝ) := by exact_mod_cast hsn
            push_cast at this
            norm_num at this ⊢
            linarith
          have hy : r / (2 : ℝ) ^ (104 : ℤ) = 2 ^ 24 - 1 / 2 := by linarith [hab.1, hab.2]
          have hse : (s : ℝ) = 2 ^ 24 - 1 := by
            rw [hy] at hab
            linarith [hab.1]
          have hodd : s = 2 ^ 24 - 1 := by
            have : (s : ℝ) = ((2 ^ 24 - 1 : Nat) : ℝ) := by rw [hse]; norm_num
            exact_mod_cast this
          have := heven (by rw [hy, hse]; rw [show (2 : ℝ) ^ 24 - 1 - (2 ^ 24 - 1 / 2) = -(1 / 2) by ring, abs_neg, abs_of_pos (by norm_num)])
          omega
      refine ⟨fun _ => nearest_of_places hq hlow hs24 hslow hnear heven hfin, fun hc => ?_, fun hc => ?_⟩
      · have := le_abs_self (signValue neg * r)
        linarith
      · have := neg_abs_le (signValue neg * r)
        linarith
    · rw [min_eq_right (by omega)]
      have hthr : 2 ^ 128 - 2 ^ 103 ≤ r := by
        rcases lt_or_ge q 105 with hc | hc
        · have hq104 : q = 104 := by omega
          subst hq104
          have : (104 + 149 : ℤ).toNat = 253 := rfl
          have hs24' : s = 2 ^ 24 := by omega
          rw [thr_eq, ← le_div_iff₀ (zpow2_pos _)]
          have hse : (s : ℝ) = 2 ^ 24 := by rw [hs24']; norm_num
          linarith [hab.2]
        · have h9 : (2 : ℝ) ^ (128 : ℤ) ≤ (2 : ℝ) ^ (q + 23) := zpow2_le (by omega)
          have h10 : (2 : ℝ) ^ (128 : ℤ) = 2 ^ 128 := by norm_num
          have h11 : (0 : ℝ) < 2 ^ 103 := by positivity
          have h12 := hlow.resolve_left (by omega)
          linarith
      refine ⟨fun hc => ?_, fun hc => ?_, fun hc => ?_⟩
      · rw [habs] at hc
        exact absurd hc (not_lt.2 hthr)
      · have : neg = false := by
          cases neg
          · rfl
          · exfalso
            have hpos : (0 : ℝ) < 2 ^ 128 - 2 ^ 103 := by norm_num
            simp only [signValue, if_true] at hc
            linarith
        rw [this]
        rfl
      · have : neg = true := by
          cases neg
          · exfalso
            have hpos : (0 : ℝ) < 2 ^ 128 - 2 ^ 103 := by norm_num
            simp only [signValue, Bool.false_eq_true, if_false] at hc
            linarith
          · rfl
        rw [this]
        rfl

/-- What `quotientSticky` stands for. -/
theorem quotientSticky_standsFor {num den : Nat} (hn : num ≠ 0) (hd : den ≠ 0) :
    StandsFor ((num : ℝ) / den) (quotientSticky num den).1 (quotientSticky num den).2 := by
  unfold quotientSticky
  simp only
  have hl2 : den < 2 ^ (Nat.log2 den + 1) := Nat.lt_log2_self
  generalize Nat.log2 den = L at *
  have hdm := Nat.div_add_mod (num * 2 ^ (64 + L)) den
  have hlt := Nat.mod_lt (num * 2 ^ (64 + L)) (Nat.pos_of_ne_zero hd)
  have hbig : 2 ^ 63 ≤ num * 2 ^ (64 + L) / den := by
    rw [Nat.le_div_iff_mul_le (Nat.pos_of_ne_zero hd)]
    calc 2 ^ 63 * den ≤ 2 ^ 63 * 2 ^ (L + 1) := Nat.mul_le_mul_left _ hl2.le
      _ = 1 * 2 ^ (64 + L) := by ring
      _ ≤ num * 2 ^ (64 + L) := Nat.mul_le_mul_right _ (by omega)
  generalize hQ : num * 2 ^ (64 + L) / den = Q at *
  generalize hR : num * 2 ^ (64 + L) % den = R at *
  have hdr : (0 : ℝ) < den := by exact_mod_cast Nat.pos_of_ne_zero hd
  have hK : (0 : ℝ) < 2 ^ (64 + L) := by positivity
  have hz : (2 : ℝ) ^ (-((64 + L : Nat) : ℤ) - 1) = 1 / (2 * 2 ^ (64 + L)) := by
    rw [zpow_sub₀ (by norm_num), zpow_neg, zpow_natCast]
    field_simp
  have hreal : (num : ℝ) / den = ((Q : ℝ) + R / den) / 2 ^ (64 + L) := by
    have : ((den * Q + R : Nat) : ℝ) = ((num * 2 ^ (64 + L) : Nat) : ℝ) := by rw [hdm]
    push_cast at this
    field_simp
    linarith
  by_cases hR0 : R = 0
  · left
    rw [if_pos hR0, hz, hreal, hR0]
    push_cast
    field_simp
    ring
  · right
    rw [if_neg hR0]
    refine ⟨by omega, ?_, ?_⟩
    · rw [hz, hreal]
      have hRpos : (0 : ℝ) < R := by exact_mod_cast Nat.pos_of_ne_zero hR0
      have hRlt : (R : ℝ) / den < 1 := by rw [div_lt_one hdr]; exact_mod_cast hlt
      have hRp : (0 : ℝ) < R / den := by positivity
      have e1 : ((Q : ℝ) + R / den) / 2 ^ (64 + L) - ((2 * Q + 1 : Nat) : ℝ) * (1 / (2 * 2 ^ (64 + L))) =
          (2 * (R / den) - 1) * (1 / (2 * 2 ^ (64 + L))) := by
        push_cast
        field_simp
        ring
      rw [e1, abs_mul, abs_of_pos (show (0 : ℝ) < 1 / (2 * 2 ^ (64 + L)) by positivity)]
      have : |2 * ((R : ℝ) / den) - 1| < 1 := by rw [abs_lt]; constructor <;> linarith
      have hpos : (0 : ℝ) < 1 / (2 * 2 ^ (64 + L)) := by positivity
      nlinarith
    · rw [Nat.le_log2 (by omega)]
      omega

/-- What `roundRatio` answers: the rational rounded once. -/
theorem roundRatio_spec (num : Int) {den : Nat} (hd : den ≠ 0) :
    RoundsTo ((num : ℝ) / den) (roundRatio num den) := by
  unfold roundRatio
  simp only
  by_cases hn : num = 0
  · subst hn
    simpa [quotientSticky, roundDyadic] using RoundsTo_zero false
  · have h := roundDyadic_spec (decide (num < 0)) (quotientSticky_standsFor (Int.natAbs_ne_zero.2 hn) hd)
    have e : (num : ℝ) / den = signValue (decide (num < 0)) * ((num.natAbs : ℝ) / den) := by
      have : (num : ℝ) = signValue (decide (num < 0)) * (num.natAbs : ℝ) := by
        have h1 : (num.natAbs : ℝ) = |(num : ℝ)| := by rw [Nat.cast_natAbs, Int.cast_abs]
        rw [h1]
        unfold signValue
        by_cases hlt : num < 0
        · rw [abs_of_neg (by exact_mod_cast hlt)]
          simp [hlt]
        · rw [abs_of_nonneg (by exact_mod_cast not_lt.1 hlt)]
          simp [hlt]
      rw [mul_div_assoc', ← this]
    rw [e]
    exact h

/-- Everything between two reals that round to one value rounds to it. -/
theorem RoundsTo.between {a b r : ℝ} {v : F32} (ha : RoundsTo a v) (hb : RoundsTo b v) (h1 : a ≤ r) (h2 : r ≤ b) :
    RoundsTo r v := by
  refine ⟨fun hr => ?_, fun hr => hb.2.1 (le_trans hr h2), fun hr => ha.2.2 (le_trans h1 hr)⟩
  obtain ⟨hr1, hr2⟩ := abs_lt.1 hr
  have hinf : ∀ neg, isFinite (finf neg) = false := by decide
  by_cases hA : |a| < 2 ^ 128 - 2 ^ 103
  · by_cases hB : |b| < 2 ^ 128 - 2 ^ 103
    · have na := ha.1 hA
      have nb := hb.1 hB
      refine ⟨na.1, fun w hw => ?_⟩
      obtain ⟨ha1, ha2⟩ := na.2 w hw
      obtain ⟨hb1, hb2⟩ := nb.2 w hw
      set x := f32Value v
      set y := f32Value w
      -- the points nearer to x than to y form a half-line
      have key : ∀ t : ℝ, |x - t| ≤ |y - t| ↔ (x - y) * (x + y - 2 * t) ≤ 0 := by
        intro t
        rw [← sq_le_sq]
        constructor <;> intro h <;> nlinarith
      have keyeq : ∀ t : ℝ, |x - t| = |y - t| ↔ (x - y) * (x + y - 2 * t) = 0 := by
        intro t
        rw [← sq_eq_sq_iff_abs_eq_abs]
        constructor <;> intro h <;> nlinarith
      rw [key] at ha1 hb1
      refine ⟨?_, fun he hne => ?_⟩
      · rw [key]
        rcases le_total x y with h | h <;> nlinarith
      · rw [keyeq] at he
        rw [keyeq] at ha2 hb2
        have hxy : x - y ≠ 0 := fun hc => hne (by linarith)
        have hmid : x + y - 2 * r = 0 := (mul_eq_zero.1 he).resolve_left hxy
        rcases lt_or_gt_of_ne hxy with hc | hc
        · exact hb2 (le_antisymm hb1 (by nlinarith)) hne
        · exact ha2 (le_antisymm ha1 (by nlinarith)) hne
    · exfalso
      have hf := (ha.1 hA).1
      rcases le_abs.1 (not_lt.1 hB) with h | h
      · rw [hb.2.1 h, hinf] at hf; cases hf
      · rw [hb.2.2 (by linarith), hinf] at hf; cases hf
  · exfalso
    have hA' : a ≤ -(2 ^ 128 - 2 ^ 103) := by
      rcases le_abs.1 (not_lt.1 hA) with h | h
      · linarith
      · linarith
    have hv := ha.2.2 hA'
    by_cases hB : |b| < 2 ^ 128 - 2 ^ 103
    · have hf := (hb.1 hB).1
      rw [hv, hinf] at hf; cases hf
    · rcases le_abs.1 (not_lt.1 hB) with h | h
      · have := hb.2.1 h
        rw [hv] at this
        exact absurd this (by decide)
      · linarith

/-- The invariant of the square root's bits. -/
theorem isqrtBits_spec (n : Nat) : ∀ b r, r * r ≤ n → n < (r + 2 ^ b) * (r + 2 ^ b) →
    isqrtBits n b r * isqrtBits n b r ≤ n ∧ n < (isqrtBits n b r + 1) * (isqrtBits n b r + 1) := by
  intro b
  induction b with
  | zero => intro r h1 h2; exact ⟨h1, by simpa [isqrtBits] using h2⟩
  | succ b ih =>
    intro r h1 h2
    unfold isqrtBits
    split
    · next h =>
      refine ih _ h ?_
      rwa [show r + 2 ^ b + 2 ^ b = r + 2 ^ (b + 1) by ring]
    · next h => exact ih _ h1 (not_le.1 h)

/-- `isqrt n` is the largest `r` with `r × r ≤ n`. -/
theorem isqrt_spec (n : Nat) : isqrt n * isqrt n ≤ n ∧ n < (isqrt n + 1) * (isqrt n + 1) := by
  unfold isqrt
  refine isqrtBits_spec n _ 0 (by simp) ?_
  have h : n < 2 ^ (Nat.log2 n + 1) := Nat.lt_log2_self
  rw [Nat.zero_add, ← pow_add]
  refine lt_of_lt_of_le h (Nat.pow_le_pow_right (by norm_num) ?_)
  omega

end Sys2Proof.Machine
end

