-- ==== Sys2Proof/Laws/Spans.lean ====
section
/-! SUPPORT. The spans of Machine/Coef.lean enclose what they compute: one lemma per operation, and the series with their tails. -/

namespace Sys2Proof.Machine

/-- The span encloses the real `r` at precision `p`. -/
def Span.has (p : Nat) (x : Span) (r : ℝ) : Prop := (x.lo : ℝ) ≤ r * 2 ^ p ∧ r * 2 ^ p ≤ x.hi

theorem two_pow_pos (p : Nat) : (0 : ℝ) < 2 ^ p := by positivity

theorem floorDiv_le (a : Int) {b : Nat} (hb : 0 < b) : (floorDiv a b : ℝ) ≤ (a : ℝ) / b := by
  unfold floorDiv
  rw [le_div_iff₀ (by exact_mod_cast hb)]
  exact_mod_cast Int.ediv_mul_le a (by omega)

theorem le_ceilDiv (a : Int) {b : Nat} (hb : 0 < b) : (a : ℝ) / b ≤ (ceilDiv a b : ℝ) := by
  have h := floorDiv_le (-a) hb
  unfold floorDiv at h
  unfold ceilDiv
  push_cast at h ⊢
  rw [neg_div] at h
  linarith

theorem Span.has.add {p : Nat} {x y : Span} {r s : ℝ} (hx : x.has p r) (hy : y.has p s) :
    (spanAdd x y).has p (r + s) := by
  unfold Span.has spanAdd at *
  push_cast
  rw [add_mul]
  exact ⟨by linarith [hx.1, hy.1], by linarith [hx.2, hy.2]⟩

theorem Span.has.neg {p : Nat} {x : Span} {r : ℝ} (hx : x.has p r) : (spanNeg x).has p (-r) := by
  unfold Span.has spanNeg at *
  push_cast
  rw [neg_mul]
  exact ⟨by linarith [hx.2], by linarith [hx.1]⟩

theorem Span.has.divNat {p : Nat} {x : Span} {r : ℝ} (hx : x.has p r) {n : Nat} (hn : 0 < n) :
    (spanDivNat x n).has p (r / n) := by
  have hn' : (0 : ℝ) < n := by exact_mod_cast hn
  unfold Span.has spanDivNat at *
  rw [div_mul_eq_mul_div]
  exact ⟨le_trans (floorDiv_le _ hn) (div_le_div_of_nonneg_right hx.1 hn'.le),
    le_trans (div_le_div_of_nonneg_right hx.2 hn'.le) (le_ceilDiv _ hn)⟩

/-- A product lies between the least and the greatest product of the ends. -/
theorem mul_between {a b c d u v : ℝ} (h1 : a ≤ u) (h2 : u ≤ b) (h3 : c ≤ v) (h4 : v ≤ d) :
    min (min (a * c) (a * d)) (min (b * c) (b * d)) ≤ u * v ∧
    u * v ≤ max (max (a * c) (a * d)) (max (b * c) (b * d)) := by
  have key : ∀ t : ℝ, min (t * c) (t * d) ≤ t * v ∧ t * v ≤ max (t * c) (t * d) := by
    intro t
    rcases le_total 0 t with ht | ht
    · exact ⟨min_le_of_left_le (mul_le_mul_of_nonneg_left h3 ht), le_max_of_le_right (mul_le_mul_of_nonneg_left h4 ht)⟩
    · exact ⟨min_le_of_right_le (mul_le_mul_of_nonpos_left h4 ht), le_max_of_le_left (mul_le_mul_of_nonpos_left h3 ht)⟩
  rcases le_total 0 v with hv | hv
  · exact ⟨le_trans (min_le_left _ _) (le_trans (key a).1 (mul_le_mul_of_nonneg_right h1 hv)),
      le_trans (mul_le_mul_of_nonneg_right h2 hv) (le_trans (key b).2 (le_max_right _ _))⟩
  · exact ⟨le_trans (min_le_right _ _) (le_trans (key b).1 (mul_le_mul_of_nonpos_right h2 hv)),
      le_trans (mul_le_mul_of_nonpos_right h1 hv) (le_trans (key a).2 (le_max_left _ _))⟩

theorem Span.has.mul {p : Nat} {x y : Span} {r s : ℝ} (hx : x.has p r) (hy : y.has p s) :
    (spanMul p x y).has p (r * s) := by
  have hP := two_pow_pos p
  have hN : 0 < 2 ^ p := by positivity
  obtain ⟨h1, h2⟩ := mul_between hx.1 hx.2 hy.1 hy.2
  have e : r * s * 2 ^ p = (r * 2 ^ p) * (s * 2 ^ p) / ((2 ^ p : Nat) : ℝ) := by
    push_cast
    field_simp
  unfold Span.has spanMul
  simp only
  rw [e]
  refine ⟨le_trans (floorDiv_le _ hN) (div_le_div_of_nonneg_right ?_ (by positivity)),
    le_trans (div_le_div_of_nonneg_right ?_ (by positivity)) (le_ceilDiv _ hN)⟩
  · push_cast
    exact h1
  · push_cast
    exact h2

theorem Span.has.inv {p : Nat} {x y : Span} {r : ℝ} (hx : x.has p r) (h : spanInv p x = some y) :
    r ≠ 0 ∧ y.has p r⁻¹ := by
  have hP := two_pow_pos p
  have e2 : ((2 : ℝ) ^ (2 * p)) = 2 ^ p * 2 ^ p := by rw [two_mul, pow_add]
  unfold spanInv at h
  split at h
  · next hlo =>
    cases h
    have hlo' : (0 : ℝ) < x.lo := by exact_mod_cast hlo
    have hrp : 0 < r * 2 ^ p := lt_of_lt_of_le hlo' hx.1
    have hr : 0 < r := pos_of_mul_pos_left hrp hP.le
    have hhi' : (0 : ℝ) < x.hi := lt_of_lt_of_le hrp hx.2
    have hhi : 0 < x.hi := by exact_mod_cast hhi'
    have c1 : ((x.hi.toNat : Nat) : ℝ) = x.hi := by
      rw [← Int.cast_natCast, Int.toNat_of_nonneg hhi.le]
    have c2 : ((x.lo.toNat : Nat) : ℝ) = x.lo := by
      rw [← Int.cast_natCast, Int.toNat_of_nonneg hlo.le]
    refine ⟨hr.ne', ?_, ?_⟩
    · refine le_trans (floorDiv_le _ (by omega)) ?_
      rw [c1]
      push_cast
      rw [e2, div_le_iff₀ hhi', inv_mul_eq_div, div_mul_eq_mul_div, le_div_iff₀ hr]
      nlinarith [hx.2]
    · refine le_trans ?_ (le_ceilDiv _ (by omega))
      rw [c2]
      push_cast
      rw [e2, le_div_iff₀ hlo', inv_mul_eq_div, div_mul_eq_mul_div, div_le_iff₀ hr]
      nlinarith [hx.1]
  · split at h
    · next hhi =>
      cases h
      have hhi' : (x.hi : ℝ) < 0 := by exact_mod_cast hhi
      have hrp : r * 2 ^ p < 0 := lt_of_le_of_lt hx.2 hhi'
      have hr : r < 0 := by
        by_contra hc
        exact absurd hrp (not_lt.2 (mul_nonneg (not_lt.1 hc) hP.le))
      have hlo' : (x.lo : ℝ) < 0 := lt_of_le_of_lt hx.1 hrp
      have hlo : x.lo < 0 := by exact_mod_cast hlo'
      have c1 : (((-x.hi).toNat : Nat) : ℝ) = -x.hi := by
        rw [← Int.cast_natCast, Int.toNat_of_nonneg (by omega)]; push_cast; rfl
      have c2 : (((-x.lo).toNat : Nat) : ℝ) = -x.lo := by
        rw [← Int.cast_natCast, Int.toNat_of_nonneg (by omega)]; push_cast; rfl
      refine ⟨hr.ne, ?_, ?_⟩
      · have h3 := le_ceilDiv (2 ^ (2 * p)) (b := (-x.hi).toNat) (by omega)
        rw [c1] at h3
        push_cast at h3 ⊢
        refine le_trans (neg_le_neg h3) ?_
        rw [e2, neg_le, ← neg_mul, ← inv_neg, inv_mul_eq_div, div_le_div_iff₀ (by linarith) (by linarith)]
        nlinarith [hx.2]
      · have h3 := floorDiv_le (2 ^ (2 * p)) (b := (-x.lo).toNat) (by omega)
        rw [c2] at h3
        push_cast at h3 ⊢
        refine le_trans ?_ (neg_le_neg h3)
        rw [e2, le_neg, ← neg_mul, ← inv_neg, inv_mul_eq_div, div_le_div_iff₀ (by linarith) (by linarith)]
        nlinarith [hx.1]
    · cases h

theorem Span.has.sqrt {p : Nat} {x y : Span} {r : ℝ} (hx : x.has p r) (h : spanSqrt p x = some y) :
    y.has p (Real.sqrt r) := by
  have hP := two_pow_pos p
  unfold spanSqrt at h
  split at h
  · next hlo =>
    cases h
    have hlo' : (0 : ℝ) ≤ x.lo := by exact_mod_cast hlo
    have hrp : 0 ≤ r * 2 ^ p := le_trans hlo' hx.1
    have hr : 0 ≤ r := nonneg_of_mul_nonneg_left hrp hP
    have hhi : 0 ≤ x.hi := by
      have : (0 : ℝ) ≤ x.hi := le_trans hrp hx.2
      exact_mod_cast this
    have c1 : ((x.hi.toNat : Nat) : ℝ) = x.hi := by rw [← Int.cast_natCast, Int.toNat_of_nonneg hhi]
    have c2 : ((x.lo.toNat : Nat) : ℝ) = x.lo := by rw [← Int.cast_natCast, Int.toNat_of_nonneg hlo]
    have hsq : (Real.sqrt r * 2 ^ p) ^ 2 = r * 2 ^ p * 2 ^ p := by
      rw [mul_pow, Real.sq_sqrt hr]; ring
    have hs0 : 0 ≤ Real.sqrt r * 2 ^ p := mul_nonneg (Real.sqrt_nonneg _) hP.le
    constructor
    · have h1 := (isqrt_spec (x.lo.toNat * 2 ^ p)).1
      generalize isqrt (x.lo.toNat * 2 ^ p) = q at *
      have h2 : (q : ℝ) * q ≤ x.lo * 2 ^ p := by
        have : ((q * q : Nat) : ℝ) ≤ ((x.lo.toNat * 2 ^ p : Nat) : ℝ) := by exact_mod_cast h1
        push_cast at this
        rwa [c2] at this
      simp only
      push_cast
      refine abs_le_of_sq_le_sq' ?_ hs0 |>.2
      rw [hsq]
      nlinarith [hx.1]
    · have h1 := (isqrt_spec (x.hi.toNat * 2 ^ p)).2
      generalize isqrt (x.hi.toNat * 2 ^ p) = q at *
      have h2 : (x.hi : ℝ) * 2 ^ p ≤ ((q : ℝ) + 1) * (q + 1) := by
        have : ((x.hi.toNat * 2 ^ p : Nat) : ℝ) ≤ (((q + 1) * (q + 1) : Nat) : ℝ) := by exact_mod_cast h1.le
        push_cast at this
        rwa [c1] at this
      simp only
      push_cast
      refine abs_le_of_sq_le_sq' ?_ (by positivity) |>.2
      rw [hsq]
      nlinarith [hx.2]
  · cases h

theorem Span.has_ratio (p : Nat) (num : Int) {den : Nat} (hd : den ≠ 0) :
    (spanRatio p num den).has p ((num : ℝ) / den) := by
  unfold Span.has spanRatio
  rw [div_mul_eq_mul_div]
  have h1 := floorDiv_le (num * 2 ^ p) (Nat.pos_of_ne_zero hd)
  have h2 := le_ceilDiv (num * 2 ^ p) (Nat.pos_of_ne_zero hd)
  push_cast at h1 h2
  exact ⟨h1, h2⟩

theorem Span.has.abs_le_mag {p : Nat} {x : Span} {r : ℝ} (hx : x.has p r) : |r * 2 ^ p| ≤ spanMag x := by
  unfold spanMag
  have h1 : ((x.lo.natAbs : Nat) : ℝ) = |(x.lo : ℝ)| := by rw [Nat.cast_natAbs, Int.cast_abs]
  have h2 : ((x.hi.natAbs : Nat) : ℝ) = |(x.hi : ℝ)| := by rw [Nat.cast_natAbs, Int.cast_abs]
  rw [Nat.cast_max, h1, h2]
  exact abs_le_max_abs_abs hx.1 hx.2

theorem Span.has.widen {p : Nat} {x : Span} {r s : ℝ} {w : Nat} (hx : x.has p r) (h : |s - r| * 2 ^ p ≤ w) :
    (spanWiden x w).has p s := by
  have hP := two_pow_pos p
  unfold Span.has spanWiden at *
  have h2 : |s * 2 ^ p - r * 2 ^ p| ≤ w := by rwa [← sub_mul, abs_mul, abs_of_pos hP]
  have h3 := abs_le.1 h2
  push_cast
  exact ⟨by linarith [hx.1, h3.1], by linarith [hx.2, h3.2]⟩

theorem Span.has.scale {p : Nat} {x : Span} {r : ℝ} (hx : x.has p r) (n : Nat) : (spanScale n x).has p (n * r) := by
  unfold Span.has spanScale at *
  push_cast
  rw [mul_assoc]
  have hn : (0 : ℝ) ≤ n := by positivity
  exact ⟨mul_le_mul_of_nonneg_left hx.1 hn, mul_le_mul_of_nonneg_left hx.2 hn⟩

theorem Span.has_one (p : Nat) : (spanOne p).has p 1 := by
  unfold Span.has spanOne
  push_cast
  simp

theorem Span.has_zero (p : Nat) : (⟨0, 0⟩ : Span).has p 0 := by
  unfold Span.has
  simp

/-- A partial sum and the first term left out. -/
theorem seriesSum_has {p : Nat} {next : Nat → Span → Span} {τ : Nat → ℝ}
    (hnext : ∀ i t, t.has p (τ i) → (next i t).has p (τ (i + 1))) :
    ∀ (n i : Nat) (t s : Span) (a : ℝ), t.has p (τ i) → s.has p a →
      (seriesSum next n i t s).1.has p (a + ∑ j ∈ Finset.range n, τ (i + j)) ∧
      (seriesSum next n i t s).2.has p (τ (i + n)) := by
  intro n
  induction n with
  | zero => intro i t s a ht hs; simpa [seriesSum] using ⟨hs, ht⟩
  | succ n ih =>
    intro i t s a ht hs
    have h := ih (i + 1) (next i t) (spanAdd s t) (a + τ i) (hnext i t ht) (hs.add ht)
    rw [Finset.sum_range_succ']
    have e : ∀ j, i + 1 + j = i + (j + 1) := by intro j; ring
    simp only [e] at h
    refine ⟨?_, h.2⟩
    have h1 := h.1
    rwa [add_assoc, add_comm (τ i)] at h1

/-- The tail of a series whose terms at least halve is at most twice its first term. -/
theorem tail_le {τ : Nat → ℝ} {S : ℝ} (hS : HasSum τ S) {n : Nat} (hh : ∀ i, n ≤ i → |τ (i + 1)| ≤ |τ i| / 2) :
    |S - ∑ j ∈ Finset.range n, τ j| ≤ 2 * |τ n| := by
  have h1 : HasSum (fun i => τ (i + n)) (S - ∑ j ∈ Finset.range n, τ j) := by
    rw [hasSum_nat_add_iff n]
    simpa using hS
  have h2 : ∀ i, |τ (i + n)| ≤ |τ n| * (1 / 2) ^ i := by
    intro i
    induction i with
    | zero => simp
    | succ i ih =>
      have := hh (i + n) (by omega)
      rw [show i + 1 + n = i + n + 1 by ring, pow_succ]
      linarith
  have h3 : HasSum (fun i : Nat => |τ n| * ((1 : ℝ) / 2) ^ i) (|τ n| * 2) := hasSum_geometric_two.mul_left _
  have := h1.norm_le_of_bounded h3 (fun i => by rw [Real.norm_eq_abs]; exact h2 i)
  rw [Real.norm_eq_abs] at this
  linarith

/-- A series summed with its tail. -/
theorem seriesSpan_has {p : Nat} {next : Nat → Span → Span} {τ : Nat → ℝ} {S : ℝ} {first : Span}
    (hnext : ∀ i t, t.has p (τ i) → (next i t).has p (τ (i + 1))) (hfirst : first.has p (τ 0)) (hS : HasSum τ S)
    (hh : ∀ i, seriesTerms p ≤ i → |τ (i + 1)| ≤ |τ i| / 2) : (seriesSpan p next first).has p S := by
  unfold seriesSpan
  obtain ⟨h1, h2⟩ := seriesSum_has hnext (seriesTerms p) 0 first ⟨0, 0⟩ 0 hfirst (Span.has_zero p)
  simp only [zero_add] at h1 h2
  refine h1.widen ?_
  have h3 := tail_le hS hh
  have h4 := h2.abs_le_mag
  have hP := two_pow_pos p
  rw [abs_mul, abs_of_pos hP] at h4
  push_cast
  nlinarith

theorem expSeries_has {p : Nat} (hp : 32 ≤ p) {y : Span} {r : ℝ} (hy : y.has p r) (hr : |r| ≤ 1) :
    (expSeries p y).has p (Real.exp r) := by
  have hS : HasSum (fun i : Nat => r ^ i / i.factorial) (Real.exp r) := by
    rw [Real.exp_eq_exp_ℝ]
    exact NormedSpace.expSeries_div_hasSum_exp r
  have hstep : ∀ i : Nat, r ^ (i + 1) / ((i + 1).factorial : ℝ) = r ^ i / (i.factorial : ℝ) * r / ((i + 1 : Nat) : ℝ) := by
    intro i
    rw [Nat.factorial_succ, pow_succ]
    push_cast
    field_simp
  unfold expSeries
  refine seriesSpan_has (τ := fun i => r ^ i / i.factorial) ?_ (by simpa using Span.has_one p) hS ?_
  · intro i t ht
    simp only [hstep i]
    exact (ht.mul hy).divNat (by omega)
  · intro i hi
    simp only [hstep i]
    have hi2 : 1 ≤ i := by unfold seriesTerms at hi; omega
    rw [abs_div, abs_mul, Nat.abs_cast]
    have h2 : (2 : ℝ) ≤ ((i + 1 : Nat) : ℝ) := by exact_mod_cast (by omega : 2 ≤ i + 1)
    have h0 := abs_nonneg (r ^ i / (i.factorial : ℝ))
    rw [div_le_div_iff₀ (by linarith) (by norm_num)]
    nlinarith

theorem spanSquares_has {p : Nat} : ∀ (n : Nat) {x : Span} {r : ℝ}, x.has p r → (spanSquares p n x).has p (r ^ 2 ^ n) := by
  intro n
  induction n with
  | zero => intro x r h; simpa [spanSquares] using h
  | succ n ih =>
    intro x r h
    have := ih (h.mul h)
    rwa [← pow_two, ← pow_mul, ← pow_succ'] at this

theorem spanExp_has {p : Nat} (hp : 32 ≤ p) {x y : Span} {r : ℝ} (hx : x.has p r) (h : spanExp p x = some y) :
    y.has p (Real.exp r) := by
  unfold spanExp at h
  simp only at h
  generalize expHalvings = n at h
  split at h
  · next hm =>
    rw [← Option.some.inj h]
    have hP := two_pow_pos p
    have hy : (spanDivNat x (2 ^ n)).has p (r / ((2 ^ n : Nat) : ℝ)) := hx.divNat (by positivity)
    have h1 : |r / ((2 ^ n : Nat) : ℝ)| ≤ 1 := by
      have h2 := hy.abs_le_mag
      have h3 : ((spanMag (spanDivNat x (2 ^ n)) : Nat) : ℝ) ≤ 2 ^ p := by exact_mod_cast hm
      rw [abs_mul, abs_of_pos hP] at h2
      exact le_of_mul_le_mul_right (by rw [one_mul]; exact h2.trans h3) hP
    have h4 := spanSquares_has n (expSeries_has hp hy h1)
    rwa [← Real.exp_nat_mul, show ((2 ^ n : Nat) : ℝ) * (r / ((2 ^ n : Nat) : ℝ)) = r from mul_div_cancel₀ r (by positivity)] at h4
  · cases h

/-- The magnitude check of the trigonometric series. -/
theorem abs_le_eight {p : Nat} {x : Span} {r : ℝ} (hx : x.has p r) (h : spanMag x ≤ 8 * 2 ^ p) : |r| ≤ 8 := by
  have hP := two_pow_pos p
  have h2 := hx.abs_le_mag
  have h3 : ((spanMag x : Nat) : ℝ) ≤ 8 * 2 ^ p := by exact_mod_cast h
  rw [abs_mul, abs_of_pos hP] at h2
  by_contra hc
  nlinarith [not_le.1 hc]

/-- One step of a trigonometric series. -/
theorem trigNext_has {p a : Nat} {x t : Span} {r τ : ℝ} (ha : 0 < a) (hx : x.has p r) (ht : t.has p τ) (i : Nat) :
    (trigNext p a (spanMul p x x) i t).has p (-(τ * (r * r) / (((2 * i + a) * (2 * i + a + 1) : Nat) : ℝ))) := by
  unfold trigNext
  exact ((ht.mul (hx.mul hx)).divNat (by positivity)).neg

/-- The terms of a trigonometric series at least halve from the 16th on. -/
theorem trig_halves {a i : Nat} {r τ : ℝ} (hr : |r| ≤ 8) (ha : 1 ≤ a) (hi : 16 ≤ i) :
    |-(τ * (r * r) / (((2 * i + a) * (2 * i + a + 1) : Nat) : ℝ))| ≤ |τ| / 2 := by
  rw [abs_neg, abs_div, abs_mul, abs_mul, Nat.abs_cast]
  have h1 : (128 : ℝ) ≤ (((2 * i + a) * (2 * i + a + 1) : Nat) : ℝ) := by
    have : 128 ≤ (2 * i + a) * (2 * i + a + 1) := by nlinarith
    exact_mod_cast this
  have h2 := abs_nonneg τ
  have h3 := abs_nonneg r
  rw [div_le_div_iff₀ (by linarith) (by norm_num)]
  have h4 : |r| * |r| ≤ 64 := by nlinarith
  nlinarith

theorem spanSin_has {p : Nat} {x y : Span} {r : ℝ} (hx : x.has p r) (h : spanSin p x = some y) :
    y.has p (Real.sin r) := by
  unfold spanSin at h
  split at h
  · next hm =>
    cases h
    have hr := abs_le_eight hx hm.1
    have hstep : ∀ i : Nat, (-1 : ℝ) ^ (i + 1) * r ^ (2 * (i + 1) + 1) / ((2 * (i + 1) + 1).factorial : ℝ) =
        -((-1 : ℝ) ^ i * r ^ (2 * i + 1) / ((2 * i + 1).factorial : ℝ) * (r * r) / (((2 * i + 2) * (2 * i + 2 + 1) : Nat) : ℝ)) := by
      intro i
      rw [show 2 * (i + 1) + 1 = (2 * i + 1) + 1 + 1 by ring, Nat.factorial_succ, Nat.factorial_succ]
      push_cast
      field_simp
      ring
    refine seriesSpan_has (τ := fun i => (-1 : ℝ) ^ i * r ^ (2 * i + 1) / ((2 * i + 1).factorial : ℝ)) ?_ (by simpa using hx)
      (Real.hasSum_sin r) ?_
    · intro i t ht
      simp only [hstep i]
      exact trigNext_has (by norm_num) hx ht i
    · intro i hi
      simp only [hstep i]
      exact trig_halves hr (by norm_num) (by unfold seriesTerms at hi; omega)
  · cases h

theorem spanCos_has {p : Nat} {x y : Span} {r : ℝ} (hx : x.has p r) (h : spanCos p x = some y) :
    y.has p (Real.cos r) := by
  unfold spanCos at h
  split at h
  · next hm =>
    cases h
    have hr := abs_le_eight hx hm.1
    have hstep : ∀ i : Nat, (-1 : ℝ) ^ (i + 1) * r ^ (2 * (i + 1)) / ((2 * (i + 1)).factorial : ℝ) =
        -((-1 : ℝ) ^ i * r ^ (2 * i) / ((2 * i).factorial : ℝ) * (r * r) / (((2 * i + 1) * (2 * i + 1 + 1) : Nat) : ℝ)) := by
      intro i
      rw [show 2 * (i + 1) = (2 * i) + 1 + 1 by ring, Nat.factorial_succ, Nat.factorial_succ]
      push_cast
      field_simp
      ring
    refine seriesSpan_has (τ := fun i => (-1 : ℝ) ^ i * r ^ (2 * i) / ((2 * i).factorial : ℝ)) ?_ (by simpa using Span.has_one p)
      (Real.hasSum_cos r) ?_
    · intro i t ht
      simp only [hstep i]
      exact trigNext_has (by norm_num) hx ht i
    · intro i hi
      simp only [hstep i]
      exact trig_halves hr (by norm_num) (by unfold seriesTerms at hi; omega)
  · cases h

/-- The odd powers with their divisors, from any power on: the sum and the first power left out. -/
theorem oddPowers_has {p : Nat} {sign : Bool} {xx : Span} {x : ℝ} (hxx : xx.has p (x * x)) :
    ∀ (n i : Nat) (t s : Span) (a : ℝ),
      t.has p ((if sign then (-1 : ℝ) ^ i else 1) * x ^ (2 * i + 1)) → s.has p a →
      (oddPowers p sign xx n i t s).1.has p
        (a + ∑ j ∈ Finset.range n, (if sign then (-1 : ℝ) ^ (i + j) else 1) * x ^ (2 * (i + j) + 1) / ((2 * (i + j) + 1 : Nat) : ℝ)) ∧
      (oddPowers p sign xx n i t s).2.has p ((if sign then (-1 : ℝ) ^ (i + n) else 1) * x ^ (2 * (i + n) + 1)) := by
  intro n
  induction n with
  | zero =>
    intro i t s a ht hs
    refine ⟨?_, ht⟩
    simpa [oddPowers] using hs
  | succ n ih =>
    intro i t s a ht hs
    have hn : (if sign then spanNeg (spanMul p t xx) else spanMul p t xx).has p
        ((if sign then (-1 : ℝ) ^ (i + 1) else 1) * x ^ (2 * (i + 1) + 1)) := by
      have hm := ht.mul hxx
      cases sign
      · simp only [Bool.false_eq_true, if_false, one_mul] at hm ⊢
        rwa [show x ^ (2 * (i + 1) + 1) = x ^ (2 * i + 1) * (x * x) by ring]
      · simp only [if_true] at hm ⊢
        have := hm.neg
        rwa [show (-1 : ℝ) ^ (i + 1) * x ^ (2 * (i + 1) + 1) = -((-1 : ℝ) ^ i * x ^ (2 * i + 1) * (x * x)) by ring]
    have h := ih (i + 1) _ (spanAdd s (spanDivNat t (2 * i + 1))) _ hn (hs.add (ht.divNat (by omega)))
    rw [Finset.sum_range_succ']
    have e : ∀ j, i + 1 + j = i + (j + 1) := by intro j; ring
    simp only [e] at h
    refine ⟨?_, h.2⟩
    have h1 := h.1
    rw [add_assoc, add_comm (_ / _)] at h1
    simpa [oddPowers] using h1

/-- The series of `atan` and `artanh` at a rational of absolute value at most 1/2. -/
theorem oddSeries_has {p : Nat} {sign : Bool} {num den : Nat} {S : ℝ} (hd : den ≠ 0) (hx : 2 * num ≤ den)
    (hS : HasSum (fun i : Nat => (if sign then (-1 : ℝ) ^ i else 1) * ((num : ℝ) / den) ^ (2 * i + 1) / ((2 * i + 1 : Nat) : ℝ)) S) :
    (oddSeries p sign num den).has p S := by
  have hP := two_pow_pos p
  have hdr : (0 : ℝ) < den := by exact_mod_cast Nat.pos_of_ne_zero hd
  have hx0 : (0 : ℝ) ≤ (num : ℝ) / den := by positivity
  have hx2 : (num : ℝ) / den ≤ 1 / 2 := by
    rw [div_le_div_iff₀ hdr (by norm_num)]
    have : ((2 * num : Nat) : ℝ) ≤ den := by exact_mod_cast hx
    push_cast at this
    linarith
  have hsp : (spanRatio p num den).has p ((num : ℝ) / den) := by
    have := Span.has_ratio p (num : Int) hd
    rwa [Int.cast_natCast] at this
  generalize (num : ℝ) / den = x at *
  unfold oddSeries
  simp only
  obtain ⟨h1, h2⟩ := oddPowers_has (sign := sign) (hsp.mul hsp) (seriesTerms p) 0 (spanRatio p num den) ⟨0, 0⟩ 0
    (by cases sign <;> simpa using hsp) (Span.has_zero p)
  simp only [zero_add] at h1 h2
  refine h1.widen ?_
  have habs : ∀ i : Nat, |(if sign then (-1 : ℝ) ^ i else 1)| = 1 := by intro i; cases sign <;> simp
  have h3 := tail_le (n := seriesTerms p) hS (by
    intro i _
    rw [abs_div, abs_div, abs_mul, abs_mul, habs, habs, one_mul, one_mul, Nat.abs_cast, Nat.abs_cast,
      abs_of_nonneg (pow_nonneg hx0 _), abs_of_nonneg (pow_nonneg hx0 _), div_div,
      div_le_div_iff₀ (by positivity) (by positivity)]
    have e : x ^ (2 * (i + 1) + 1) = x ^ (2 * i + 1) * (x * x) := by ring
    rw [e]
    have hq : 0 ≤ x ^ (2 * i + 1) := pow_nonneg hx0 _
    have hxx : x * x ≤ 1 / 4 := by nlinarith
    push_cast
    have hi : (0 : ℝ) ≤ i := by positivity
    have : x ^ (2 * i + 1) * (x * x) ≤ x ^ (2 * i + 1) * (1 / 4) := mul_le_mul_of_nonneg_left hxx hq
    nlinarith [mul_nonneg hq hi])
  have h4 := h2.abs_le_mag
  rw [abs_mul, abs_of_pos hP, abs_mul, habs, one_mul] at h4
  rw [abs_div, abs_mul, habs, one_mul, Nat.abs_cast] at h3
  have h5 : |x ^ (2 * seriesTerms p + 1)| / ((2 * seriesTerms p + 1 : Nat) : ℝ) ≤ |x ^ (2 * seriesTerms p + 1)| := by
    refine div_le_self (abs_nonneg _) ?_
    exact_mod_cast (by omega : 1 ≤ 2 * seriesTerms p + 1)
  push_cast at h3 h4 h5 ⊢
  nlinarith

theorem atan_has (p : Nat) {k : Nat} (hk : 2 ≤ k) : (oddSeries p true 1 k).has p (Real.arctan ((k : ℝ)⁻¹)) := by
  have hkr : (2 : ℝ) ≤ k := by exact_mod_cast hk
  refine oddSeries_has (by omega) (by omega) ?_
  have hlt : ‖((k : ℝ)⁻¹)‖ < 1 := by
    rw [Real.norm_eq_abs, abs_of_pos (by positivity), inv_lt_one₀ (by linarith)]
    linarith
  simpa [one_div] using Real.hasSum_arctan hlt

theorem spanPi_has (p : Nat) : (spanPi p).has p Real.pi := by
  have h5 := (atan_has p (k := 5) (by norm_num)).scale 16
  have h239 := ((atan_has p (k := 239) (by norm_num)).scale 4).neg
  have h := h5.add h239
  have e : ((16 : Nat) : ℝ) * Real.arctan (((5 : Nat) : ℝ)⁻¹) + -(((4 : Nat) : ℝ) * Real.arctan (((239 : Nat) : ℝ)⁻¹)) = Real.pi := by
    have := Real.four_mul_arctan_inv_5_sub_arctan_inv_239
    push_cast
    linarith
  rw [e] at h
  exact h

/-- The inverse hyperbolic tangent, by logarithms. -/
theorem artanh_has (p : Nat) {num den : Nat} (hd : den ≠ 0) (hx : 2 * num ≤ den) :
    (oddSeries p false num den).has p ((Real.log (1 + (num : ℝ) / den) - Real.log (1 - (num : ℝ) / den)) / 2) := by
  refine oddSeries_has hd hx ?_
  have hdr : (0 : ℝ) < den := by exact_mod_cast Nat.pos_of_ne_zero hd
  have hlt : |(num : ℝ) / den| < 1 := by
    rw [abs_of_nonneg (by positivity), div_lt_one hdr]
    have : ((2 * num : Nat) : ℝ) ≤ den := by exact_mod_cast hx
    push_cast at this
    linarith
  have := (Real.hasSum_log_sub_log_of_abs_lt_one hlt).div_const 2
  refine this.congr_fun ?_ |> id
  intro i
  simp
  ring

theorem spanLog_has (p : Nat) {n : Nat} (hn : n ≠ 0) : (spanLog p n).has p (Real.log n) := by
  have hl1 : 2 ^ Nat.log2 n ≤ n := Nat.log2_self_le hn
  have hl2 : n < 2 ^ (Nat.log2 n + 1) := Nat.lt_log2_self
  unfold spanLog
  simp only
  generalize Nat.log2 n = k at *
  have h1 := (artanh_has p (num := 1) (den := 3) (by norm_num) (by norm_num)).scale (2 * k)
  have h2 := (artanh_has p (num := n - 2 ^ k) (den := n + 2 ^ k) (by omega) (by rw [pow_succ] at hl2; omega)).scale 2
  have h := h1.add h2
  have hK : (0 : ℝ) < 2 ^ k := by positivity
  have hnr : (0 : ℝ) < n := by exact_mod_cast Nat.pos_of_ne_zero hn
  have e1 : Real.log (1 + ((1 : Nat) : ℝ) / ((3 : Nat) : ℝ)) - Real.log (1 - ((1 : Nat) : ℝ) / ((3 : Nat) : ℝ)) = Real.log 2 := by
    rw [← Real.log_div (by norm_num) (by norm_num)]
    norm_num
  have e2 : Real.log (1 + ((n - 2 ^ k : Nat) : ℝ) / ((n + 2 ^ k : Nat) : ℝ)) - Real.log (1 - ((n - 2 ^ k : Nat) : ℝ) / ((n + 2 ^ k : Nat) : ℝ)) =
      Real.log (n / 2 ^ k) := by
    rw [Nat.cast_sub hl1]
    push_cast
    have hs : (0 : ℝ) < n + 2 ^ k := by positivity
    have a1 : 1 + ((n : ℝ) - 2 ^ k) / (n + 2 ^ k) = 2 * n / (n + 2 ^ k) := by field_simp; ring
    have a2 : 1 - ((n : ℝ) - 2 ^ k) / (n + 2 ^ k) = 2 * 2 ^ k / (n + 2 ^ k) := by field_simp; ring
    rw [a1, a2, ← Real.log_div (by positivity) (by positivity)]
    congr 1
    field_simp
  rw [e1, e2, Real.log_div hnr.ne' hK.ne', Real.log_pow] at h
  have e3 : ((2 * k : Nat) : ℝ) * (Real.log 2 / 2) + ((2 : Nat) : ℝ) * ((Real.log n - k * Real.log 2) / 2) = Real.log n := by
    push_cast
    ring
  rwa [e3] at h

end Sys2Proof.Machine
end

