-- ==== Sys2Proof/Laws/CoefSound.lean ====
section
/-! SUPPORT. The enclosure of a coefficient expression contains its exact real value, at every precision from 32 up. -/

namespace Sys2Proof.Machine

/-- The enclosure contains the real `r` at precision `p`. -/
def Enclosure.contains (p : Nat) : Enclosure → ℝ → Prop
  | .ratio n d, r => d ≠ 0 ∧ r = (n : ℝ) / d
  | .piRatio n d, r => d ≠ 0 ∧ r = (n : ℝ) / d * Real.pi
  | .span lo hi, r => Span.has p ⟨lo, hi⟩ r

theorem toSpan_has {p : Nat} {x : Enclosure} {r : ℝ} (h : x.contains p r) : (toSpan p x).has p r := by
  cases x with
  | ratio n d => obtain ⟨hd, rfl⟩ := h; exact Span.has_ratio p n hd
  | piRatio n d => obtain ⟨hd, rfl⟩ := h; exact (Span.has_ratio p n hd).mul (spanPi_has p)
  | span lo hi => exact h

theorem ofSpan_contains {p : Nat} {x : Span} {r : ℝ} (h : x.has p r) : (ofSpan x).contains p r := h

theorem encAdd_contains {p : Nat} {x y : Enclosure} {r s : ℝ} (hx : x.contains p r) (hy : y.contains p s) :
    (encAdd p x y).contains p (r + s) := by
  unfold encAdd
  split
  · obtain ⟨hd, rfl⟩ := hx
    obtain ⟨he, rfl⟩ := hy
    refine ⟨mul_ne_zero hd he, ?_⟩
    have hd' : (_ : ℝ) ≠ 0 := Nat.cast_ne_zero.2 hd
    have he' : (_ : ℝ) ≠ 0 := Nat.cast_ne_zero.2 he
    push_cast
    field_simp
  · obtain ⟨hd, rfl⟩ := hx
    obtain ⟨he, rfl⟩ := hy
    refine ⟨mul_ne_zero hd he, ?_⟩
    have hd' : (_ : ℝ) ≠ 0 := Nat.cast_ne_zero.2 hd
    have he' : (_ : ℝ) ≠ 0 := Nat.cast_ne_zero.2 he
    push_cast
    field_simp
  · exact ofSpan_contains ((toSpan_has hx).add (toSpan_has hy))

theorem encNeg_contains {p : Nat} {x : Enclosure} {r : ℝ} (hx : x.contains p r) : (encNeg x).contains p (-r) := by
  cases x with
  | ratio n d => obtain ⟨hd, rfl⟩ := hx; exact ⟨hd, by push_cast; ring⟩
  | piRatio n d => obtain ⟨hd, rfl⟩ := hx; exact ⟨hd, by push_cast; ring⟩
  | span lo hi => exact Span.has.neg (x := ⟨lo, hi⟩) hx

theorem encMul_contains {p : Nat} {x y : Enclosure} {r s : ℝ} (hx : x.contains p r) (hy : y.contains p s) :
    (encMul p x y).contains p (r * s) := by
  unfold encMul
  split
  · obtain ⟨hd, rfl⟩ := hx
    obtain ⟨he, rfl⟩ := hy
    refine ⟨mul_ne_zero hd he, ?_⟩
    push_cast
    rw [div_mul_div_comm]
  · obtain ⟨hd, rfl⟩ := hx
    obtain ⟨he, rfl⟩ := hy
    refine ⟨mul_ne_zero hd he, ?_⟩
    push_cast
    rw [← div_mul_div_comm, mul_assoc]
  · obtain ⟨hd, rfl⟩ := hx
    obtain ⟨he, rfl⟩ := hy
    refine ⟨mul_ne_zero hd he, ?_⟩
    push_cast
    rw [← div_mul_div_comm]
    ring
  · obtain ⟨hd, rfl⟩ := hx
    exact ⟨one_ne_zero, by simp⟩
  · obtain ⟨hd, rfl⟩ := hy
    exact ⟨one_ne_zero, by simp⟩
  · exact ofSpan_contains ((toSpan_has hx).mul (toSpan_has hy))

theorem encDiv_contains {p : Nat} {x y z : Enclosure} {r s : ℝ} (hx : x.contains p r) (hy : y.contains p s)
    (h : encDiv p x y = some z) : z.contains p (r / s) := by
  have hspan : ∀ w, spanInv p (toSpan p y) = some w → (encMul p x (ofSpan w)).contains p (r / s) := by
    intro w hw
    rw [div_eq_mul_inv]
    exact encMul_contains hx (ofSpan_contains ((toSpan_has hy).inv hw).2)
  unfold encDiv at h
  split at h
  · next n d =>
    split at h
    · cases h
    · next hn =>
      cases h
      obtain ⟨hd, rfl⟩ := hy
      rw [div_eq_mul_inv]
      refine encMul_contains hx ⟨Int.natAbs_ne_zero.2 hn, ?_⟩
      have hd' : (d : ℝ) ≠ 0 := Nat.cast_ne_zero.2 hd
      have hn' : (n : ℝ) ≠ 0 := Int.cast_ne_zero.2 hn
      have ha : ((n.natAbs : Nat) : ℝ) = |(n : ℝ)| := by rw [Nat.cast_natAbs, Int.cast_abs]
      unfold ratioInv
      simp only
      rw [ha]
      split
      · next hlt =>
        rw [abs_of_neg (by exact_mod_cast hlt)]
        push_cast
        field_simp
      · next hlt =>
        rw [abs_of_nonneg (by exact_mod_cast not_lt.1 hlt)]
        push_cast
        field_simp
  · obtain ⟨w, hw, rfl⟩ := Option.map_eq_some_iff.1 h
    exact hspan w hw

theorem encMin_contains {p : Nat} {x y : Enclosure} {r s : ℝ} (hx : x.contains p r) (hy : y.contains p s) :
    (encMin p x y).contains p (min r s) := by
  have h1 := toSpan_has hx
  have h2 := toSpan_has hy
  have hP := two_pow_pos p
  unfold encMin
  simp only
  split
  · next h =>
    have h' : ((toSpan p x).hi : ℝ) ≤ (toSpan p y).lo := by exact_mod_cast h
    rwa [min_eq_left (le_of_mul_le_mul_right (le_trans h1.2 (le_trans h' h2.1)) hP)]
  · split
    · next h =>
      have h' : ((toSpan p y).hi : ℝ) ≤ (toSpan p x).lo := by exact_mod_cast h
      rwa [min_eq_right (le_of_mul_le_mul_right (le_trans h2.2 (le_trans h' h1.1)) hP)]
    · unfold Enclosure.contains Span.has
      simp only
      rw [min_mul_of_nonneg _ _ hP.le]
      push_cast
      exact ⟨min_le_min h1.1 h2.1, min_le_min h1.2 h2.2⟩

theorem exactSin_contains {n : Int} {d : Nat} {z : Enclosure} (p : Nat) (hd : d ≠ 0) (h : exactSin n d = some z) :
    z.contains p (Real.sin ((n : ℝ) / d * Real.pi)) := by
  have hd' : (d : ℝ) ≠ 0 := Nat.cast_ne_zero.2 hd
  unfold exactSin at h
  split at h
  · next hn => cases h; subst hn; exact ⟨one_ne_zero, by simp⟩
  · split at h
    · next hn =>
      cases h
      have : (6 : ℝ) * n = d := by exact_mod_cast hn
      refine ⟨two_ne_zero, ?_⟩
      rw [show (n : ℝ) / d * Real.pi = Real.pi / 6 by rw [← this] at hd' ⊢; field_simp, Real.sin_pi_div_six]
      norm_num
    · split at h
      · next hn =>
        cases h
        have : (2 : ℝ) * n = d := by exact_mod_cast hn
        refine ⟨one_ne_zero, ?_⟩
        rw [show (n : ℝ) / d * Real.pi = Real.pi / 2 by rw [← this] at hd' ⊢; field_simp, Real.sin_pi_div_two]
        norm_num
      · cases h

theorem exactCos_contains {n : Int} {d : Nat} {z : Enclosure} (p : Nat) (hd : d ≠ 0) (h : exactCos n d = some z) :
    z.contains p (Real.cos ((n : ℝ) / d * Real.pi)) := by
  have hd' : (d : ℝ) ≠ 0 := Nat.cast_ne_zero.2 hd
  unfold exactCos at h
  split at h
  · next hn => cases h; subst hn; exact ⟨one_ne_zero, by simp⟩
  · split at h
    · next hn =>
      cases h
      have : (3 : ℝ) * n = d := by exact_mod_cast hn
      refine ⟨two_ne_zero, ?_⟩
      rw [show (n : ℝ) / d * Real.pi = Real.pi / 3 by rw [← this] at hd' ⊢; field_simp, Real.cos_pi_div_three]
      norm_num
    · split at h
      · next hn =>
        cases h
        have : (2 : ℝ) * n = d := by exact_mod_cast hn
        refine ⟨one_ne_zero, ?_⟩
        rw [show (n : ℝ) / d * Real.pi = Real.pi / 2 by rw [← this] at hd' ⊢; field_simp, Real.cos_pi_div_two]
        norm_num
      · split at h
        · next hn =>
          cases h
          have : (n : ℝ) = d := by exact_mod_cast hn
          refine ⟨one_ne_zero, ?_⟩
          rw [this, div_self hd', one_mul, Real.cos_pi]
          norm_num
        · cases h

theorem encSin_contains {p : Nat} {x z : Enclosure} {r : ℝ} (hx : x.contains p r) (h : encSin p x = some z) :
    z.contains p (Real.sin r) := by
  have hspan : (spanSin p (toSpan p x)).map ofSpan = some z → z.contains p (Real.sin r) := by
    intro hs
    obtain ⟨w, hw, rfl⟩ := Option.map_eq_some_iff.1 hs
    exact ofSpan_contains (spanSin_has (toSpan_has hx) hw)
  unfold encSin at h
  split at h
  · next n d =>
    obtain ⟨hd, rfl⟩ := hx
    cases he : exactSin n d with
    | some w =>
      rw [he] at h
      cases h
      exact exactSin_contains p hd he
    | none =>
      rw [he] at h
      exact hspan h
  · exact hspan h

theorem encCos_contains {p : Nat} {x z : Enclosure} {r : ℝ} (hx : x.contains p r) (h : encCos p x = some z) :
    z.contains p (Real.cos r) := by
  have hspan : (spanCos p (toSpan p x)).map ofSpan = some z → z.contains p (Real.cos r) := by
    intro hs
    obtain ⟨w, hw, rfl⟩ := Option.map_eq_some_iff.1 hs
    exact ofSpan_contains (spanCos_has (toSpan_has hx) hw)
  unfold encCos at h
  split at h
  · next n d =>
    obtain ⟨hd, rfl⟩ := hx
    cases he : exactCos n d with
    | some w =>
      rw [he] at h
      cases h
      exact exactCos_contains p hd he
    | none =>
      rw [he] at h
      exact hspan h
  · exact hspan h

theorem encPow_contains {p base : Nat} (hp : 32 ≤ p) {x z : Enclosure} {r : ℝ} (hx : x.contains p r)
    (h : encPow p base x = some z) : z.contains p ((base : ℝ) ^ r) := by
  unfold encPow at h
  split at h
  · cases h
  · next hb =>
    have hb0 : (0 : ℝ) < base := by exact_mod_cast Nat.pos_of_ne_zero hb
    have hspan : (spanPow p base (toSpan p x)).map ofSpan = some z → z.contains p ((base : ℝ) ^ r) := by
      intro hs
      obtain ⟨w, hw, rfl⟩ := Option.map_eq_some_iff.1 hs
      have := spanExp_has hp ((toSpan_has hx).mul (spanLog_has p hb)) hw
      rw [Real.rpow_def_of_pos hb0, mul_comm]
      exact ofSpan_contains this
    split at h
    · next n d =>
      split at h
      · next hnd =>
        obtain ⟨hd, rfl⟩ := hx
        have hd' : (d : ℝ) ≠ 0 := Nat.cast_ne_zero.2 hd
        have hq : (n : ℝ) / d = ((n / (d : Int) : Int) : ℝ) := by
          have h1 : (d : Int) * (n / (d : Int)) = n := Int.mul_ediv_cancel' (Int.dvd_of_emod_eq_zero hnd)
          have h2 : (d : ℝ) * ((n / (d : Int) : Int) : ℝ) = n := by exact_mod_cast h1
          rw [div_eq_iff hd']
          linarith
        rw [hq, Real.rpow_intCast]
        have hdpos : (0 : Int) < d := by exact_mod_cast Nat.pos_of_ne_zero hd
        split at h
        · next hn =>
          cases h
          refine ⟨one_ne_zero, ?_⟩
          have h3 : 0 ≤ n / (d : Int) := Int.ediv_nonneg hn hdpos.le
          generalize n / (d : Int) = q at *
          obtain ⟨k, rfl⟩ := Int.eq_ofNat_of_zero_le h3
          push_cast
          simp
        · next hn =>
          cases h
          have h3 : n / (d : Int) < 0 := Int.ediv_neg_of_neg_of_pos (by omega) hdpos
          generalize n / (d : Int) = q at *
          obtain ⟨k, hk⟩ := Int.eq_ofNat_of_zero_le (show 0 ≤ -q by omega)
          have hq2 : q = -(k : Int) := by omega
          subst hq2
          refine ⟨pow_ne_zero _ hb, ?_⟩
          push_cast
          simp
      · exact hspan h
    · exact hspan h

theorem encF32_contains {p : Nat} {v : F32} {x : Enclosure} (h : encF32 v = some x) : x.contains p (f32Value v) := by
  cases hu : unpack v with
  | nan => simp [encF32, hu] at h
  | inf neg => simp [encF32, hu] at h
  | fin neg m e =>
    have hv : f32Value v = (if neg then -1 else 1) * (m : ℝ) * (2 : ℝ) ^ e := by simp [f32Value, hu]
    rw [hv]
    have hs : ((if neg then -(m : Int) else (m : Int) : Int) : ℝ) = (if neg then -1 else 1) * (m : ℝ) := by
      cases neg <;> simp
    simp only [encF32, hu] at h
    split at h
    · next he =>
      cases h
      refine ⟨one_ne_zero, ?_⟩
      obtain ⟨k, rfl⟩ := Int.eq_ofNat_of_zero_le he
      rw [Int.cast_mul, hs]
      simp
    · next he =>
      cases h
      refine ⟨by positivity, ?_⟩
      obtain ⟨k, hk⟩ := Int.eq_ofNat_of_zero_le (show 0 ≤ -e by omega)
      have he2 : e = -(k : Int) := by omega
      subst he2
      rw [hs]
      simp [div_eq_mul_inv]

/-- A coefficient from a rational is the rational rounded once; a zero of either sign is as near as `+0.0` (log 24). -/
theorem roundCoef_spec (num : Int) {den : Nat} (hd : den ≠ 0) : RoundsTo ((num : ℝ) / (den : ℝ)) (roundCoef num den) := by
  have h := roundRatio_spec num hd
  unfold roundCoef
  simp only
  split
  · next hz =>
    rw [hz] at h
    have hv : f32Value 0x00000000#32 = f32Value 0x80000000#32 := by
      have h1 : unpack 0x80000000#32 = .fin true 0 (-149) := by decide
      have h2 : unpack 0x00000000#32 = .fin false 0 (-149) := by decide
      simp [f32Value, h1, h2]
    refine ⟨fun hr => ⟨by decide, fun w hw => ?_⟩, fun hr => absurd (h.2.1 hr) (by decide),
      fun hr => absurd (h.2.2 hr) (by decide)⟩
    have h3 := ((h.1 hr).2 w hw).1
    rw [hv]
    exact ⟨h3, fun _ _ => by decide⟩
  · exact h

/-- The enclosure of an expression contains its exact real value (00_scope R15). -/
theorem enclose_contains {p : Nat} (hp : 32 ≤ p) : ∀ (e : RealExpr) (x : Enclosure), enclose p e = some x →
    x.contains p (exprValue e) := by
  intro e
  induction e with
  | rat n d =>
    intro x h
    unfold enclose at h
    split at h
    · cases h
    · next hd => cases h; exact ⟨hd, rfl⟩
  | f32 v => intro x h; exact encF32_contains h
  | pi => intro x h; cases h; exact ⟨one_ne_zero, by simp [exprValue]⟩
  | add a b iha ihb =>
    intro x h
    obtain ⟨u, hu, h⟩ := Option.bind_eq_some_iff.1 h
    obtain ⟨v, hv, rfl⟩ := Option.map_eq_some_iff.1 h
    exact encAdd_contains (iha u hu) (ihb v hv)
  | sub a b iha ihb =>
    intro x h
    obtain ⟨u, hu, h⟩ := Option.bind_eq_some_iff.1 h
    obtain ⟨v, hv, rfl⟩ := Option.map_eq_some_iff.1 h
    have := encAdd_contains (iha u hu) (encNeg_contains (ihb v hv))
    rwa [← sub_eq_add_neg] at this
  | mul a b iha ihb =>
    intro x h
    obtain ⟨u, hu, h⟩ := Option.bind_eq_some_iff.1 h
    obtain ⟨v, hv, rfl⟩ := Option.map_eq_some_iff.1 h
    exact encMul_contains (iha u hu) (ihb v hv)
  | div a b iha ihb =>
    intro x h
    obtain ⟨u, hu, h⟩ := Option.bind_eq_some_iff.1 h
    obtain ⟨v, hv, h⟩ := Option.bind_eq_some_iff.1 h
    exact encDiv_contains (iha u hu) (ihb v hv) h
  | min a b iha ihb =>
    intro x h
    obtain ⟨u, hu, h⟩ := Option.bind_eq_some_iff.1 h
    obtain ⟨v, hv, rfl⟩ := Option.map_eq_some_iff.1 h
    exact encMin_contains (iha u hu) (ihb v hv)
  | sqrt a ih =>
    intro x h
    obtain ⟨u, hu, h⟩ := Option.bind_eq_some_iff.1 h
    obtain ⟨v, hv, rfl⟩ := Option.map_eq_some_iff.1 h
    exact ofSpan_contains ((toSpan_has (ih u hu)).sqrt hv)
  | exp a ih =>
    intro x h
    obtain ⟨u, hu, h⟩ := Option.bind_eq_some_iff.1 h
    obtain ⟨v, hv, rfl⟩ := Option.map_eq_some_iff.1 h
    exact ofSpan_contains (spanExp_has hp (toSpan_has (ih u hu)) hv)
  | sin a ih =>
    intro x h
    obtain ⟨u, hu, h⟩ := Option.bind_eq_some_iff.1 h
    exact encSin_contains (ih u hu) h
  | cos a ih =>
    intro x h
    obtain ⟨u, hu, h⟩ := Option.bind_eq_some_iff.1 h
    exact encCos_contains (ih u hu) h
  | pow base a ih =>
    intro x h
    obtain ⟨u, hu, h⟩ := Option.bind_eq_some_iff.1 h
    exact encPow_contains hp (ih u hu) h

end Sys2Proof.Machine
end

