-- ==== Sys2Proof/Laws/State.lean ====
section
/-! SUPPORT. One lemma per field per update of the state: what each shared operation writes, and that it leaves every other field. No later proof unfolds a record update. -/

namespace Sys2Proof.Machine

@[simp] theorem reply_live (s : State) (status : Status) (data : Option Word) : (reply s status data).live = s.live := rfl
@[simp] theorem reply_fault (s : State) (status : Status) (data : Option Word) : (reply s status data).fault = s.fault := rfl
@[simp] theorem reply_busy (s : State) (status : Status) (data : Option Word) : (reply s status data).busy = s.busy := rfl
@[simp] theorem reply_params (s : State) (status : Status) (data : Option Word) : (reply s status data).params = s.params := rfl
@[simp] theorem reply_work (s : State) (status : Status) (data : Option Word) : (reply s status data).work = s.work := rfl
@[simp] theorem reply_flight (s : State) (status : Status) (data : Option Word) : (reply s status data).flight = s.flight := rfl
@[simp] theorem reply_mem (s : State) (status : Status) (data : Option Word) : (reply s status data).mem = s.mem := rfl
@[simp] theorem reply_ctl (s : State) (status : Status) (data : Option Word) : (reply s status data).ctl = s.ctl := rfl
@[simp] theorem reply_aud (s : State) (status : Status) (data : Option Word) : (reply s status data).aud = s.aud := rfl
@[simp] theorem reply_issuer (s : State) (status : Status) (data : Option Word) : (reply s status data).issuer = s.issuer := rfl
@[simp] theorem reply_turns (s : State) (status : Status) (data : Option Word) : (reply s status data).turns = s.turns := rfl
@[simp] theorem reply_replies (s : State) (status : Status) (data : Option Word) : (reply s status data).replies = ⟨s.issuer, status, data⟩ :: s.replies := rfl
@[simp] theorem reply_outputs (s : State) (status : Status) (data : Option Word) : (reply s status data).outputs = s.outputs := rfl
@[simp] theorem reply_config (s : State) (status : Status) (data : Option Word) : (reply s status data).config = s.config := rfl
@[simp] theorem reply_allocDraws (s : State) (status : Status) (data : Option Word) : (reply s status data).allocDraws = s.allocDraws := rfl

@[simp] theorem raiseFault_live (s : State) (reason : FaultReason) : (raiseFault s reason).live = s.live := rfl
@[simp] theorem raiseFault_fault (s : State) (reason : FaultReason) : (raiseFault s reason).fault = some (s.fault.getD reason) := rfl
@[simp] theorem raiseFault_busy (s : State) (reason : FaultReason) : (raiseFault s reason).busy = s.busy := rfl
@[simp] theorem raiseFault_params (s : State) (reason : FaultReason) : (raiseFault s reason).params = s.params := rfl
@[simp] theorem raiseFault_work (s : State) (reason : FaultReason) : (raiseFault s reason).work = s.work := rfl
@[simp] theorem raiseFault_flight (s : State) (reason : FaultReason) : (raiseFault s reason).flight = s.flight := rfl
@[simp] theorem raiseFault_mem (s : State) (reason : FaultReason) : (raiseFault s reason).mem = s.mem := rfl
@[simp] theorem raiseFault_ctl (s : State) (reason : FaultReason) : (raiseFault s reason).ctl = s.ctl := rfl
@[simp] theorem raiseFault_aud (s : State) (reason : FaultReason) : (raiseFault s reason).aud = s.aud := rfl
@[simp] theorem raiseFault_issuer (s : State) (reason : FaultReason) : (raiseFault s reason).issuer = s.issuer := rfl
@[simp] theorem raiseFault_turns (s : State) (reason : FaultReason) : (raiseFault s reason).turns = s.turns := rfl
@[simp] theorem raiseFault_replies (s : State) (reason : FaultReason) : (raiseFault s reason).replies = s.replies := rfl
@[simp] theorem raiseFault_outputs (s : State) (reason : FaultReason) : (raiseFault s reason).outputs = s.outputs := rfl
@[simp] theorem raiseFault_config (s : State) (reason : FaultReason) : (raiseFault s reason).config = s.config := rfl
@[simp] theorem raiseFault_allocDraws (s : State) (reason : FaultReason) : (raiseFault s reason).allocDraws = s.allocDraws := rfl

@[simp] theorem zeroState_live (s : State) : (zeroState s).live = s.live := rfl
@[simp] theorem zeroState_fault (s : State) : (zeroState s).fault = s.fault := rfl
@[simp] theorem zeroState_busy (s : State) : (zeroState s).busy = s.busy := rfl
@[simp] theorem zeroState_params (s : State) : (zeroState s).params = s.params := rfl
@[simp] theorem zeroState_work (s : State) : (zeroState s).work = .zero := rfl
@[simp] theorem zeroState_flight (s : State) : (zeroState s).flight = s.flight := rfl
@[simp] theorem zeroState_mem (s : State) : (zeroState s).mem = s.mem := rfl
@[simp] theorem zeroState_ctl (s : State) : (zeroState s).ctl = s.ctl := rfl
@[simp] theorem zeroState_aud (s : State) : (zeroState s).aud = s.aud := rfl
@[simp] theorem zeroState_issuer (s : State) : (zeroState s).issuer = s.issuer := rfl
@[simp] theorem zeroState_turns (s : State) : (zeroState s).turns = s.turns := rfl
@[simp] theorem zeroState_replies (s : State) : (zeroState s).replies = s.replies := rfl
@[simp] theorem zeroState_outputs (s : State) : (zeroState s).outputs = s.outputs := rfl
@[simp] theorem zeroState_config (s : State) : (zeroState s).config = s.config := rfl
@[simp] theorem zeroState_allocDraws (s : State) : (zeroState s).allocDraws = s.allocDraws := rfl

@[simp] theorem createInstance_live (s : State) : (createInstance s).live = true := rfl
@[simp] theorem createInstance_fault (s : State) : (createInstance s).fault = s.fault := rfl
@[simp] theorem createInstance_busy (s : State) : (createInstance s).busy = false := rfl
@[simp] theorem createInstance_params (s : State) : (createInstance s).params = createParams := rfl
@[simp] theorem createInstance_work (s : State) : (createInstance s).work = .zero := rfl
@[simp] theorem createInstance_flight (s : State) : (createInstance s).flight = s.flight := rfl
@[simp] theorem createInstance_mem (s : State) : (createInstance s).mem = s.mem := rfl
@[simp] theorem createInstance_ctl (s : State) : (createInstance s).ctl = s.ctl := rfl
@[simp] theorem createInstance_aud (s : State) : (createInstance s).aud = s.aud := rfl
@[simp] theorem createInstance_issuer (s : State) : (createInstance s).issuer = s.issuer := rfl
@[simp] theorem createInstance_turns (s : State) : (createInstance s).turns = s.turns := rfl
@[simp] theorem createInstance_replies (s : State) : (createInstance s).replies = s.replies := rfl
@[simp] theorem createInstance_outputs (s : State) : (createInstance s).outputs = s.outputs := rfl
@[simp] theorem createInstance_config (s : State) : (createInstance s).config = s.config := rfl
@[simp] theorem createInstance_allocDraws (s : State) : (createInstance s).allocDraws = s.allocDraws := rfl

@[simp] theorem beginProcess_live (base frames rate : Word) (s : State) : (beginProcess base frames rate s).live = s.live := rfl
@[simp] theorem beginProcess_fault (base frames rate : Word) (s : State) : (beginProcess base frames rate s).fault = s.fault := rfl
@[simp] theorem beginProcess_busy (base frames rate : Word) (s : State) : (beginProcess base frames rate s).busy = true := rfl
@[simp] theorem beginProcess_params (base frames rate : Word) (s : State) : (beginProcess base frames rate s).params = s.params := rfl
@[simp] theorem beginProcess_work (base frames rate : Word) (s : State) : (beginProcess base frames rate s).work = s.work := rfl
@[simp] theorem beginProcess_flight (base frames rate : Word) (s : State) : (beginProcess base frames rate s).flight = ⟨s.params, coefficients s.config s.params (rateHz rate), 0, frames, base, rate, s.issuer⟩ := rfl
@[simp] theorem beginProcess_mem (base frames rate : Word) (s : State) : (beginProcess base frames rate s).mem = s.mem := rfl
@[simp] theorem beginProcess_ctl (base frames rate : Word) (s : State) : (beginProcess base frames rate s).ctl = s.ctl := rfl
@[simp] theorem beginProcess_aud (base frames rate : Word) (s : State) : (beginProcess base frames rate s).aud = s.aud := rfl
@[simp] theorem beginProcess_issuer (base frames rate : Word) (s : State) : (beginProcess base frames rate s).issuer = s.issuer := rfl
@[simp] theorem beginProcess_turns (base frames rate : Word) (s : State) : (beginProcess base frames rate s).turns = s.turns := rfl
@[simp] theorem beginProcess_replies (base frames rate : Word) (s : State) : (beginProcess base frames rate s).replies = s.replies := rfl
@[simp] theorem beginProcess_outputs (base frames rate : Word) (s : State) : (beginProcess base frames rate s).outputs = s.outputs := rfl
@[simp] theorem beginProcess_config (base frames rate : Word) (s : State) : (beginProcess base frames rate s).config = s.config := rfl
@[simp] theorem beginProcess_allocDraws (base frames rate : Word) (s : State) : (beginProcess base frames rate s).allocDraws = s.allocDraws := rfl

@[simp] theorem endStep_live (s : State) : (endStep s).live = s.live := rfl
@[simp] theorem endStep_fault (s : State) : (endStep s).fault = s.fault := rfl
@[simp] theorem endStep_busy (s : State) : (endStep s).busy = false := rfl
@[simp] theorem endStep_params (s : State) : (endStep s).params = s.params := rfl
@[simp] theorem endStep_work (s : State) : (endStep s).work = s.work := rfl
@[simp] theorem endStep_flight (s : State) : (endStep s).flight = s.flight := rfl
@[simp] theorem endStep_mem (s : State) : (endStep s).mem = s.mem := rfl
@[simp] theorem endStep_ctl (s : State) : (endStep s).ctl = s.ctl := rfl
@[simp] theorem endStep_aud (s : State) : (endStep s).aud = s.aud := rfl
@[simp] theorem endStep_issuer (s : State) : (endStep s).issuer = s.issuer := rfl
@[simp] theorem endStep_turns (s : State) : (endStep s).turns = s.turns := rfl
@[simp] theorem endStep_replies (s : State) : (endStep s).replies = ⟨s.flight.issuer, .ok, none⟩ :: s.replies := rfl
@[simp] theorem endStep_outputs (s : State) : (endStep s).outputs = ⟨s.flight.base, s.flight.frames, bufferBytes s⟩ :: s.outputs := rfl
@[simp] theorem endStep_config (s : State) : (endStep s).config = s.config := rfl
@[simp] theorem endStep_allocDraws (s : State) : (endStep s).allocDraws = s.allocDraws := rfl

@[simp] theorem withPort_live (s : State) (a : Agent) (ws : List Word) : (withPort s a ws).live = s.live := by
  cases a <;> rfl
@[simp] theorem withPort_fault (s : State) (a : Agent) (ws : List Word) : (withPort s a ws).fault = s.fault := by
  cases a <;> rfl
@[simp] theorem withPort_busy (s : State) (a : Agent) (ws : List Word) : (withPort s a ws).busy = s.busy := by
  cases a <;> rfl
@[simp] theorem withPort_params (s : State) (a : Agent) (ws : List Word) : (withPort s a ws).params = s.params := by
  cases a <;> rfl
@[simp] theorem withPort_work (s : State) (a : Agent) (ws : List Word) : (withPort s a ws).work = s.work := by
  cases a <;> rfl
@[simp] theorem withPort_flight (s : State) (a : Agent) (ws : List Word) : (withPort s a ws).flight = s.flight := by
  cases a <;> rfl
@[simp] theorem withPort_mem (s : State) (a : Agent) (ws : List Word) : (withPort s a ws).mem = s.mem := by
  cases a <;> rfl
@[simp] theorem withPort_issuer (s : State) (a : Agent) (ws : List Word) : (withPort s a ws).issuer = s.issuer := by
  cases a <;> rfl
@[simp] theorem withPort_turns (s : State) (a : Agent) (ws : List Word) : (withPort s a ws).turns = s.turns := by
  cases a <;> rfl
@[simp] theorem withPort_replies (s : State) (a : Agent) (ws : List Word) : (withPort s a ws).replies = s.replies := by
  cases a <;> rfl
@[simp] theorem withPort_outputs (s : State) (a : Agent) (ws : List Word) : (withPort s a ws).outputs = s.outputs := by
  cases a <;> rfl
@[simp] theorem withPort_config (s : State) (a : Agent) (ws : List Word) : (withPort s a ws).config = s.config := by
  cases a <;> rfl
@[simp] theorem withPort_allocDraws (s : State) (a : Agent) (ws : List Word) : (withPort s a ws).allocDraws = s.allocDraws := by
  cases a <;> rfl
@[simp] theorem portOf_withPort (s : State) (a : Agent) (ws : List Word) : portOf (withPort s a ws) a = ws := by
  cases a <;> rfl
@[simp] theorem withPort_portOf (s : State) (a : Agent) : withPort s a (portOf s a) = s := by
  cases a <;> rfl
@[simp] theorem withPort_withPort (s : State) (a : Agent) (v ws : List Word) :
    withPort (withPort s a v) a ws = withPort s a ws := by
  cases a <;> rfl

@[simp] theorem setReg_live (r : Reg) (data : Word) (s : State) : (setReg r data s).live = s.live := by
  unfold setReg; split <;> rfl
@[simp] theorem setReg_fault (r : Reg) (data : Word) (s : State) : (setReg r data s).fault = s.fault := by
  unfold setReg; split <;> rfl
@[simp] theorem setReg_busy (r : Reg) (data : Word) (s : State) : (setReg r data s).busy = s.busy := by
  unfold setReg; split <;> rfl
@[simp] theorem setReg_work (r : Reg) (data : Word) (s : State) : (setReg r data s).work = s.work := by
  unfold setReg; split <;> rfl
@[simp] theorem setReg_flight (r : Reg) (data : Word) (s : State) : (setReg r data s).flight = s.flight := by
  unfold setReg; split <;> rfl
@[simp] theorem setReg_mem (r : Reg) (data : Word) (s : State) : (setReg r data s).mem = s.mem := by
  unfold setReg; split <;> rfl
@[simp] theorem setReg_ctl (r : Reg) (data : Word) (s : State) : (setReg r data s).ctl = s.ctl := by
  unfold setReg; split <;> rfl
@[simp] theorem setReg_aud (r : Reg) (data : Word) (s : State) : (setReg r data s).aud = s.aud := by
  unfold setReg; split <;> rfl
@[simp] theorem setReg_issuer (r : Reg) (data : Word) (s : State) : (setReg r data s).issuer = s.issuer := by
  unfold setReg; split <;> rfl
@[simp] theorem setReg_turns (r : Reg) (data : Word) (s : State) : (setReg r data s).turns = s.turns := by
  unfold setReg; split <;> rfl
@[simp] theorem setReg_outputs (r : Reg) (data : Word) (s : State) : (setReg r data s).outputs = s.outputs := by
  unfold setReg; split <;> rfl
@[simp] theorem setReg_config (r : Reg) (data : Word) (s : State) : (setReg r data s).config = s.config := by
  unfold setReg; split <;> rfl
@[simp] theorem setReg_allocDraws (r : Reg) (data : Word) (s : State) : (setReg r data s).allocDraws = s.allocDraws := by
  unfold setReg; split <;> rfl

@[simp] theorem getReg_live (r : Reg) (s : State) : (getReg r s).live = s.live := by
  unfold getReg; split <;> rfl
@[simp] theorem getReg_fault (r : Reg) (s : State) : (getReg r s).fault = s.fault := by
  unfold getReg; split <;> rfl
@[simp] theorem getReg_busy (r : Reg) (s : State) : (getReg r s).busy = s.busy := by
  unfold getReg; split <;> rfl
@[simp] theorem getReg_params (r : Reg) (s : State) : (getReg r s).params = s.params := by
  unfold getReg; split <;> rfl
@[simp] theorem getReg_work (r : Reg) (s : State) : (getReg r s).work = s.work := by
  unfold getReg; split <;> rfl
@[simp] theorem getReg_flight (r : Reg) (s : State) : (getReg r s).flight = s.flight := by
  unfold getReg; split <;> rfl
@[simp] theorem getReg_mem (r : Reg) (s : State) : (getReg r s).mem = s.mem := by
  unfold getReg; split <;> rfl
@[simp] theorem getReg_ctl (r : Reg) (s : State) : (getReg r s).ctl = s.ctl := by
  unfold getReg; split <;> rfl
@[simp] theorem getReg_aud (r : Reg) (s : State) : (getReg r s).aud = s.aud := by
  unfold getReg; split <;> rfl
@[simp] theorem getReg_issuer (r : Reg) (s : State) : (getReg r s).issuer = s.issuer := by
  unfold getReg; split <;> rfl
@[simp] theorem getReg_turns (r : Reg) (s : State) : (getReg r s).turns = s.turns := by
  unfold getReg; split <;> rfl
@[simp] theorem getReg_outputs (r : Reg) (s : State) : (getReg r s).outputs = s.outputs := by
  unfold getReg; split <;> rfl
@[simp] theorem getReg_config (r : Reg) (s : State) : (getReg r s).config = s.config := by
  unfold getReg; split <;> rfl
@[simp] theorem getReg_allocDraws (r : Reg) (s : State) : (getReg r s).allocDraws = s.allocDraws := by
  unfold getReg; split <;> rfl

@[simp] theorem drawAlloc_live (s : State) : (drawAlloc s).2.live = s.live := by
  unfold drawAlloc; split <;> rfl
@[simp] theorem drawAlloc_fault (s : State) : (drawAlloc s).2.fault = s.fault := by
  unfold drawAlloc; split <;> rfl
@[simp] theorem drawAlloc_busy (s : State) : (drawAlloc s).2.busy = s.busy := by
  unfold drawAlloc; split <;> rfl
@[simp] theorem drawAlloc_params (s : State) : (drawAlloc s).2.params = s.params := by
  unfold drawAlloc; split <;> rfl
@[simp] theorem drawAlloc_work (s : State) : (drawAlloc s).2.work = s.work := by
  unfold drawAlloc; split <;> rfl
@[simp] theorem drawAlloc_flight (s : State) : (drawAlloc s).2.flight = s.flight := by
  unfold drawAlloc; split <;> rfl
@[simp] theorem drawAlloc_mem (s : State) : (drawAlloc s).2.mem = s.mem := by
  unfold drawAlloc; split <;> rfl
@[simp] theorem drawAlloc_ctl (s : State) : (drawAlloc s).2.ctl = s.ctl := by
  unfold drawAlloc; split <;> rfl
@[simp] theorem drawAlloc_aud (s : State) : (drawAlloc s).2.aud = s.aud := by
  unfold drawAlloc; split <;> rfl
@[simp] theorem drawAlloc_issuer (s : State) : (drawAlloc s).2.issuer = s.issuer := by
  unfold drawAlloc; split <;> rfl
@[simp] theorem drawAlloc_turns (s : State) : (drawAlloc s).2.turns = s.turns := by
  unfold drawAlloc; split <;> rfl
@[simp] theorem drawAlloc_replies (s : State) : (drawAlloc s).2.replies = s.replies := by
  unfold drawAlloc; split <;> rfl

end Sys2Proof.Machine
end

