-- ==== Sys2Proof/Laws/Exec.lean ====
section
/-! SUPPORT. The laws of the parameter registers and of the SET and GET commands: one equation for each command, over its register. -/

namespace Sys2Proof.Machine

/-- What a register reads after a write: the value written to it, or what it held. -/
theorem readReg_writeReg (p : Params) (r r' : Reg) (v : Word) :
    readReg (writeReg p r v) r' = if r' = r then v else readReg p r' := by
  cases r <;> cases r' <;> rfl

@[simp] theorem readReg_writeReg_self (p : Params) (r : Reg) (v : Word) : readReg (writeReg p r v) r = v := by
  rw [readReg_writeReg, if_pos rfl]

/-- Writing back what a register holds changes nothing. -/
@[simp] theorem writeReg_readReg (p : Params) (r : Reg) : writeReg p r (readReg p r) = p := by
  cases r <;> rfl

/-- Two register files that read alike are equal. -/
theorem Params.ext_readReg {p q : Params} (h : ∀ r, readReg p r = readReg q r) : p = q := by
  obtain ⟨⟩ := p
  obtain ⟨⟩ := q
  simp only [Params.mk.injEq]
  exact ⟨h .distortionEnabled, h .distortionDrive, h .distortionMix, h .filterEnabled, h .filterCutoff, h .filterResonance, h .eqEnabled, h .eqLow, h .eqMid, h .eqHigh, h .compressorEnabled, h .compressorThreshold, h .compressorRatio, h .compressorAttack, h .compressorRelease, h .compressorMakeup, h .phaserEnabled, h .phaserRate, h .phaserDepth, h .phaserFeedback, h .reverbEnabled, h .reverbRoomSize, h .reverbDamping, h .reverbMix, h .delayEnabled, h .delayTime, h .delayFeedback, h .delayMix⟩

/-- Every SET command is the shared SET of its register. -/
theorem exec_setInstr (r : Reg) (data : Word) (s : State) : exec (setInstr r data) s = .next (setReg r data s) := by
  cases r <;> rfl

/-- Every GET command is the shared GET of its register. -/
theorem exec_getInstr (r : Reg) (s : State) : exec (getInstr r) s = .next (getReg r s) := by
  cases r <;> rfl

/-- Every command is a chain-control command, a SET or a GET. -/
theorem instr_forms (i : Instr) :
    i = .create ∨ i = .destroy ∨ i = .reset ∨ (∃ base frames rate, i = .process base frames rate) ∨
      (∃ r data, i = setInstr r data) ∨ ∃ r, i = getInstr r := by
  cases i
  case create => exact .inl rfl
  case destroy => exact .inr (.inl rfl)
  case reset => exact .inr (.inr (.inl rfl))
  case process b f r => exact .inr (.inr (.inr (.inl ⟨b, f, r, rfl⟩)))
  case setDistortionEnabled d => exact .inr (.inr (.inr (.inr (.inl ⟨.distortionEnabled, d, rfl⟩))))
  case setDistortionDrive d => exact .inr (.inr (.inr (.inr (.inl ⟨.distortionDrive, d, rfl⟩))))
  case setDistortionMix d => exact .inr (.inr (.inr (.inr (.inl ⟨.distortionMix, d, rfl⟩))))
  case setFilterEnabled d => exact .inr (.inr (.inr (.inr (.inl ⟨.filterEnabled, d, rfl⟩))))
  case setFilterCutoff d => exact .inr (.inr (.inr (.inr (.inl ⟨.filterCutoff, d, rfl⟩))))
  case setFilterResonance d => exact .inr (.inr (.inr (.inr (.inl ⟨.filterResonance, d, rfl⟩))))
  case setEqEnabled d => exact .inr (.inr (.inr (.inr (.inl ⟨.eqEnabled, d, rfl⟩))))
  case setEqLow d => exact .inr (.inr (.inr (.inr (.inl ⟨.eqLow, d, rfl⟩))))
  case setEqMid d => exact .inr (.inr (.inr (.inr (.inl ⟨.eqMid, d, rfl⟩))))
  case setEqHigh d => exact .inr (.inr (.inr (.inr (.inl ⟨.eqHigh, d, rfl⟩))))
  case setCompressorEnabled d => exact .inr (.inr (.inr (.inr (.inl ⟨.compressorEnabled, d, rfl⟩))))
  case setCompressorThreshold d => exact .inr (.inr (.inr (.inr (.inl ⟨.compressorThreshold, d, rfl⟩))))
  case setCompressorRatio d => exact .inr (.inr (.inr (.inr (.inl ⟨.compressorRatio, d, rfl⟩))))
  case setCompressorAttack d => exact .inr (.inr (.inr (.inr (.inl ⟨.compressorAttack, d, rfl⟩))))
  case setCompressorRelease d => exact .inr (.inr (.inr (.inr (.inl ⟨.compressorRelease, d, rfl⟩))))
  case setCompressorMakeup d => exact .inr (.inr (.inr (.inr (.inl ⟨.compressorMakeup, d, rfl⟩))))
  case setPhaserEnabled d => exact .inr (.inr (.inr (.inr (.inl ⟨.phaserEnabled, d, rfl⟩))))
  case setPhaserRate d => exact .inr (.inr (.inr (.inr (.inl ⟨.phaserRate, d, rfl⟩))))
  case setPhaserDepth d => exact .inr (.inr (.inr (.inr (.inl ⟨.phaserDepth, d, rfl⟩))))
  case setPhaserFeedback d => exact .inr (.inr (.inr (.inr (.inl ⟨.phaserFeedback, d, rfl⟩))))
  case setReverbEnabled d => exact .inr (.inr (.inr (.inr (.inl ⟨.reverbEnabled, d, rfl⟩))))
  case setReverbRoomSize d => exact .inr (.inr (.inr (.inr (.inl ⟨.reverbRoomSize, d, rfl⟩))))
  case setReverbDamping d => exact .inr (.inr (.inr (.inr (.inl ⟨.reverbDamping, d, rfl⟩))))
  case setReverbMix d => exact .inr (.inr (.inr (.inr (.inl ⟨.reverbMix, d, rfl⟩))))
  case setDelayEnabled d => exact .inr (.inr (.inr (.inr (.inl ⟨.delayEnabled, d, rfl⟩))))
  case setDelayTime d => exact .inr (.inr (.inr (.inr (.inl ⟨.delayTime, d, rfl⟩))))
  case setDelayFeedback d => exact .inr (.inr (.inr (.inr (.inl ⟨.delayFeedback, d, rfl⟩))))
  case setDelayMix d => exact .inr (.inr (.inr (.inr (.inl ⟨.delayMix, d, rfl⟩))))
  case getDistortionEnabled => exact .inr (.inr (.inr (.inr (.inr ⟨.distortionEnabled, rfl⟩))))
  case getDistortionDrive => exact .inr (.inr (.inr (.inr (.inr ⟨.distortionDrive, rfl⟩))))
  case getDistortionMix => exact .inr (.inr (.inr (.inr (.inr ⟨.distortionMix, rfl⟩))))
  case getFilterEnabled => exact .inr (.inr (.inr (.inr (.inr ⟨.filterEnabled, rfl⟩))))
  case getFilterCutoff => exact .inr (.inr (.inr (.inr (.inr ⟨.filterCutoff, rfl⟩))))
  case getFilterResonance => exact .inr (.inr (.inr (.inr (.inr ⟨.filterResonance, rfl⟩))))
  case getEqEnabled => exact .inr (.inr (.inr (.inr (.inr ⟨.eqEnabled, rfl⟩))))
  case getEqLow => exact .inr (.inr (.inr (.inr (.inr ⟨.eqLow, rfl⟩))))
  case getEqMid => exact .inr (.inr (.inr (.inr (.inr ⟨.eqMid, rfl⟩))))
  case getEqHigh => exact .inr (.inr (.inr (.inr (.inr ⟨.eqHigh, rfl⟩))))
  case getCompressorEnabled => exact .inr (.inr (.inr (.inr (.inr ⟨.compressorEnabled, rfl⟩))))
  case getCompressorThreshold => exact .inr (.inr (.inr (.inr (.inr ⟨.compressorThreshold, rfl⟩))))
  case getCompressorRatio => exact .inr (.inr (.inr (.inr (.inr ⟨.compressorRatio, rfl⟩))))
  case getCompressorAttack => exact .inr (.inr (.inr (.inr (.inr ⟨.compressorAttack, rfl⟩))))
  case getCompressorRelease => exact .inr (.inr (.inr (.inr (.inr ⟨.compressorRelease, rfl⟩))))
  case getCompressorMakeup => exact .inr (.inr (.inr (.inr (.inr ⟨.compressorMakeup, rfl⟩))))
  case getPhaserEnabled => exact .inr (.inr (.inr (.inr (.inr ⟨.phaserEnabled, rfl⟩))))
  case getPhaserRate => exact .inr (.inr (.inr (.inr (.inr ⟨.phaserRate, rfl⟩))))
  case getPhaserDepth => exact .inr (.inr (.inr (.inr (.inr ⟨.phaserDepth, rfl⟩))))
  case getPhaserFeedback => exact .inr (.inr (.inr (.inr (.inr ⟨.phaserFeedback, rfl⟩))))
  case getReverbEnabled => exact .inr (.inr (.inr (.inr (.inr ⟨.reverbEnabled, rfl⟩))))
  case getReverbRoomSize => exact .inr (.inr (.inr (.inr (.inr ⟨.reverbRoomSize, rfl⟩))))
  case getReverbDamping => exact .inr (.inr (.inr (.inr (.inr ⟨.reverbDamping, rfl⟩))))
  case getReverbMix => exact .inr (.inr (.inr (.inr (.inr ⟨.reverbMix, rfl⟩))))
  case getDelayEnabled => exact .inr (.inr (.inr (.inr (.inr ⟨.delayEnabled, rfl⟩))))
  case getDelayTime => exact .inr (.inr (.inr (.inr (.inr ⟨.delayTime, rfl⟩))))
  case getDelayFeedback => exact .inr (.inr (.inr (.inr (.inr ⟨.delayFeedback, rfl⟩))))
  case getDelayMix => exact .inr (.inr (.inr (.inr (.inr ⟨.delayMix, rfl⟩))))

theorem exec_create (s : State) : exec .create s = execCreate s := rfl
theorem exec_destroy (s : State) : exec .destroy s = execDestroy s := rfl
theorem exec_reset (s : State) : exec .reset s = execReset s := rfl
theorem exec_process (base frames rate : Word) (s : State) :
    exec (.process base frames rate) s = execProcess base frames rate s := rfl

/-- What a command can do. Either it leaves the block as it is and returns one status (ERR_ALLOC, having drawn), or it raises
a fault, or it makes, ends or clears an instance, begins a PROCESS, or writes one register. -/
inductive ExecCase (s : State) : State → Prop where
  | answer (status : Status) (data : Option Word) : ExecCase s (reply s status data)
  | noMemory : s.live = false → (drawAlloc s).1 = false → ExecCase s (reply (drawAlloc s).2 .errAlloc none)
  | fault (reason : FaultReason) : s.live = true → s.busy = true → ExecCase s (raiseFault s reason)
  | created : s.live = false → (drawAlloc s).1 = true → ExecCase s (reply (createInstance (drawAlloc s).2) .ok none)
  | destroyed : s.live = true → s.busy = false →
      ExecCase s (reply { s with live := false, params := .zero, work := .zero } .ok none)
  | cleared : s.live = true → s.busy = false → ExecCase s (reply (zeroState s) .ok none)
  | began (base frames rate : Word) : s.live = true → s.busy = false →
      s.config.fsMin ≤ rateHz rate → rateHz rate ≤ s.config.fsMax → frames ≠ 0 → base.toNat % 2 = 0 →
      base.toNat + 4 * frames.toNat ≤ s.config.addressSpace → ExecCase s (beginProcess base frames rate s)
  | wrote (r : Reg) (data : Word) : s.live = true →
      ExecCase s (reply { s with params := writeReg s.params r (setValue r data) } .ok none)

/-- A command always answers a next state, one of `ExecCase`. -/
theorem exec_cases (i : Instr) (s : State) : ∃ t, exec i s = .next t ∧ ExecCase s t := by
  rcases instr_forms i with rfl | rfl | rfl | ⟨b, f, r, rfl⟩ | ⟨r, d, rfl⟩ | ⟨r, rfl⟩
  · refine ⟨_, rfl, ?_⟩
    cases hl : s.live
    · cases hd : (drawAlloc s).1
      · simpa [hl, hd] using ExecCase.noMemory hl hd
      · simpa [hl, hd] using ExecCase.created hl hd
    · simpa [hl] using ExecCase.answer .errExists none
  · refine ⟨_, rfl, ?_⟩
    cases hl : s.live
    · simpa [hl] using ExecCase.answer .errNoChain none
    · cases hb : s.busy
      · simpa [hl, hb] using ExecCase.destroyed hl hb
      · simpa [hl, hb] using ExecCase.fault .concurrentControl hl hb
  · refine ⟨_, rfl, ?_⟩
    cases hl : s.live
    · simpa [hl] using ExecCase.answer .errNoChain none
    · cases hb : s.busy
      · simpa [hl, hb] using ExecCase.cleared hl hb
      · simpa [hl, hb] using ExecCase.fault .concurrentControl hl hb
  · refine ⟨_, rfl, ?_⟩
    cases hl : s.live
    · simpa [hl] using ExecCase.answer .errNoChain none
    · cases hb : s.busy
      · simp only [Bool.not_true, Bool.false_eq_true, if_false]
        split
        · exact .answer ..
        · next h1 =>
          split
          · exact .answer ..
          · next h2 =>
            split
            · exact .answer ..
            · next h3 =>
              split
              · exact .answer ..
              · next h4 =>
                have hsp : 0 < s.config.addressSpace := Nat.two_pow_pos _
                exact .began b f r hl hb (by omega) (by omega) h2 (by omega) (by omega)
      · simpa [hl, hb] using ExecCase.fault .concurrentProcess hl hb
  · refine ⟨_, exec_setInstr r d s, ?_⟩
    unfold setReg
    split
    · next h => exact .wrote r d h
    · exact .answer ..
  · refine ⟨_, exec_getInstr r s, ?_⟩
    unfold getReg
    split <;> exact .answer ..

/-- The inversion of `exec_cases`. -/
theorem exec_inv {i : Instr} {s t : State} (h : exec i s = .next t) : ExecCase s t := by
  obtain ⟨u, hu, hc⟩ := exec_cases i s
  rw [hu] at h
  cases h
  exact hc

end Sys2Proof.Machine
end

