-- ==== Sys2Proof/Laws/PerInstr.lean ====
section
/-! SUPPORT. Per instruction: its words are one whole legal command, and the decoder finds that length from the command word alone. -/

/-- The words of a command are one well-formed command of the length 30_encoding R54 gives its command word. -/
def Sys2Proof.Laws.Encoding.Statement (i : Sys2Proof.Instr) : Prop :=
  Sys2Proof.wellFormedCommand (Sys2Proof.encode i) = true ∧
    (Sys2Proof.encode i).length = Sys2Proof.commandLength ((Sys2Proof.encode i).headD 0)

namespace Sys2Proof.Laws.Encoding

theorem create : Statement .create := ⟨by decide, by decide⟩
theorem destroy : Statement .destroy := ⟨by decide, by decide⟩
theorem reset : Statement .reset := ⟨by decide, by decide⟩
theorem process (base frames rate : Sys2Proof.Word) : Statement (.process base frames rate) :=
  ⟨rfl, (by decide : 4 = Sys2Proof.commandLength 0x13000000#32)⟩
theorem setDistortionEnabled (data : Sys2Proof.Word) : Statement (.setDistortionEnabled data) :=
  ⟨rfl, (by decide : 2 = Sys2Proof.commandLength 0x20000000#32)⟩
theorem setDistortionDrive (data : Sys2Proof.Word) : Statement (.setDistortionDrive data) :=
  ⟨rfl, (by decide : 2 = Sys2Proof.commandLength 0x20100000#32)⟩
theorem setDistortionMix (data : Sys2Proof.Word) : Statement (.setDistortionMix data) :=
  ⟨rfl, (by decide : 2 = Sys2Proof.commandLength 0x20200000#32)⟩
theorem setFilterEnabled (data : Sys2Proof.Word) : Statement (.setFilterEnabled data) :=
  ⟨rfl, (by decide : 2 = Sys2Proof.commandLength 0x21000000#32)⟩
theorem setFilterCutoff (data : Sys2Proof.Word) : Statement (.setFilterCutoff data) :=
  ⟨rfl, (by decide : 2 = Sys2Proof.commandLength 0x21100000#32)⟩
theorem setFilterResonance (data : Sys2Proof.Word) : Statement (.setFilterResonance data) :=
  ⟨rfl, (by decide : 2 = Sys2Proof.commandLength 0x21200000#32)⟩
theorem setEqEnabled (data : Sys2Proof.Word) : Statement (.setEqEnabled data) :=
  ⟨rfl, (by decide : 2 = Sys2Proof.commandLength 0x22000000#32)⟩
theorem setEqLow (data : Sys2Proof.Word) : Statement (.setEqLow data) :=
  ⟨rfl, (by decide : 2 = Sys2Proof.commandLength 0x22100000#32)⟩
theorem setEqMid (data : Sys2Proof.Word) : Statement (.setEqMid data) :=
  ⟨rfl, (by decide : 2 = Sys2Proof.commandLength 0x22200000#32)⟩
theorem setEqHigh (data : Sys2Proof.Word) : Statement (.setEqHigh data) :=
  ⟨rfl, (by decide : 2 = Sys2Proof.commandLength 0x22300000#32)⟩
theorem setCompressorEnabled (data : Sys2Proof.Word) : Statement (.setCompressorEnabled data) :=
  ⟨rfl, (by decide : 2 = Sys2Proof.commandLength 0x23000000#32)⟩
theorem setCompressorThreshold (data : Sys2Proof.Word) : Statement (.setCompressorThreshold data) :=
  ⟨rfl, (by decide : 2 = Sys2Proof.commandLength 0x23100000#32)⟩
theorem setCompressorRatio (data : Sys2Proof.Word) : Statement (.setCompressorRatio data) :=
  ⟨rfl, (by decide : 2 = Sys2Proof.commandLength 0x23200000#32)⟩
theorem setCompressorAttack (data : Sys2Proof.Word) : Statement (.setCompressorAttack data) :=
  ⟨rfl, (by decide : 2 = Sys2Proof.commandLength 0x23300000#32)⟩
theorem setCompressorRelease (data : Sys2Proof.Word) : Statement (.setCompressorRelease data) :=
  ⟨rfl, (by decide : 2 = Sys2Proof.commandLength 0x23400000#32)⟩
theorem setCompressorMakeup (data : Sys2Proof.Word) : Statement (.setCompressorMakeup data) :=
  ⟨rfl, (by decide : 2 = Sys2Proof.commandLength 0x23500000#32)⟩
theorem setPhaserEnabled (data : Sys2Proof.Word) : Statement (.setPhaserEnabled data) :=
  ⟨rfl, (by decide : 2 = Sys2Proof.commandLength 0x24000000#32)⟩
theorem setPhaserRate (data : Sys2Proof.Word) : Statement (.setPhaserRate data) :=
  ⟨rfl, (by decide : 2 = Sys2Proof.commandLength 0x24100000#32)⟩
theorem setPhaserDepth (data : Sys2Proof.Word) : Statement (.setPhaserDepth data) :=
  ⟨rfl, (by decide : 2 = Sys2Proof.commandLength 0x24200000#32)⟩
theorem setPhaserFeedback (data : Sys2Proof.Word) : Statement (.setPhaserFeedback data) :=
  ⟨rfl, (by decide : 2 = Sys2Proof.commandLength 0x24300000#32)⟩
theorem setReverbEnabled (data : Sys2Proof.Word) : Statement (.setReverbEnabled data) :=
  ⟨rfl, (by decide : 2 = Sys2Proof.commandLength 0x25000000#32)⟩
theorem setReverbRoomSize (data : Sys2Proof.Word) : Statement (.setReverbRoomSize data) :=
  ⟨rfl, (by decide : 2 = Sys2Proof.commandLength 0x25100000#32)⟩
theorem setReverbDamping (data : Sys2Proof.Word) : Statement (.setReverbDamping data) :=
  ⟨rfl, (by decide : 2 = Sys2Proof.commandLength 0x25200000#32)⟩
theorem setReverbMix (data : Sys2Proof.Word) : Statement (.setReverbMix data) :=
  ⟨rfl, (by decide : 2 = Sys2Proof.commandLength 0x25300000#32)⟩
theorem setDelayEnabled (data : Sys2Proof.Word) : Statement (.setDelayEnabled data) :=
  ⟨rfl, (by decide : 2 = Sys2Proof.commandLength 0x26000000#32)⟩
theorem setDelayTime (data : Sys2Proof.Word) : Statement (.setDelayTime data) :=
  ⟨rfl, (by decide : 2 = Sys2Proof.commandLength 0x26100000#32)⟩
theorem setDelayFeedback (data : Sys2Proof.Word) : Statement (.setDelayFeedback data) :=
  ⟨rfl, (by decide : 2 = Sys2Proof.commandLength 0x26200000#32)⟩
theorem setDelayMix (data : Sys2Proof.Word) : Statement (.setDelayMix data) :=
  ⟨rfl, (by decide : 2 = Sys2Proof.commandLength 0x26300000#32)⟩
theorem getDistortionEnabled : Statement .getDistortionEnabled := ⟨by decide, by decide⟩
theorem getDistortionDrive : Statement .getDistortionDrive := ⟨by decide, by decide⟩
theorem getDistortionMix : Statement .getDistortionMix := ⟨by decide, by decide⟩
theorem getFilterEnabled : Statement .getFilterEnabled := ⟨by decide, by decide⟩
theorem getFilterCutoff : Statement .getFilterCutoff := ⟨by decide, by decide⟩
theorem getFilterResonance : Statement .getFilterResonance := ⟨by decide, by decide⟩
theorem getEqEnabled : Statement .getEqEnabled := ⟨by decide, by decide⟩
theorem getEqLow : Statement .getEqLow := ⟨by decide, by decide⟩
theorem getEqMid : Statement .getEqMid := ⟨by decide, by decide⟩
theorem getEqHigh : Statement .getEqHigh := ⟨by decide, by decide⟩
theorem getCompressorEnabled : Statement .getCompressorEnabled := ⟨by decide, by decide⟩
theorem getCompressorThreshold : Statement .getCompressorThreshold := ⟨by decide, by decide⟩
theorem getCompressorRatio : Statement .getCompressorRatio := ⟨by decide, by decide⟩
theorem getCompressorAttack : Statement .getCompressorAttack := ⟨by decide, by decide⟩
theorem getCompressorRelease : Statement .getCompressorRelease := ⟨by decide, by decide⟩
theorem getCompressorMakeup : Statement .getCompressorMakeup := ⟨by decide, by decide⟩
theorem getPhaserEnabled : Statement .getPhaserEnabled := ⟨by decide, by decide⟩
theorem getPhaserRate : Statement .getPhaserRate := ⟨by decide, by decide⟩
theorem getPhaserDepth : Statement .getPhaserDepth := ⟨by decide, by decide⟩
theorem getPhaserFeedback : Statement .getPhaserFeedback := ⟨by decide, by decide⟩
theorem getReverbEnabled : Statement .getReverbEnabled := ⟨by decide, by decide⟩
theorem getReverbRoomSize : Statement .getReverbRoomSize := ⟨by decide, by decide⟩
theorem getReverbDamping : Statement .getReverbDamping := ⟨by decide, by decide⟩
theorem getReverbMix : Statement .getReverbMix := ⟨by decide, by decide⟩
theorem getDelayEnabled : Statement .getDelayEnabled := ⟨by decide, by decide⟩
theorem getDelayTime : Statement .getDelayTime := ⟨by decide, by decide⟩
theorem getDelayFeedback : Statement .getDelayFeedback := ⟨by decide, by decide⟩
theorem getDelayMix : Statement .getDelayMix := ⟨by decide, by decide⟩

end Sys2Proof.Laws.Encoding
end

