-- ==== Sys2Proof/Laws/Result.lean ====
section
/-! SUPPORT. What the kept bytes of a buffer read as, and what the result of a run is. -/

namespace Sys2Proof.Machine

/-- The part of a memory at the indexes that `p` accepts reads as the memory there, and as 0 elsewhere. -/
theorem readCell_filter {w : Nat} (p : Nat → Bool) (m : Cells w) (a : Nat) :
    readCell (m.filter fun c => p c.1) a = if p a = true then readCell m a else 0 := by
  induction m with
  | nil => simp [readCell]
  | cons c m ih =>
    obtain ⟨k, v⟩ := c
    by_cases hk : p k = true <;> by_cases h : a = k
    · subst h; simp [hk, readCell]
    · simp [hk, readCell, h, ih]
    · subst h; simp [hk, ih]
    · simp [hk, readCell, h, ih]

/-- The kept bytes of a buffer (70_reset R202) are those of memory, and nothing outside the buffer. -/
theorem readCell_bufferBytes (s : State) (a : Nat) : readCell (bufferBytes s) a =
    if s.flight.base.toNat ≤ a ∧ a < s.flight.base.toNat + 4 * s.flight.frames.toNat then readCell s.mem a else 0 := by
  have h := readCell_filter
    (fun a => s.flight.base.toNat ≤ a && a < s.flight.base.toNat + 4 * s.flight.frames.toNat) s.mem a
  simpa [bufferBytes] using h

/-- A run that ends in `s` has a result exactly where `s` is an end (70_reset R202), and it is this one. -/
theorem result_eq_some {s : State} {r : Result} : s.result = some r ↔
    s.ended = true ∧ r = ⟨s.replies.reverse, s.outputs.reverse, s.live, s.params, s.work⟩ := by
  unfold State.result
  split
  · next h => simp [h, eq_comm]
  · next h => simp [h]

end Sys2Proof.Machine
end

