-- ==== Sys2Proof/Laws/Step.lean ====
section
/-! SUPPORT. Everything a step can do: the inversion of `step` by the transition it takes, and of the engine's turn. -/

namespace Sys2Proof.Machine

@[simp] theorem portOf_control (s : State) : portOf s .control = s.ctl := rfl
@[simp] theorem portOf_audio (s : State) : portOf s .audio = s.aud := rfl

/-- The words put on a port are what stands there. -/
@[simp] theorem portOf_withPort_self (s : State) (a : Agent) (ws : List Word) : portOf (withPort s a ws) a = ws := by
  cases a <;> rfl

/-- The state after the frame step of frame `n` (40_chain R72). -/
def frameNext (s : State) : State :=
  let r := runStages s.config s.flight.snap s.flight.k s.work
    (in16 (memRead16 s.mem (frameAddr s.flight)), in16 (memRead16 s.mem (frameAddr s.flight + 2)))
  { s with
    work := r.1
    mem := memWrite16 (memWrite16 s.mem (frameAddr s.flight) (sat16 r.2.1)) (frameAddr s.flight + 2) (sat16 r.2.2)
    flight := { s.flight with n := s.flight.n + 1 } }

/-- A frame step inside the address space. -/
theorem frameStep_eq {s : State} (h : frameAddr s.flight + 3 < s.config.addressSpace) :
    frameStep s = .next (frameNext s) := by
  unfold frameStep
  simp only
  rw [if_neg (not_le.2 h)]
  rfl

/-- What the engine's turn does, where it answers a next state. -/
theorem engineTurn_cases {s t : State} (h : engineTurn s = .next t) :
    (s.busy = false ∧ t = s) ∨
    (s.busy = true ∧ s.flight.n < s.flight.frames.toNat ∧ frameAddr s.flight + 3 < s.config.addressSpace ∧
      t = frameNext s) ∨
    (s.busy = true ∧ s.flight.n = s.flight.frames.toNat ∧ t = endStep s) := by
  unfold engineTurn at h
  cases hb : s.busy
  · simp only [hb, Bool.not_false, if_true] at h
    cases h
    exact .inl ⟨rfl, rfl⟩
  · simp only [hb, Bool.not_true, Bool.false_eq_true, if_false] at h
    split at h
    · next hn =>
      by_cases ha : frameAddr s.flight + 3 < s.config.addressSpace
      · rw [frameStep_eq ha] at h
        cases h
        exact .inr (.inl ⟨rfl, hn, ha, rfl⟩)
      · unfold frameStep at h
        simp only at h
        rw [if_pos (not_lt.1 ha)] at h
        cases h
    · split at h
      · next hn => cases h; exact .inr (.inr ⟨rfl, hn, rfl⟩)
      · cases h

/-- What a host access leaves, where it answers a next state: the fault of 60_exceptions R178, or its own effect. -/
theorem hostAccess_eq_next {s t u : State} {addr len : Nat} : hostAccess s addr len t = .next u ↔
    (touchesBuffer s addr len = true ∧ u = raiseFault s .hostBufferAccess) ∨
    (touchesBuffer s addr len = false ∧ (len = 0 ∨ addr + len ≤ s.config.addressSpace) ∧ u = t) := by
  unfold hostAccess
  cases touchesBuffer s addr len
  · simp only [Bool.false_eq_true, if_false, false_and, false_or, true_and]
    split
    · next h => exact ⟨fun e => (nomatch e), fun e => absurd e.1 (by omega)⟩
    · next h => exact ⟨fun e => ⟨by omega, (Host.Outcome.next.inj e).symm⟩, fun e => congrArg _ e.2.symm⟩
  · simp [eq_comm]

/-- An access touches the in-flight buffer exactly where one of its bytes is one of the buffer's (60_exceptions R178). -/
theorem touchesBuffer_iff {s : State} {addr len : Nat} : touchesBuffer s addr len = true ↔
    s.busy = true ∧ ∃ a, addr ≤ a ∧ a < addr + len ∧
      s.flight.base.toNat ≤ a ∧ a < s.flight.base.toNat + 4 * s.flight.frames.toNat := by
  unfold touchesBuffer
  rw [Bool.and_eq_true, decide_eq_true_eq]
  refine and_congr_right fun _ => ⟨fun h => ⟨max addr s.flight.base.toNat, ?_⟩, ?_⟩
  · omega
  · rintro ⟨a, h⟩
    omega

/-- What a step does, where it answers a next state: there was no fault mark, and by whose turn it was, a command was run,
an illegal word was answered, nothing was issued, the engine took its turn, or the host accessed memory. -/
theorem step_cases {s t : State} (h : step s = .next t) :
    s.fault = none ∧
    ((∃ a i rest, (nextTurn s).1 = .command a ∧ decode (portOf s a) = .command i rest ∧
        exec i { withPort { s with turns := (nextTurn s).2 } a rest with issuer := a } = .next t) ∨
     (∃ a why rest, (nextTurn s).1 = .command a ∧ decode (portOf s a) = .illegal why rest ∧
        t = reply { withPort { s with turns := (nextTurn s).2 } a rest with issuer := a } .errIllegal none) ∨
     (∃ a, (nextTurn s).1 = .command a ∧ decode (portOf s a) = .incomplete ∧ t = { s with turns := (nextTurn s).2 }) ∨
     ((nextTurn s).1 = .engine ∧ engineTurn { s with turns := (nextTurn s).2 } = .next t) ∨
     (∃ addr len, (nextTurn s).1 = .hostRead addr len ∧ hostRead { s with turns := (nextTurn s).2 } addr len = .next t) ∨
     (∃ addr bytes, (nextTurn s).1 = .hostWrite addr bytes ∧
        hostWrite { s with turns := (nextTurn s).2 } addr bytes = .next t)) := by
  have hp : ∀ a, portOf { s with turns := (nextTurn s).2 } a = portOf s a := by intro a; cases a <;> rfl
  unfold step fetch at h
  simp only at h
  generalize ({ s with turns := (nextTurn s).2 } : State) = s' at h hp ⊢
  cases hf : s.fault with
  | some reason => simp only [hf] at h; cases h
  | none =>
    refine ⟨rfl, ?_⟩
    simp only [hf] at h
    cases hn : (nextTurn s).1 with
    | command a =>
      simp only [hn, commandTurn] at h
      rw [hp] at h
      cases hd : decode (portOf s a) with
      | command i rest => simp only [hd] at h; exact .inl ⟨a, i, rest, rfl, hd, h⟩
      | illegal why rest => simp only [hd] at h; cases h; exact .inr (.inl ⟨a, why, rest, rfl, hd, rfl⟩)
      | incomplete => simp only [hd] at h; cases h; exact .inr (.inr (.inl ⟨a, rfl, hd, rfl⟩))
    | engine => simp only [hn] at h; exact .inr (.inr (.inr (.inl ⟨rfl, h⟩)))
    | hostRead addr len => simp only [hn] at h; exact .inr (.inr (.inr (.inr (.inl ⟨addr, len, rfl, h⟩))))
    | hostWrite addr bytes => simp only [hn] at h; exact .inr (.inr (.inr (.inr (.inr ⟨addr, bytes, rfl, h⟩))))

/-- A step on the engine's listed turn. -/
theorem step_engine {s : State} {ts : List Turn} (hf : s.fault = none) (ht : s.turns = .engine :: ts) :
    step s = engineTurn { s with turns := ts } := by
  unfold step fetch nextTurn
  simp only [hf, ht]

/-- A step on a listed host read. -/
theorem step_hostRead {s : State} {addr len : Nat} {ts : List Turn} (hf : s.fault = none)
    (ht : s.turns = .hostRead addr len :: ts) : step s = hostRead { s with turns := ts } addr len := by
  unfold step fetch nextTurn
  simp only [hf, ht]

/-- A step on a listed host write. -/
theorem step_hostWrite {s : State} {addr : Nat} {bytes : List Byte} {ts : List Turn} (hf : s.fault = none)
    (ht : s.turns = .hostWrite addr bytes :: ts) : step s = hostWrite { s with turns := ts } addr bytes := by
  unfold step fetch nextTurn
  simp only [hf, ht]

end Sys2Proof.Machine
end

