-- ==== Sys2Proof/Tests/Slice0.lean ====
section
/-! SUPPORT. The model's own tests: ill-formed words refused, the spec's worked words and vectors, single steps, and a witness for the hypotheses of every statement. -/

open Sys2Proof Sys2Proof.Machine

namespace Sys2Proof.Tests

/-! Ill-formed command words, one for each check of WellFormed.lean (30_encoding R53, R54, R57). -/

theorem test_wf_class : classAssigned 0x40000000#32 = false ∧ classAssigned 0x00000000#32 = false ∧
    wellFormedCommand [0x40000000#32] = false ∧ wellFormedCommand [0x00000000#32] = false := by decide
theorem test_wf_func : funcAssigned 0x14000000#32 = false ∧ wellFormedCommand [0x14000000#32] = false := by decide
theorem test_wf_zero_field : zeroFieldClear 0x10100000#32 = false ∧ zeroFieldClear 0x30080000#32 = false ∧
    wellFormedCommand [0x10100000#32] = false ∧ wellFormedCommand [0x30080000#32] = false := by decide
theorem test_wf_register : registerAssigned 0x23600000#32 = false ∧ registerAssigned 0x27000000#32 = false ∧
    wellFormedCommand [0x23600000#32, 0#32] = false ∧ wellFormedCommand [0x37000000#32] = false := by decide
theorem test_wf_operands : wellFormedCommand [0x13000000#32, 0#32, 0#32] = false ∧
    wellFormedCommand [0x20000000#32] = false ∧ wellFormedCommand [0x10000000#32, 0#32] = false ∧
    wellFormedCommand [] = false := by decide

/-! Decoding: words written out from the table of 30_encoding R56, bit by bit from R53 (class, rn, zeros), and the illegal
words of 95_test_vectors V12. -/

theorem test_decode_ctl : decode [0b00010000000000000000000000000000#32] = .command .create [] ∧
    decode [0b00010001000000000000000000000000#32] = .command .destroy [] ∧
    decode [0b00010010000000000000000000000000#32] = .command .reset [] ∧
    decode [0b00010011000000000000000000000000#32, 1#32, 2#32, 3#32] = .command (.process 1#32 2#32 3#32) [] := by decide
theorem test_decode_distortion : decode [0b00100000000100000000000000000000#32, 5#32] = .command (.setDistortionDrive 5#32) [] := by decide
theorem test_decode_filter : decode [0b00110001001000000000000000000000#32] = .command .getFilterResonance [] := by decide
theorem test_decode_eq : decode [0b00100010001100000000000000000000#32, 5#32] = .command (.setEqHigh 5#32) [] := by decide
theorem test_decode_compressor : decode [0b00100011010100000000000000000000#32, 5#32] = .command (.setCompressorMakeup 5#32) [] := by decide
theorem test_decode_phaser : decode [0b00110100000100000000000000000000#32] = .command .getPhaserRate [] := by decide
theorem test_decode_reverb : decode [0b00110101001000000000000000000000#32] = .command .getReverbDamping [] := by decide
theorem test_decode_delay : decode [0b00110110001100000000000000000000#32] = .command .getDelayMix [] := by decide
theorem test_decode_illegal :
    decode [0x1F000000#32] = .illegal .reservedFunc [] ∧ decode [0x10000001#32] = .illegal .nonzeroField [] ∧
    decode [0x13000001#32, 1#32] = .illegal .nonzeroField [1#32] ∧
    decode [0x23600000#32] = .illegal .unassignedRegister [] ∧
    decode [0x20300000#32] = .illegal .unassignedRegister [] ∧
    decode [0x2FF00000#32, 0x3F000000#32] = .illegal .unassignedRegister [0x3F000000#32] ∧
    decode [0xFFFFFFFF#32] = .illegal .reservedClass [] ∧ decode [0x00000000#32] = .illegal .reservedClass [] := by decide
theorem test_decode_incomplete : decode [] = .incomplete ∧ decode [0x26000000#32] = .incomplete ∧
    decode [0x13000000#32, 1#32, 2#32] = .incomplete := by decide

/-! Numbers: the tables of 95_test_vectors V9, V10, V11. -/

theorem test_in16 : in16 0x8000#16 = 0xBF800000#32 ∧ in16 0x7FFF#16 = 0x3F7FFE00#32 ∧ in16 16384#16 = 0x3F000000#32 ∧
    in16 1#16 = 0x38000000#32 ∧ in16 0xFFFF#16 = 0xB8000000#32 ∧ in16 0#16 = 0x00000000#32 := by decide +kernel
theorem test_sat16 : sat16 0x3F800000#32 = 32767#16 ∧ sat16 0xBF800000#32 = 0x8000#16 ∧ sat16 0x3F7FFF00#32 = 32767#16 ∧
    sat16 0x3F7FFD00#32 = 32766#16 ∧ sat16 0x37800000#32 = 0#16 ∧ sat16 0x38400000#32 = 2#16 ∧
    sat16 0xB8A00000#32 = 0xFFFE#16 ∧ sat16 0x7149F2CA#32 = 32767#16 ∧
    sat16 0x7F800000#32 = 32767#16 ∧ sat16 0xFF800000#32 = 0x8000#16 ∧ sat16 0x80000000#32 = 0#16 := by decide +kernel
theorem test_clamp01 : clamp01 0x3FC00000#32 = 0x3F800000#32 ∧ clamp01 0x7F800000#32 = 0x3F800000#32 ∧
    clamp01 0xBE800000#32 = 0#32 ∧ clamp01 0x80000000#32 = 0#32 ∧ clamp01 0xFF800000#32 = 0#32 ∧
    clamp01 0x7FC00000#32 = 0#32 ∧ clamp01 0xFFFFFFFF#32 = 0#32 ∧ clamp01 0x00000001#32 = 1#32 ∧
    clamp01 0x3F7FFFFF#32 = 0x3F7FFFFF#32 ∧ clamp01 0x3F800000#32 = 0x3F800000#32 := by decide

/-! Stages: the worked examples of the stage files and of 95_test_vectors. -/

/-- 41_distortion R83, the example at 48000 Hz, drive 0.25, mix 0.5. -/
def distExample : Params := { createParams with distortionDrive := 0x3E800000#32, distortionMix := 0x3F000000#32 }
theorem test_dist_coeffs : distCoeffs .reference distExample 48000 =
    ⟨0x40B80000#32, 0x3C551188#32, 0x3CA8E6B3#32, 0x39DA6867#32, 0x3E6BDCD5#32, 0x3ED665D3#32, 0x3F000000#32, 0x3F000000#32⟩ := by
  decide +kernel
/-- 41_distortion R84, the first step of its example. -/
theorem test_dist_lane :
    distLane ⟨0x40B80000#32, 0x3C551188#32, 0x3CA8E6B3#32, 0x39DA6867#32, 0x3E6BDCD5#32, 0x3ED665D3#32, 0x3F000000#32, 0x3F000000#32⟩
      ⟨0, 0, 0⟩ 0x3F000000#32 = (⟨0x3BD51188#32, 0x3C28E6B3#32, 0x3E31AB9E#32⟩, 0x3EAC6AE8#32) := by decide +kernel
/-- 42_filter R94, a row of its table; R95, the second sample of its example. -/
theorem test_filt_coeffs : filtCoeffs .reference { createParams with filterCutoff := 0x3F000000#32, filterResonance := 0x3F800000#32 } 48000 =
    ⟨0x3DA9807C#32, 0x3DCCCCCD#32⟩ := by decide +kernel
theorem test_filt_lane : (filtLane ⟨0x3DA9807C#32, 0x3DCCCCCD#32⟩ ⟨0, 0x3D29807C#32⟩ 0x3F000000#32) =
    (⟨0x3B6075C8#32, 0x3DA8384C#32⟩, 0x3B6075C8#32) := by decide +kernel
/-- 43_eq R108: at gain 0.5 B0 is 1, B1 is A1 and B2 is A2. -/
theorem test_eq_unity : (peaking .reference (eqA 0x3F000000#32) (eqW0 1000 48000)).b0 = 0x3F800000#32 ∧
    (peaking .reference (eqA 0x3F000000#32) (eqW0 1000 48000)).b2 = (peaking .reference (eqA 0x3F000000#32) (eqW0 1000 48000)).a2 := by decide +kernel
/-- 44_compressor R119, the third row of its examples. -/
theorem test_comp_coeffs : compCoeffs .reference { createParams with compressorThreshold := 0x3F000000#32, compressorRatio := 0x3F000000#32 } 48000 =
    ⟨0x3D0186E2#32, 0x40B00000#32, 0x3E4093C2#32, 0x3B086426#32, 0x3B086426#32, 0x3F800000#32⟩ := by decide +kernel
/-- 44_compressor R120, its second example. -/
theorem test_comp_lane :
    compLane ⟨0x3D0186E2#32, 0x40B00000#32, 0x3F36A79F#32, 0x3C4B867B#32, 0x3C4B867B#32, 0x3F800000#32⟩ ⟨0, 0⟩ 0x3F800000#32 =
    (⟨0x3F36A79F#32, 0x3C4B867B#32⟩, 0x3E7A69F6#32) := by decide +kernel
/-- 45_phaser R136 and R137, the examples at 48000 Hz. -/
theorem test_ph_coeffs : phCoeffs .reference { createParams with phaserRate := 0x3F800000#32, phaserFeedback := 0x3F800000#32 } 48000 =
    ⟨0x38DA740E#32, 0x3889421E#32, 0x3F733333#32, 0⟩ := by decide +kernel
theorem test_ph_c : phC ⟨0, 0x3889421E#32, 0, 0x3F800000#32⟩ 0 = 0xBF44BCA5#32 ∧
    phC ⟨0, 0x3889421E#32, 0, 0x3F800000#32⟩ 0x3F000000#32 = 0xBF796270#32 := by decide +kernel
/-- 45_phaser R138: the phase wraps at frame 9600. -/
theorem test_ph_wrap : phAdvance ⟨0x38DA740E#32, 0, 0, 0⟩ 0x3F7FFF8E#32 = 0x38CC4000#32 := by decide +kernel
/-- 46_reverb R152, its last example; R153, the first output at mix 0.25. -/
theorem test_rev_coeffs :
    revCoeffs .reference { createParams with reverbRoomSize := 0x3F000000#32, reverbDamping := 0x3F000000#32, reverbMix := 0x3E800000#32 } =
    ⟨0x3F570A3D#32, 0x3E4CCCCD#32, 0x3F4CCCCD#32, 0x3C75C28F#32, 0x3E800000#32, 0x3F400000#32⟩ := by decide +kernel
theorem test_rev_lane : (revLane .reference ⟨0x3F570A3D#32, 0x3E4CCCCD#32, 0x3F4CCCCD#32, 0x3C75C28F#32, 0x3E800000#32, 0x3F400000#32⟩
    Chan.zero.rev 0x3F000000#32).2 = 0x3EC00000#32 := by decide +kernel
/-- 47_delay R165, rows of its table of offsets. -/
theorem test_dly_offset : delayOffset 0x3F800000#32 48000 = 47999 ∧ delayOffset 0x3F800000#32 8000 = 8000 ∧
    delayOffset 0x3DCCCCCD#32 44100 = 4410 ∧ delayOffset 0x3E99999A#32 48000 = 14400 ∧
    delayOffset 0 48000 = 1 ∧ delayOffset 0x3E800000#32 192000 = 47999 := by decide +kernel
/-- 95_test_vectors V23: the cursor wraps. -/
theorem test_dly_cursor : (dlyStage ⟨1, 0, 0, 0⟩ { Work.zero with dlyW := 47999 } (0, 0)).1.dlyW = 0 := by decide +kernel
/-- 95_test_vectors V8: MIDI values scaled by SETCC (30_encoding R60). -/
theorem test_setcc : assemble .reference (.setcc .delayMix 64) = [.setDelayMix 0x3F010204#32] ∧
    assemble .reference (.setcc .delayMix 1) = [.setDelayMix 0x3C010204#32] ∧
    assemble .reference (.setcc .delayMix 127) = [.setDelayMix 0x3F800000#32] := by decide +kernel
/-- 30_encoding R60: BYPASS_ALL. -/
theorem test_bypass_all : assembleWords .reference [.bypassAll] = [0x20000000#32, 0, 0x21000000#32, 0, 0x22000000#32, 0, 0x23000000#32, 0,
    0x24000000#32, 0, 0x25000000#32, 0, 0x26000000#32, 0] := by decide

/-! Single steps (95_test_vectors V14, V15, V16). -/

/-- A block with an instance. -/
def liveState : State := { State.reset with live := true, params := createParams }
/-- A PROCESS of one frame at 0x1000 in flight, its frame still to come. -/
def busyState : State := { liveState with
  busy := true
  flight := { snap := createParams, k := coefficients .reference createParams 48000, n := 0, frames := 1, base := 0x1000, fs := 48000,
              issuer := .audio } }
/-- The status and data of the newest reply after a command. -/
def answer (i : Instr) (s : State) : Option (Status × Option Word) :=
  match exec i s with
  | .next t => t.replies.head?.map fun r => (r.status, r.data)
  | _ => none
/-- What a register holds after a command. -/
def after (i : Instr) (s : State) (r : Reg) : Option Word :=
  match exec i s with
  | .next t => some (readReg t.params r)
  | _ => none

theorem test_set_enable : after (.setDistortionEnabled 0x80000000#32) liveState .distortionEnabled = some 1 ∧
    after (.setDistortionEnabled 0) liveState .distortionEnabled = some 0 := by decide
theorem test_set_nan : after (.setDistortionDrive 0x7FC00000#32) liveState .distortionDrive = some 0 := by decide
theorem test_set_above : after (.setDelayMix 0x3FC00000#32) liveState .delayMix = some 0x3F800000#32 := by decide
theorem test_set_below : after (.setCompressorAttack 0xBE800000#32) liveState .compressorAttack = some 0 := by decide
theorem test_set_subnormal : after (.setReverbDamping 1) liveState .reverbDamping = some 1 := by decide
theorem test_get_create_values : answer .getEqMid liveState = some (.ok, some 0x3F000000#32) ∧
    answer .getCompressorThreshold liveState = some (.ok, some 0x3F800000#32) := by decide
theorem test_get_no_instance : answer .getDelayMix State.reset = some (.errNoChain, some 0) := by decide
theorem test_create : answer .create State.reset = some (.ok, none) ∧
    answer .create { State.reset with allocDraws := [false] } = some (.errAlloc, none) ∧
    answer .create busyState = some (.errExists, none) := by decide +kernel
theorem test_process_rate : answer (.process 0x1001 0 0) liveState = some (.errRate, none) ∧
    answer (.process 0x1000 1 0xFFFFBB80#32) liveState = some (.errRate, none) ∧
    answer (.process 0x1000 1 7999) liveState = some (.errRate, none) ∧
    answer (.process 0x1000 1 192001) liveState = some (.errRate, none) := by decide
theorem test_process_buffer : answer (.process 0x1001 0 48000) liveState = some (.ok, none) ∧
    answer (.process 0x1001 1 48000) liveState = some (.errBuffer, none) ∧
    answer (.process 0xFFFFFFFC#32 2 48000) liveState = some (.errBuffer, none) := by decide
/-- The frame step of `busyState` over the frame (1234, -5), every stage disabled (40_chain R68's example): the bytes stay. -/
theorem test_frame_step :
    (match engineTurn { busyState with mem := [(0x1000, 0xD2#8), (0x1001, 0x04#8), (0x1002, 0xFB#8), (0x1003, 0xFF#8)] } with
      | .next t => some (t.mem, t.flight.n)
      | _ => none) = some ([(0x1000, 0xD2#8), (0x1001, 0x04#8), (0x1002, 0xFB#8), (0x1003, 0xFF#8)], 1) := by decide +kernel

/-- 70_reset R202: the end step keeps the four bytes of the frame, not the byte above them. -/
theorem test_output :
    (match engineTurn { busyState with flight := { busyState.flight with n := 1 }, mem := [(0x1001, 4#8), (0x1004, 7#8)] } with
      | .next t => (t.busy, t.outputs)
      | _ => (true, [])) = (false, [⟨0x1000, 1, [(0x1001, 4#8)]⟩]) := by decide +kernel
/-- 60_exceptions R178 and R180: a four-byte write that begins two bytes below the buffer is one fault and stores nothing. -/
theorem test_host_access :
    (match step { busyState with turns := [.hostWrite 0xFFE [1, 2, 3, 4]] } with
      | .next t => (t.fault, t.mem)
      | _ => (none, [])) = (some .hostBufferAccess, []) ∧
    (match step { busyState with turns := [.hostWrite 0xFFC [1, 2, 3, 4]] } with
      | .next t => (t.fault, t.mem)
      | _ => (none, [])) = (none, [(0xFFC, 1#8), (0xFFD, 2#8), (0xFFE, 3#8), (0xFFF, 4#8)]) := by decide +kernel
/-- 41_distortion R83 at a rate of 100 Hz, where `dSpan`'s exponents are beyond -125 and -502: about 2^-181, whose nearest
binary32 is 0; and at 150 Hz, exp(-83.7758) - exp(-335.1), about 4.14e-37. -/
theorem test_dist_low_rate : (distCoeffs .reference distExample 100).dSpan = 0 ∧
    (distCoeffs .reference distExample 150).dSpan.extractLsb' 23 8 = 6#8 := by decide +kernel
/-- 92 "OPEN parameters": another address width, other rates, another comb length and another `Coef`. -/
theorem test_configuration :
    answer (.process 0xFFFE 1 48000) { liveState with config := { Config.reference with addrWidth := 16 } } = some (.errBuffer, none) ∧
    answer (.process 0x1000 1 48000) { liveState with config := { Config.reference with fsMax := 44100 } } = some (.errRate, none) ∧
    (revLane { Config.reference with combLen3 := 2 } ⟨0, 0, 0, 0, 0, 0⟩ { Chan.zero.rev with c3 := ⟨0, 1, []⟩ } 0).1.c3.idx = 0 ∧
    coef { Config.reference with coefOther := [(.pi, 0x40490FDA#32)] } .pi = 0x40490FDA#32 ∧
    coef .reference .pi = 0x40490FDB#32 := by decide +kernel

/-! Witnesses: for every statement with hypotheses, concrete values that meet them together, at the ends of their ranges. -/

/-- An unlisted word and a listed one, and a state where the unlisted one waits on a port. -/
theorem witness_UnlistedWordsAreIllegal :
    ¬ listedWord 0x2FF00000#32 ∧ listedWord 0x26300000#32 ∧
    { State.reset with turns := [.command .control], ctl := [0x2FF00000#32, 7] }.fault = none ∧
    portOf { State.reset with turns := [.command .control], ctl := [0x2FF00000#32, 7] } .control = 0x2FF00000#32 :: [7] := by
  refine ⟨?_, .inr (.inr (.inr (.inr (.inl ⟨.delayMix, by decide⟩)))), rfl, rfl⟩
  rintro (h | h | h | h | ⟨r, h⟩ | ⟨r, h⟩)
  all_goals first | exact absurd h (by decide) | (cases r <;> exact absurd h (by decide))
theorem witness_StepRunsTheDecodedCommand :
    State.reset.fault = none ∧ decode (portOf { State.reset with turns := [.command .audio], aud := [0x10000000#32] } .audio) =
      .command .create [] := by decide
theorem witness_PlacedCommandRunsNext : State.reset.fault = none ∧
    decode (tableWords 32 0x10000000) = .command .create [] ∧
    decode (tableWords 32 0x13000000) = .command (.process 0 0 0) [] ∧
    decode (tableWords 64 0x3F80000026300000) = .command (.setDelayMix 0x3F800000#32) [] := by decide
theorem witness_MarkedStateIsQuiescent :
    { State.reset with fault := some .concurrentControl }.fault = some .concurrentControl := rfl
theorem witness_NoCommandClearsTheMark :
    (∃ t, exec .create { State.reset with fault := some .hostBufferAccess } = .next t) ∧
    (∃ t, exec .reset busyState = .next t ∧ busyState.fault = none ∧ t.fault ≠ none) :=
  ⟨⟨_, rfl⟩, ⟨_, rfl, rfl, by decide⟩⟩
theorem legal_createParams : Params.legal createParams := by
  intro r
  cases r <;> decide
theorem chan_zero_ok : Chan.ok .reference Chan.zero := by
  have h : ∀ len, 0 < len → Comb.ok len .zero := fun len h => ⟨h, Machine.wf_nil, below_nil _⟩
  refine ⟨⟨h _ ?_, h _ ?_, h _ ?_, h _ ?_, h _ ?_, h _ ?_, h _ ?_, h _ ?_⟩, Machine.wf_nil, below_nil _⟩ <;> decide
theorem work_zero_ok : Work.ok .reference Work.zero := ⟨chan_zero_ok, chan_zero_ok, by decide⟩
/-- The invariant with a PROCESS in flight, and a step from there. -/
theorem witness_EveryStepKeepsTheInvariant : State.Inv busyState ∧ ∃ t, step busyState = .next t := by
  refine ⟨⟨by decide, Memory.wf_nil _, legal_createParams, work_zero_ok, fun _ => ⟨rfl, ?_⟩⟩, ⟨_, rfl⟩⟩
  refine ⟨by decide, by decide, by decide, by decide, by decide, by decide, legal_createParams, rfl, ?_, ?_⟩
  · decide +kernel
  · decide +kernel
theorem witness_CreateMakesAFreshInstance :
    (State.reset.live = false ∧ State.reset.allocDraws.headD true = true) ∧
    ({ State.reset with allocDraws := [false] }.live = false ∧
      { State.reset with allocDraws := [false] }.allocDraws.headD true = false) ∧ liveState.live = true := by decide
theorem witness_DestroyAndResetResults : liveState.live = true ∧ liveState.busy = false := by decide
theorem witness_CommandsDuringProcessFault : busyState.live = true ∧ busyState.busy = true := ⟨rfl, rfl⟩
theorem witness_CommandsWithoutAnInstance : State.reset.live = false ∧ Instr.destroy ≠ .create ∧
    ∀ r : Reg, Instr.destroy ≠ getInstr r := by
  refine ⟨rfl, by decide, fun r => ?_⟩
  cases r <;> decide
theorem witness_ResetIdempotentAndCreateForgets :
    liveState.live = true ∧ liveState.busy = false ∧ (∃ t, exec .reset liveState = .next t) ∧
    (∃ d c, exec .destroy liveState = .next d ∧ d.allocDraws.headD true = true ∧ exec .create d = .next c) ∧
    State.reset.live = false ∧ State.reset.allocDraws.headD true = true ∧ ∃ g, exec .create State.reset = .next g :=
  ⟨rfl, rfl, ⟨_, rfl⟩, ⟨_, _, rfl, rfl, rfl⟩, rfl, rfl, ⟨_, rfl⟩⟩
/-- One state and operands for each check of PROCESS, at the ends of the ranges of the reference configuration. -/
theorem witness_ProcessChecksInOrder :
    State.reset.live = false ∧ (busyState.live = true ∧ busyState.busy = true) ∧
    (liveState.live = true ∧ liveState.busy = false ∧ (7999#32 : Word).toInt < liveState.config.fsMin ∧
      liveState.config.fsMax < (192001#32 : Word).toInt ∧ (0xFFFFBB80#32 : Word).toInt < liveState.config.fsMin) ∧
    (liveState.config.fsMin ≤ (8000#32 : Word).toInt ∧ (192000#32 : Word).toInt ≤ liveState.config.fsMax ∧
      (0#32 : Word).toNat = 0 ∧ (1#32 : Word).toNat ≠ 0 ∧
      (0x1001#32 : Word).toNat % 2 = 1 ∧ (0xFFFFFFFC#32 : Word).toNat % 2 = 0 ∧
      (0xFFFFFFFC#32 : Word).toNat + 4 * (2#32 : Word).toNat - 1 > 2 ^ liveState.config.addrWidth - 1) :=
  ⟨rfl, ⟨rfl, rfl⟩, by decide, by decide⟩
theorem witness_ProcessBeginsWithASnapshot :
    liveState.live = true ∧ liveState.busy = false ∧ liveState.config.fsMin ≤ (8000#32 : Word).toInt ∧
    (192000#32 : Word).toInt ≤ liveState.config.fsMax ∧
    (1#32 : Word).toNat ≠ 0 ∧ (0xFFFFFFFC#32 : Word).toNat % 2 = 0 ∧
    (0xFFFFFFFC#32 : Word).toNat + 4 * (1#32 : Word).toNat - 1 ≤ 2 ^ liveState.config.addrWidth - 1 := by decide
/-- `busyState` moved to the last frame of the address space. -/
def topState : State := { busyState with flight := { busyState.flight with base := 0xFFFFFFFC#32 } }
theorem witness_EngineFrameStep :
    topState.busy = true ∧ topState.flight.n < topState.flight.frames.toNat ∧
    topState.flight.base.toNat + 4 * topState.flight.n + 3 < 2 ^ topState.config.addrWidth := ⟨rfl, by decide, by decide⟩
theorem witness_FrameWritesOnlyItsFourBytes :
    Memory.wf topState.config topState.mem ∧ topState.busy = true ∧ topState.flight.n < topState.flight.frames.toNat ∧
    ∃ t, engineTurn topState = .next t := ⟨Memory.wf_nil _, rfl, by decide, ⟨_, rfl⟩⟩
theorem witness_EndStepAndIdleEngine :
    (∃ s : State, s.busy = true ∧ s.flight.n = s.flight.frames.toNat) ∧ State.reset.busy = false :=
  ⟨⟨{ busyState with flight := { busyState.flight with n := 1 } }, rfl, rfl⟩, rfl⟩
theorem witness_EngineTurnsEndTheProcess :
    topState.fault = none ∧ topState.busy = true ∧ topState.flight.n ≤ topState.flight.frames.toNat ∧
    topState.flight.base.toNat + 4 * topState.flight.frames.toNat ≤ 2 ^ topState.config.addrWidth ∧
    { topState with turns := [.engine, .engine, .command .audio] }.turns =
      List.replicate (topState.flight.frames.toNat - topState.flight.n + 1) .engine ++ [.command .audio] :=
  ⟨rfl, rfl, by decide, by decide, rfl⟩
theorem witness_AllDisabledIsAPassthrough :
    liveState.fault = none ∧ liveState.live = true ∧ liveState.busy = false ∧
    Memory.wf liveState.config [(0x1000, (0xD2#8 : Byte))] ∧
    (∀ r : Reg, r.isEnable = true → readReg liveState.params r ≠ 1) ∧ (0x1000#32 : Word).toNat % 2 = 0 ∧
    { liveState with aud := [0x13000000#32, 0x1000, 1, 8000] }.aud = [0x13000000#32, 0x1000#32, 1#32, 8000#32] ++ [] ∧
    { liveState with turns := [.command .audio, .engine, .engine] }.turns =
      .command .audio :: (List.replicate ((1#32 : Word).toNat + 1) .engine ++ []) := by
  refine ⟨rfl, rfl, rfl, by decide, fun r _ => ?_, by decide, rfl, rfl⟩
  cases r <;> decide
/-- Each clause of the sample conversion: NaN, the infinities, both rails at their limits, and a value between. -/
theorem witness_FloatToSampleSaturates :
    isNaN 0x7FC00000#32 = true ∧ isFinite 0x3F7FFE00#32 = true ∧ 32767 ≤ f32Value 0x3F7FFE00#32 * 32768 ∧
    f32Value 0xBF800000#32 * 32768 ≤ -32768 ∧
    (-32768 < f32Value 0x3F000000#32 * 32768 ∧ f32Value 0x3F000000#32 * 32768 < 32767) := by
  have h1 : unpack 0x3F7FFE00#32 = .fin false 16776704 (-24) := by decide
  have h2 : unpack 0xBF800000#32 = .fin true 8388608 (-23) := by decide
  have h3 : unpack 0x3F000000#32 = .fin false 8388608 (-24) := by decide
  refine ⟨by decide, by decide, ?_, ?_, ?_, ?_⟩ <;> simp only [f32Value, h1, h2, h3] <;> norm_num
/-- Each clause of the clamp: NaN, at or below zero, above 1, and 1 itself. -/
theorem witness_ClampToTheUnitRange :
    isNaN 0xFFFFFFFF#32 = true ∧ isFinite 0x80000000#32 = true ∧ f32Value 0x80000000#32 ≤ 0 ∧
    isFinite 0x3F800001#32 = true ∧ 1 < f32Value 0x3F800001#32 ∧
    isFinite 0x3F800000#32 = true ∧ 0 < f32Value 0x3F800000#32 ∧ f32Value 0x3F800000#32 ≤ 1 := by
  have h1 : unpack 0x80000000#32 = .fin true 0 (-149) := by decide
  have h2 : unpack 0x3F800001#32 = .fin false 8388609 (-23) := by decide
  have h3 : unpack 0x3F800000#32 = .fin false 8388608 (-23) := by decide
  refine ⟨by decide, by decide, ?_, by decide, ?_, by decide, ?_, ?_⟩ <;> simp only [f32Value, h1, h2, h3] <;> norm_num
theorem witness_DistortionSetAndGet : liveState.live = true := rfl
theorem witness_FilterSetAndGet : liveState.live = true := rfl
theorem witness_EqSetAndGet : liveState.live = true := rfl
theorem witness_CompressorSetAndGet : liveState.live = true := rfl
theorem witness_PhaserSetAndGet : liveState.live = true := rfl
theorem witness_ReverbSetAndGet : liveState.live = true := rfl
theorem witness_DelaySetAndGet : liveState.live = true := rfl
theorem witness_SetThenGetReadsTheStoredValue : busyState.live = true ∧ Reg.delayTime ≠ Reg.delayMix := ⟨rfl, by decide⟩
theorem witness_CommandsLeaveAnInFlightProcess :
    busyState.live = true ∧ busyState.busy = true ∧ ∃ t, exec (.setDelayMix 0x3F800000#32) busyState = .next t :=
  ⟨rfl, rfl, ⟨_, rfl⟩⟩
/-- Two states the engine cannot tell apart, with different parameters. -/
theorem witness_EngineReadsOnlyTheSnapshot :
    engineView busyState { busyState with params := Params.zero } ∧ (∃ t, engineTurn busyState = .next t) ∧
    Params.zero ≠ busyState.params := ⟨⟨rfl, rfl, rfl, rfl, rfl⟩, ⟨_, rfl⟩, by decide⟩
theorem witness_CommandsTouchNoHostMemory : ∃ t, exec .create State.reset = .next t := ⟨_, rfl⟩
theorem witness_HostMemoryPort : Memory.wf .reference [(0xFFFFFFFE, (1#8 : Byte)), (0xFFFFFFFF, (2#8 : Byte))] ∧
    0xFFFFFFFE + 1 < 2 ^ Config.reference.addrWidth := by decide
/-- Accesses of two bytes: over the first and over the last byte of the buffer of `busyState`, just below it and just above it,
at the top of the address space and past it. -/
theorem witness_HostAccessToTheBufferFaults :
    busyState.fault = none ∧ Memory.wf busyState.config busyState.mem ∧ ([1, 2] : List Byte).length = 2 ∧
    (busyState.busy = true ∧ ∃ a, 0xFFF ≤ a ∧ a < 0xFFF + 2 ∧ busyState.flight.base.toNat ≤ a ∧
      a < busyState.flight.base.toNat + 4 * busyState.flight.frames.toNat) ∧
    (∃ a, 0x1003 ≤ a ∧ a < 0x1003 + 2 ∧ busyState.flight.base.toNat ≤ a ∧
      a < busyState.flight.base.toNat + 4 * busyState.flight.frames.toNat) ∧
    touchesBuffer busyState 0xFFE 2 = false ∧ touchesBuffer busyState 0x1004 2 = false ∧
    0xFFFFFFFE + 2 ≤ 2 ^ busyState.config.addrWidth ∧ 2 ^ busyState.config.addrWidth < 0xFFFFFFFF + 2 ∧
    { busyState with turns := [.hostWrite 0x1000 [1, 2]] }.turns = .hostWrite 0x1000 [1, 2] :: [] ∧
    { busyState with turns := [.hostRead 0x1003 2] }.turns = .hostRead 0x1003 2 :: [] :=
  ⟨rfl, Memory.wf_nil _, rfl, ⟨rfl, 0x1000, by decide⟩, ⟨0x1003, by decide⟩, by decide, by decide, by decide, by decide,
    rfl, rfl⟩
/-- Two states alike on the left channel and different on the right, and the other way round. -/
theorem witness_ChannelsDoNotAffectEachOther :
    (∃ s s' : State, Memory.wf s.config s.mem ∧ Memory.wf s'.config s'.mem ∧ sameLeft s s' ∧ s.work.right ≠ s'.work.right ∧
      (∃ t, engineTurn s = .next t) ∧ ∃ t', engineTurn s' = .next t') ∧
    (∃ s s' : State, Memory.wf s.config s.mem ∧ Memory.wf s'.config s'.mem ∧ sameRight s s' ∧ s.work.left ≠ s'.work.left ∧
      (∃ t, engineTurn s = .next t) ∧ ∃ t', engineTurn s' = .next t') := by
  refine ⟨⟨busyState, { busyState with
      work := { busyState.work with right := { busyState.work.right with filt := ⟨1, 2⟩ } } }, Memory.wf_nil _, Memory.wf_nil _,
      ⟨rfl, rfl, rfl, rfl, rfl, rfl, fun _ _ => rfl⟩, by decide, ⟨_, rfl⟩, ⟨_, rfl⟩⟩,
    ⟨busyState, { busyState with
      work := { busyState.work with left := { busyState.work.left with filt := ⟨1, 2⟩ } } }, Memory.wf_nil _, Memory.wf_nil _,
      ⟨rfl, rfl, rfl, rfl, rfl, rfl, fun _ _ => rfl⟩, by decide, ⟨_, rfl⟩, ⟨_, rfl⟩⟩⟩
/-- A snapshot with every stage disabled. -/
theorem witness_DisabledStagesKeepTheirState : ∀ r : Reg, r.isEnable = true → readReg createParams r ≠ 1 := by
  intro r _
  cases r <;> decide
theorem witness_DryDistortionPassesItsInput :
    Config.reference.coefOther = [] ∧ createParams.distortionMix = 0x00000000#32 ∧ isFinite 0x3F000000#32 = true ∧ 0x3F000000#32 ≠ 0x80000000#32 ∧
    isFinite (distLane (distCoeffs .reference createParams 48000) ⟨0, 0, 0⟩ 0x3F000000#32).1.post = true := by decide +kernel
theorem witness_FilterAnswersOneSampleLate : isFinite (FiltK.mk 0x3F800000#32 0x3FB504F3#32).fF = true := by decide
/-- A band of gain 0.5 with the coefficients B1 = A1 = -1.5, B2 = A2 = 0.75. -/
theorem witness_UnityBandPassesItsInput :
    isFinite 0x3F800000#32 = true ∧ 0x3F800000#32 ≠ 0x80000000#32 ∧
    isFinite (fmul 0xBFC00000#32 0x3F800000#32) = true ∧ isFinite (fmul 0x3F400000#32 0x3F800000#32) = true := by
  decide +kernel
/-- The CREATE coefficients at 48000 Hz and an input of full scale, at the threshold 1.0. -/
theorem witness_CompressorBelowThresholdPasses :
    isFinite 0xBF800000#32 = true ∧
    fgt (fmul fHalf (fadd (compLane ⟨0x3F800000#32, 0x3F800000#32, 0x3E4093C2#32, 0x3B086426#32, 0x3B086426#32, 0x3F800000#32⟩
        ⟨0x3F800000#32, 0x3F800000#32⟩ 0xBF800000#32).1.env
      (fsqrt (compLane ⟨0x3F800000#32, 0x3F800000#32, 0x3E4093C2#32, 0x3B086426#32, 0x3B086426#32, 0x3F800000#32⟩
        ⟨0x3F800000#32, 0x3F800000#32⟩ 0xBF800000#32).1.ms))) 0x3F800000#32 = false := by decide +kernel
theorem witness_PhaseStaysInTheUnitInterval :
    (0x3F7FFFFF#32 : F32).toNat < 0x3F800000 ∧ (PhK.mk 0x3F7FFFFF#32 0 0 0).pInc.toNat < 0x3F800000 ∧
    (PhK.mk 0 0 0 0).pInc = 0x00000000#32 := by decide
/-- A comb of length 1, whose cursor never moves, and one of length 3 at its last element. -/
theorem witness_CombDelaysByExactlyItsLength :
    (Comb.zero.idx < 1 ∧ Cells.wf Comb.zero.buf ∧ ([] : List F32).length + 1 = 1) ∧
    ((Comb.mk 0 2 [(2, 5#32)]).idx < 3 ∧ Cells.wf (Comb.mk 0 2 [(2, 5#32)]).buf ∧ ([7, 8] : List F32).length + 1 = 3) := by decide
/-- The least offset at the last cursor, and an offset of three frames. -/
theorem witness_DelayReadsOffFramesBack :
    (1 ≤ (DlyK.mk 1 0 0 0).off ∧ (DlyK.mk 1 0 0 0).off ≤ 47999 ∧ { Work.zero with dlyW := 47999 }.dlyW < 48000 ∧
      Cells.wf Work.zero.left.dly ∧ Cells.wf Work.zero.right.dly ∧ ([] : List (F32 × F32)).length + 1 = (DlyK.mk 1 0 0 0).off) ∧
    ([(1, 2), (3, 4)] : List (F32 × F32)).length + 1 = (DlyK.mk 3 0 0 0).off := by decide
theorem witness_DelayOffsetIsClampedFrames :
    (0x3F800000#32 : F32).toNat ≤ 0x3F800000 ∧ (1 : Int) ≤ 1 ∧ (1 : Int) ≤ 16777216 ∧ (16777216 : Int) ≤ 16777216 := by decide
theorem witness_AddSubtractMultiplyRoundOnce : isFinite 0x7F7FFFFF#32 = true ∧ isFinite 0x00000001#32 = true := by decide
theorem witness_DivideAndRootRoundOnce : isFinite 0x3F800000#32 = true ∧ f32Value 0x3F800000#32 ≠ 0 ∧
    isFinite 0x80000000#32 = true ∧ 0 ≤ f32Value 0x80000000#32 := by
  have h1 : unpack 0x80000000#32 = .fin true 0 (-149) := by decide
  have h3 : unpack 0x3F800000#32 = .fin false 8388608 (-23) := by decide
  refine ⟨by decide, ?_, by decide, ?_⟩ <;> simp only [f32Value, h1, h3] <;> norm_num
theorem witness_CompareAbsFloorAreExact :
    isNaN 0x7FC00000#32 = true ∧ isFinite 0xBFC00000#32 = true ∧ isFinite 0x3F800000#32 = true := by decide
/-- A decided expression that the reference configuration lists no value for, and a configuration that lists one. -/
theorem witness_CoefficientsAreCorrectlyRounded :
    Config.reference.coefOther.lookup (.exp (.rat (-1) 3)) = none ∧ (coefAt 96 (.exp (.rat (-1) 3))).isSome = true ∧
    [(RealExpr.pi, 0x40490FDA#32)].lookup RealExpr.pi = some (0x40490FDA#32 : F32) := by decide +kernel
theorem witness_NoStepChangesTheConfiguration : ∃ t, step busyState = .next t := ⟨_, rfl⟩
/-- A state with a result, and a step that ends a PROCESS. -/
theorem witness_ResultOfARun : (∃ r, liveState.result = some r) ∧
    ∃ t, step { busyState with flight := { busyState.flight with n := 1 } } = .next t :=
  ⟨⟨_, rfl⟩, ⟨_, rfl⟩⟩

end Sys2Proof.Tests
end

namespace Sys2Proof.Machine

/-! ## What a binary32 stands for -/

theorem f32Value_of_unpack {x : F32} {neg : Bool} {m : Nat} {e : ℤ} (h : unpack x = .fin neg m e) :
    f32Value x = signValue neg * ((m : ℝ) * (2 : ℝ) ^ e) := by
  simp [f32Value, h, signValue]

theorem abs_f32Value_of_unpack {x : F32} {neg : Bool} {m : Nat} {e : ℤ} (h : unpack x = .fin neg m e) :
    |f32Value x| = (m : ℝ) * (2 : ℝ) ^ e := by
  have hpos : 0 ≤ (m : ℝ) * (2 : ℝ) ^ e := mul_nonneg (Nat.cast_nonneg m) (zpow2_pos e).le
  rw [f32Value_of_unpack h]
  simpa [abs_of_nonneg hpos] using abs_signValue_mul neg ((m : ℝ) * (2 : ℝ) ^ e) 0

/-- A finite binary32 is a sign, a significand of at most 24 bits and an exponent; above the subnormal exponent the
significand has all 24. -/
theorem unpack_of_isFinite {x : F32} (h : isFinite x = true) : ∃ neg m e, unpack x = .fin neg m e ∧
    m < 2 ^ 24 ∧ -149 ≤ e ∧ e ≤ 104 ∧ (e = -149 ∨ 2 ^ 23 ≤ m) := by
  have hne : fexp x ≠ 255 := by simpa [isFinite] using h
  have hlt : fexp x < 2 ^ 8 := Nat.mod_lt _ (by norm_num)
  have hfrac : ffrac x < 2 ^ 23 := Nat.mod_lt _ (by norm_num)
  unfold unpack
  rw [if_neg hne]
  split
  · exact ⟨_, _, _, rfl, by omega, by omega, by omega, .inl rfl⟩
  · exact ⟨_, _, _, rfl, by omega, by omega, by omega, .inr (by omega)⟩

theorem unpack_of_isNaN {x : F32} (h : isNaN x = true) : unpack x = .nan := by
  obtain ⟨hexp, hfrac⟩ : fexp x = 255 ∧ ffrac x ≠ 0 := by simpa [isNaN] using h
  simp [unpack, hexp, hfrac]

theorem isNaN_of_isFinite {x : F32} (h : isFinite x = true) : isNaN x = false := by
  have hne : fexp x ≠ 255 := by simpa [isFinite] using h
  simp [isNaN, hne]

theorem unpack_finf (neg : Bool) : unpack (finf neg) = .inf neg := by cases neg <;> decide

theorem unpack_nanResult (op : NaNSource) (a b : F32) : unpack (nanResult op a b) = .nan := by
  have hlt : (Config.nanBits op a b).toNat % 2 ^ 22 < 2 ^ 22 := Nat.mod_lt _ (by norm_num)
  apply unpack_of_isNaN
  unfold nanResult isNaN
  simp only
  rw [fexp_packBits _ (by omega), ffrac_packBits _ (by omega)]
  simp only [Bool.and_eq_true, beq_iff_eq, bne_iff_ne]
  omega

/-! ## The order of the finite values -/

/-- The value at a place of the order, as `orderKey` counts places. -/
noncomputable def keyValue (k : ℤ) : ℝ := if k < 0 then -magValue k.natAbs else magValue k.natAbs

/-- The next magnitude is one last place above. -/
theorem magValue_succ (b : Nat) : ∃ q : ℤ, magValue (b + 1) = magValue b + (2 : ℝ) ^ q := by
  obtain ⟨j, s, hb, hs, hlow⟩ : ∃ j s : Nat, b = j * 2 ^ 23 + s ∧ s + 1 ≤ 2 ^ 24 ∧ (j = 0 ∨ 2 ^ 23 ≤ s) := by
    by_cases h : b < 2 ^ 23
    · exact ⟨0, b, by omega, by omega, .inl rfl⟩
    · exact ⟨b / 2 ^ 23 - 1, b % 2 ^ 23 + 2 ^ 23, by omega, by omega, .inr (by omega)⟩
  have hj : ((j : ℤ) - 149 + 149).toNat = j := by omega
  have h0 := magValue_pack (q := (j : ℤ) - 149) (s := s) (by omega) (by omega) (by omega)
  have h1 := magValue_pack (q := (j : ℤ) - 149) (s := s + 1) (by omega) hs (by omega)
  rw [hj] at h0 h1
  refine ⟨(j : ℤ) - 149, ?_⟩
  rw [hb, add_assoc, h0, h1]
  push_cast
  ring

theorem magValue_strictMono : StrictMono magValue := by
  refine strictMono_nat_of_lt_succ fun b => ?_
  obtain ⟨q, hq⟩ := magValue_succ b
  rw [hq]
  linarith [zpow2_pos q]

theorem magValue_zero : magValue 0 = 0 := by simp [magValue]

theorem keyValue_strictMono : StrictMono keyValue := by
  intro j k hjk
  have mono : ∀ {a b : Nat}, a < b → magValue a < magValue b := fun h => magValue_strictMono h
  unfold keyValue
  split <;> split
  · exact neg_lt_neg (mono (by omega))
  · have h0 : 0 < magValue j.natAbs := magValue_zero ▸ mono (by omega)
    linarith [magValue_nonneg k.natAbs]
  · omega
  · exact mono (by omega)

theorem f32Value_eq_keyValue {x : F32} (h : isFinite x = true) : f32Value x = keyValue (orderKey x) := by
  obtain ⟨neg, b, hb, rfl⟩ := exists_packBits x
  rw [f32Value_packBits neg ((isFinite_packBits neg hb).1 h)]
  have hkey : orderKey (packBits neg b) = if neg then -(b : ℤ) else b := by
    unfold orderKey
    rw [fsign_packBits neg hb, packBits_toNat neg hb]
    cases neg
    · simp only [Bool.false_eq_true, if_false]
      omega
    · simp only [if_true]
      omega
  rw [hkey]
  cases neg
  · simp [keyValue, signValue]
  · rcases Nat.eq_zero_or_pos b with rfl | hpos
    · simp [keyValue, signValue, magValue_zero]
    · simp [keyValue, signValue, hpos]

/-- On finite operands the ordered comparison is that of the values. -/
theorem fgt_iff {a b : F32} (ha : isFinite a = true) (hb : isFinite b = true) :
    fgt a b = true ↔ f32Value b < f32Value a := by
  rw [f32Value_eq_keyValue ha, f32Value_eq_keyValue hb, keyValue_strictMono.lt_iff_lt]
  simp [fgt, isNaN_of_isFinite ha, isNaN_of_isFinite hb]

theorem fge_iff {a b : F32} (ha : isFinite a = true) (hb : isFinite b = true) :
    fge a b = true ↔ f32Value b ≤ f32Value a := by
  rw [f32Value_eq_keyValue ha, f32Value_eq_keyValue hb, keyValue_strictMono.le_iff_le]
  simp [fge, isNaN_of_isFinite ha, isNaN_of_isFinite hb]

theorem fle_iff {a b : F32} (ha : isFinite a = true) (hb : isFinite b = true) :
    fle a b = true ↔ f32Value a ≤ f32Value b := fge_iff hb ha

theorem fgt_of_isNaN {a b : F32} (h : isNaN a = true ∨ isNaN b = true) : fgt a b = false := by
  rcases h with h | h <;> simp [fgt, h]

/-- A finite value lies below the overflow threshold. -/
theorem abs_f32Value_lt {x : F32} (h : isFinite x = true) : |f32Value x| < 2 ^ 128 - 2 ^ 103 := by
  obtain ⟨neg, m, e, hu, hm, -, he, -⟩ := unpack_of_isFinite h
  have hm' : (m : ℝ) ≤ 2 ^ 24 - 1 := by
    have : ((m + 1 : Nat) : ℝ) ≤ ((2 ^ 24 : Nat) : ℝ) := by exact_mod_cast hm
    push_cast at this
    linarith
  calc |f32Value x| = (m : ℝ) * (2 : ℝ) ^ e := abs_f32Value_of_unpack hu
    _ ≤ (2 ^ 24 - 1) * (2 : ℝ) ^ (104 : ℤ) := mul_le_mul hm' (zpow2_le he) (zpow2_pos e).le (by norm_num)
    _ < 2 ^ 128 - 2 ^ 103 := by norm_num

/-! ## Exact results -/

/-- A value that some finite binary32 has is rounded to itself. -/
theorem RoundsTo.exact {r : ℝ} {v w : F32} (h : RoundsTo r v) (hw : isFinite w = true) (hr : f32Value w = r) :
    isFinite v = true ∧ f32Value v = r := by
  obtain ⟨hfin, hnear⟩ := h.1 (hr ▸ abs_f32Value_lt hw)
  obtain ⟨hle, -⟩ := hnear w hw
  rw [hr, sub_self, abs_zero] at hle
  exact ⟨hfin, sub_eq_zero.1 (abs_nonpos_iff.1 hle)⟩

/-- A significand of at most 24 bits at any last place of the format is the magnitude of a finite binary32. -/
theorem exists_magValue (k : Nat) {s : Nat} (hs : s ≤ 2 ^ 24) (hlt : k * 2 ^ 23 + s < 0x7F800000) :
    ∃ b < 0x7F800000, magValue b = (s : ℝ) * (2 : ℝ) ^ ((k : ℤ) - 149) := by
  have packed : ∀ {j t : Nat}, t ≤ 2 ^ 24 → (j = 0 ∨ 2 ^ 23 ≤ t) →
      magValue (j * 2 ^ 23 + t) = (t : ℝ) * (2 : ℝ) ^ ((j : ℤ) - 149) := by
    intro j t ht hlow
    have h := magValue_pack (q := (j : ℤ) - 149) (s := t) (by omega) ht (by omega)
    rwa [show ((j : ℤ) - 149 + 149).toNat = j by omega] at h
  induction k generalizing s with
  | zero => exact ⟨_, hlt, packed hs (.inl rfl)⟩
  | succ j ih =>
    by_cases hlow : 2 ^ 23 ≤ s
    · exact ⟨_, hlt, packed hs (.inr hlow)⟩
    · have hlt' : j * 2 ^ 23 + 2 * s < 0x7F800000 := by
        linarith
      obtain ⟨b, hb, hv⟩ := ih (s := 2 * s) (by omega) hlt'
      refine ⟨b, hb, hv.trans ?_⟩
      rw [show ((j + 1 : Nat) : ℤ) - 149 = ((j : ℤ) - 149) + 1 by push_cast; ring,
        zpow_add₀ (by norm_num : (2 : ℝ) ≠ 0)]
      push_cast
      ring

/-- The same with a sign. -/
theorem exists_f32Value (neg : Bool) {m : Nat} {e : ℤ} (hm : m ≤ 2 ^ 24) (he : -149 ≤ e)
    (htop : (e + 149) * 2 ^ 23 + m < 0x7F800000) :
    ∃ w, isFinite w = true ∧ f32Value w = signValue neg * ((m : ℝ) * (2 : ℝ) ^ e) := by
  obtain ⟨k, rfl⟩ : ∃ k : Nat, e = (k : ℤ) - 149 := ⟨(e + 149).toNat, by omega⟩
  obtain ⟨b, hb, hv⟩ := exists_magValue k hm (by omega)
  exact ⟨packBits neg b, (isFinite_packBits neg (by omega)).2 hb, by rw [f32Value_packBits neg hb, hv]⟩

/-- An integer as its sign and absolute value. -/
theorem intCast_eq_signValue_mul (t : ℤ) : (t : ℝ) = signValue (decide (t < 0)) * (t.natAbs : ℝ) := by
  rw [Nat.cast_natAbs, Int.cast_abs]
  unfold signValue
  by_cases h : t < 0
  · rw [abs_of_neg (by exact_mod_cast h)]
    simp [h]
  · rw [abs_of_nonneg (by exact_mod_cast not_lt.1 h)]
    simp [h]

/-- An integer multiple of a power of two, rounded once. -/
theorem roundDyadic_int_spec (t : ℤ) (e : ℤ) :
    RoundsTo ((t : ℝ) * (2 : ℝ) ^ e) (roundDyadic (decide (t < 0)) t.natAbs e) := by
  have h := roundDyadic_spec (decide (t < 0)) (.inl rfl : StandsFor _ t.natAbs e)
  rwa [← mul_assoc, ← intCast_eq_signValue_mul] at h

/-- An integer of at most 24 bits, at a last place of the format, is kept exactly. -/
theorem roundDyadic_int_exact {t : ℤ} {e : ℤ} (ht : t.natAbs ≤ 2 ^ 24) (he : -149 ≤ e) (he' : e ≤ 103) :
    isFinite (roundDyadic (decide (t < 0)) t.natAbs e) = true ∧
    f32Value (roundDyadic (decide (t < 0)) t.natAbs e) = (t : ℝ) * (2 : ℝ) ^ e := by
  obtain ⟨w, hw, hv⟩ := exists_f32Value (decide (t < 0)) (m := t.natAbs) (e := e) ht he (by omega)
  rw [← mul_assoc, ← intCast_eq_signValue_mul] at hv
  exact (roundDyadic_int_spec t e).exact hw hv

/-! ## The arithmetic operations round once -/

/-- `alignTo` only restates the value as a multiple of the lower power. -/
theorem alignTo_value {e₀ e : ℤ} (h : e₀ ≤ e) (neg : Bool) (m : Nat) :
    (alignTo e₀ neg m e : ℝ) * (2 : ℝ) ^ e₀ = signValue neg * ((m : ℝ) * (2 : ℝ) ^ e) := by
  have hsplit : (2 : ℝ) ^ e = (2 : ℝ) ^ (e - e₀).toNat * (2 : ℝ) ^ e₀ := by
    rw [← zpow_natCast, ← zpow_add₀ (by norm_num : (2 : ℝ) ≠ 0)]
    congr 1
    omega
  rw [hsplit]
  unfold alignTo signValue
  cases neg
  · simp [mul_assoc]
  · simp [mul_assoc]

theorem addFinite_spec (s₁ : Bool) (m₁ : Nat) (e₁ : ℤ) (s₂ : Bool) (m₂ : Nat) (e₂ : ℤ) :
    RoundsTo (signValue s₁ * ((m₁ : ℝ) * (2 : ℝ) ^ e₁) + signValue s₂ * ((m₂ : ℝ) * (2 : ℝ) ^ e₂))
      (addFinite s₁ m₁ e₁ s₂ m₂ e₂) := by
  rw [← alignTo_value (min_le_left e₁ e₂), ← alignTo_value (min_le_right e₁ e₂), ← add_mul, ← Int.cast_add]
  unfold addFinite
  simp only
  split
  · next h =>
    rw [h]
    simpa using RoundsTo_zero (s₁ && s₂)
  · exact roundDyadic_int_spec _ _

theorem signValue_not (neg : Bool) : signValue (!neg) = -signValue neg := by cases neg <;> simp [signValue]

theorem signValue_bne (s t : Bool) : signValue (s != t) = signValue s * signValue t := by
  cases s <;> cases t <;> simp [signValue]

theorem signValue_mul_self (s : Bool) : signValue s * signValue s = 1 := by cases s <;> simp [signValue]

theorem fadd_spec {a b : F32} (ha : isFinite a = true) (hb : isFinite b = true) :
    RoundsTo (f32Value a + f32Value b) (fadd a b) := by
  obtain ⟨s, m, e, hua, -⟩ := unpack_of_isFinite ha
  obtain ⟨t, n, f, hub, -⟩ := unpack_of_isFinite hb
  rw [f32Value_of_unpack hua, f32Value_of_unpack hub]
  simpa [fadd, addNum, hua, hub] using addFinite_spec s m e t n f

theorem fsub_spec {a b : F32} (ha : isFinite a = true) (hb : isFinite b = true) :
    RoundsTo (f32Value a - f32Value b) (fsub a b) := by
  obtain ⟨s, m, e, hua, -⟩ := unpack_of_isFinite ha
  obtain ⟨t, n, f, hub, -⟩ := unpack_of_isFinite hb
  have h := addFinite_spec s m e (!t) n f
  rw [signValue_not, neg_mul, ← sub_eq_add_neg] at h
  rw [f32Value_of_unpack hua, f32Value_of_unpack hub]
  simpa [fsub, addNum, Num.negate, hua, hub] using h

theorem fmul_spec {a b : F32} (ha : isFinite a = true) (hb : isFinite b = true) :
    RoundsTo (f32Value a * f32Value b) (fmul a b) := by
  obtain ⟨s, m, e, hua, -⟩ := unpack_of_isFinite ha
  obtain ⟨t, n, f, hub, -⟩ := unpack_of_isFinite hb
  have h := roundDyadic_spec (s != t) (.inl rfl : StandsFor _ (m * n) (e + f))
  have hprod : f32Value a * f32Value b = signValue (s != t) * (((m * n : Nat) : ℝ) * (2 : ℝ) ^ (e + f)) := by
    rw [f32Value_of_unpack hua, f32Value_of_unpack hub, signValue_bne, zpow_add₀ (by norm_num : (2 : ℝ) ≠ 0)]
    push_cast
    ring
  rw [hprod]
  simpa [fmul, hua, hub] using h

theorem fdiv_spec {a b : F32} (ha : isFinite a = true) (hb : isFinite b = true) (hb0 : f32Value b ≠ 0) :
    RoundsTo (f32Value a / f32Value b) (fdiv a b) := by
  obtain ⟨s, m, e, hua, -⟩ := unpack_of_isFinite ha
  obtain ⟨t, n, f, hub, -⟩ := unpack_of_isFinite hb
  have hva := f32Value_of_unpack hua
  have hvb := f32Value_of_unpack hub
  have hn : n ≠ 0 := by
    rintro rfl
    exact hb0 (by simp [hvb])
  have hdiv : fdiv a b = roundDyadic (s != t) (quotientSticky m n).1 ((quotientSticky m n).2 + (e - f)) := by
    simp [fdiv, hua, hub, hn]
  rw [hdiv]
  by_cases hm : m = 0
  · subst hm
    have hzero : f32Value a / f32Value b = 0 := by simp [hva]
    rw [hzero]
    simpa [quotientSticky, roundDyadic] using RoundsTo_zero (s != t)
  · have h := roundDyadic_spec (s != t) ((quotientSticky_standsFor hm hn).scale (e - f))
    have hquot : f32Value a / f32Value b = signValue (s != t) * ((m : ℝ) / n * (2 : ℝ) ^ (e - f)) := by
      rw [hva, hvb, signValue_bne, zpow_sub₀ (by norm_num : (2 : ℝ) ≠ 0)]
      have hn' : (n : ℝ) ≠ 0 := by exact_mod_cast hn
      have ht : signValue t ≠ 0 := left_ne_zero_of_mul_eq_one (signValue_mul_self t)
      field_simp
      rw [sq, signValue_mul_self, mul_one]
    rw [hquot]
    exact h

/-- What the integer square root stands for, with its sticky bit. -/
theorem isqrt_standsFor {n : Nat} (hn : 2 ^ 64 ≤ n) :
    StandsFor (2 * Real.sqrt n) (2 * isqrt n + if isqrt n * isqrt n = n then 0 else 1) 0 := by
  obtain ⟨hlo, hhi⟩ := isqrt_spec n
  generalize isqrt n = r at *
  have hr : 2 ^ 32 ≤ r := by
    by_contra hc
    have : (r + 1) * (r + 1) ≤ 2 ^ 32 * 2 ^ 32 := Nat.mul_le_mul (by omega) (by omega)
    omega
  split
  · next h =>
    left
    rw [← h]
    push_cast
    rw [Real.sqrt_mul_self (by positivity)]
    simp
  · next h =>
    have hlo' : (r : ℝ) < Real.sqrt n := by
      rw [Real.lt_sqrt (by positivity), sq]
      exact_mod_cast lt_of_le_of_ne hlo h
    have hhi' : Real.sqrt n < (r : ℝ) + 1 := by
      rw [Real.sqrt_lt' (by positivity), sq]
      exact_mod_cast hhi
    refine .inr ⟨by omega, ?_, ?_⟩
    · rw [abs_lt]
      push_cast
      simp only [zpow_zero, mul_one]
      constructor <;> linarith
    · rw [Nat.le_log2 (by omega)]
      omega

theorem fsqrt_spec {a : F32} (ha : isFinite a = true) (h0 : 0 ≤ f32Value a) :
    RoundsTo (Real.sqrt (f32Value a)) (fsqrt a) := by
  obtain ⟨s, m, e, hua, -⟩ := unpack_of_isFinite ha
  have hva := f32Value_of_unpack hua
  by_cases hm : m = 0
  · subst hm
    have hzero : Real.sqrt (f32Value a) = 0 := by simp [hva]
    rw [hzero]
    simpa [fsqrt, hua] using RoundsTo_zero s
  · have hpos : (0 : ℝ) < (m : ℝ) * (2 : ℝ) ^ e :=
      mul_pos (by exact_mod_cast Nat.pos_of_ne_zero hm) (zpow2_pos e)
    have hs : s = false := by
      cases s
      · rfl
      · simp only [hva, signValue, if_true] at h0
        linarith
    subst hs
    obtain ⟨odd, j, hodd, hj, he⟩ : ∃ (odd : Nat) (j : ℤ), (e % 2).toNat = odd ∧ (e - odd) / 2 = j ∧ e = odd + 2 * j :=
      ⟨_, _, rfl, rfl, by omega⟩
    have hn : 2 ^ 64 ≤ m * 2 ^ odd * 2 ^ 64 :=
      Nat.le_mul_of_pos_left _ (Nat.mul_pos (Nat.pos_of_ne_zero hm) (Nat.two_pow_pos odd))
    have hroot : Real.sqrt (f32Value a) =
        signValue false * (2 * Real.sqrt ((m * 2 ^ odd * 2 ^ 64 : Nat) : ℝ) * (2 : ℝ) ^ (j - 33)) := by
      have hsq : f32Value a = ((m * 2 ^ odd * 2 ^ 64 : Nat) : ℝ) * ((2 : ℝ) ^ (j - 32)) ^ 2 := by
        rw [hva, he, ← zpow_natCast, ← zpow_mul, zpow_add₀ (by norm_num : (2 : ℝ) ≠ 0),
          show (j - 32) * ((2 : Nat) : ℤ) = 2 * j - 64 by push_cast; ring,
          zpow_sub₀ (by norm_num : (2 : ℝ) ≠ 0), zpow_natCast]
        simp only [signValue, Bool.false_eq_true, if_false]
        push_cast
        norm_num
        ring
      rw [hsq, Real.sqrt_mul (Nat.cast_nonneg _), Real.sqrt_sq (zpow2_pos _).le,
        show j - 32 = (j - 33) + 1 by ring, zpow_add₀ (by norm_num : (2 : ℝ) ≠ 0) (j - 33) 1]
      simp only [signValue, Bool.false_eq_true, if_false]
      ring
    have h := roundDyadic_spec false ((isqrt_standsFor hn).scale (j - 33))
    rw [zero_add] at h
    rw [hroot]
    simpa [fsqrt, hua, hm, hodd, hj] using h

/-! ## Absolute value and floor -/

theorem fabs_packBits (neg : Bool) {b : Nat} (hb : b < 2 ^ 31) : fabs (packBits neg b) = packBits false b := by
  apply BitVec.eq_of_toNat_eq
  unfold fabs
  rw [BitVec.toNat_and, packBits_toNat neg hb, packBits_toNat false hb]
  have hmask : (0x7FFFFFFF#32).toNat = 2 ^ 31 - 1 := by decide
  rw [hmask, Nat.and_two_pow_sub_one_eq_mod]
  cases neg
  · simpa using Nat.mod_eq_of_lt hb
  · simpa using Nat.mod_eq_of_lt hb

theorem fabs_spec {a : F32} (ha : isFinite a = true) :
    isFinite (fabs a) = true ∧ f32Value (fabs a) = |f32Value a| ∧ fsign (fabs a) = false := by
  obtain ⟨neg, b, hb, rfl⟩ := exists_packBits a
  have hfin := (isFinite_packBits neg hb).1 ha
  have habs : |signValue neg * magValue b| = magValue b := by
    simpa [abs_of_nonneg (magValue_nonneg b)] using abs_signValue_mul neg (magValue b) 0
  rw [fabs_packBits neg hb, f32Value_packBits neg hfin, f32Value_packBits false hfin, habs]
  exact ⟨(isFinite_packBits false hb).2 hfin, by simp [signValue], fsign_packBits false hb⟩

/-- `floorDyadic` is the floor of the value. -/
theorem floorDyadic_eq (neg : Bool) (m : Nat) (e : ℤ) :
    floorDyadic neg m e = ⌊signValue neg * ((m : ℝ) * (2 : ℝ) ^ e)⌋ := by
  unfold floorDyadic
  split
  · next he =>
    rw [← alignTo_value he]
    simp
  · next he =>
    have hval : signValue neg * ((m : ℝ) * (2 : ℝ) ^ e) =
        ((if neg then -(m : ℤ) else (m : ℤ) : ℤ) : ℝ) / ((2 ^ (-e).toNat : Nat) : ℝ) := by
      have hpow : (2 : ℝ) ^ e = ((2 : ℝ) ^ (-e).toNat)⁻¹ := by
        rw [← zpow_natCast, ← zpow_neg]
        congr 1
        omega
      rw [hpow]
      cases neg
      · simp [signValue, div_eq_mul_inv]
      · simp [signValue, div_eq_mul_inv]
    rw [hval, Int.floor_div_natCast, Int.floor_intCast]

theorem floorInt_eq {a : F32} (ha : isFinite a = true) : floorInt a = ⌊f32Value a⌋ := by
  obtain ⟨s, m, e, hua, -⟩ := unpack_of_isFinite ha
  rw [f32Value_of_unpack hua, ← floorDyadic_eq]
  simp [floorInt, hua]

theorem ffloor_spec {a : F32} (ha : isFinite a = true) :
    isFinite (ffloor a) = true ∧ f32Value (ffloor a) = (⌊f32Value a⌋ : ℝ) := by
  obtain ⟨s, m, e, hua, hm, -, -, -⟩ := unpack_of_isFinite ha
  have hva := f32Value_of_unpack hua
  have hfl : ffloor a = if ⌊f32Value a⌋ = 0 then fzero s
      else roundDyadic (decide (⌊f32Value a⌋ < 0)) ⌊f32Value a⌋.natAbs 0 := by
    simp [ffloor, hua, floorDyadic_eq, ← hva]
  rw [hfl]
  split
  · next h0 =>
    rw [h0, Int.cast_zero]
    exact (RoundsTo_zero s).exact (w := fzero false) (by decide) (by simp [fzero, f32Value_packBits, magValue_zero])
  · have hr := roundDyadic_int_spec ⌊f32Value a⌋ 0
    rw [zpow_zero, mul_one] at hr
    rcases le_or_gt 0 e with he | he
    · -- the value is a whole number already
      have hint : (⌊f32Value a⌋ : ℝ) = f32Value a := by
        rw [hva, ← alignTo_value he, zpow_zero, mul_one, Int.floor_intCast]
      exact hr.exact ha hint.symm
    · -- the value has fewer than 24 bits above the point
      have hsmall : |f32Value a| ≤ 16777216 := by
        rw [abs_f32Value_of_unpack hua]
        have hm' : (m : ℝ) ≤ 16777216 := by exact_mod_cast hm.le
        have he' : (2 : ℝ) ^ e ≤ 1 := by simpa using zpow2_le he.le
        nlinarith [zpow2_pos e]
      obtain ⟨hlo, hhi⟩ := abs_le.1 hsmall
      have hlo' : -16777216 ≤ ⌊f32Value a⌋ := Int.le_floor.2 (by push_cast; exact hlo)
      have hhi' : ⌊f32Value a⌋ ≤ 16777216 := Int.cast_le.1 ((Int.floor_le _).trans (by push_cast; exact hhi))
      have hex := roundDyadic_int_exact (t := ⌊f32Value a⌋) (e := 0) (by omega) (by norm_num) (by norm_num)
      rwa [zpow_zero, mul_one] at hex

end Sys2Proof.Machine

namespace Sys2Proof.Machine

/-- Settles O54: the sum and the product of dyadic numbers are dyadic, and `roundDyadic` rounds those once. -/
theorem addSubtractMultiplyRoundOnce : Obligations.AddSubtractMultiplyRoundOnce := by
  unfold Obligations.AddSubtractMultiplyRoundOnce
  exact fun a b ha hb => ⟨fadd_spec ha hb, fsub_spec ha hb, fmul_spec ha hb⟩

/-- Settles O55: the sticky bit of the quotient or root stands for the exact result, which is rounded once. -/
theorem divideAndRootRoundOnce : Obligations.DivideAndRootRoundOnce := by
  unfold Obligations.DivideAndRootRoundOnce
  exact ⟨fun a b ha hb hb0 => fdiv_spec ha hb hb0, fun a ha h0 => fsqrt_spec ha h0⟩

/-- Settles O56: the place of a finite value in the order is strictly monotone in the value, and the floor of a value
is one itself. -/
theorem compareAbsFloorAreExact : Obligations.CompareAbsFloorAreExact := by
  unfold Obligations.CompareAbsFloorAreExact
  refine ⟨fun a b => ⟨fgt_of_isNaN, fgt_iff⟩, fun a ha => ?_⟩
  obtain ⟨habs, habsv, hsign⟩ := fabs_spec ha
  obtain ⟨hfl, hflv⟩ := ffloor_spec ha
  exact ⟨habs, habsv, hsign, hfl, hflv⟩

/-! ## Stored parameters and samples -/

theorem f32Value_zero : f32Value 0x00000000#32 = 0 := by
  have hu : unpack 0x00000000#32 = .fin false 0 (-149) := by decide
  simp [f32Value, hu]

theorem f32Value_fOne : f32Value fOne = 1 := by
  have hu : unpack fOne = .fin false (2 ^ 23) (-23) := by decide
  rw [f32Value_of_unpack hu]
  norm_num [signValue]

/-- `clamp01` on a finite value, by the value. -/
theorem clamp01_of_isFinite {v : F32} (hv : isFinite v = true) :
    clamp01 v = if f32Value v ≤ 0 then 0x00000000#32 else if 1 < f32Value v then fOne else v := by
  have hle : fle v 0x00000000#32 = true ↔ f32Value v ≤ 0 := f32Value_zero ▸ fle_iff hv (by decide)
  have hgt : fgt v fOne = true ↔ 1 < f32Value v := f32Value_fOne ▸ fgt_iff hv (by decide)
  simp only [clamp01, isNaN_of_isFinite hv, Bool.false_eq_true, if_false, hle, hgt]

/-- Settles O27: on finite values the two comparisons of `clamp01` are those of the values; NaN and infinities one by one. -/
theorem clampToTheUnitRange : Obligations.ClampToTheUnitRange := by
  unfold Obligations.ClampToTheUnitRange
  refine fun v => ⟨fun hnan => by simp [clamp01, hnan], ?_, ?_, fun hv => ?_⟩
  · rintro rfl
    decide
  · rintro rfl
    decide
  · rw [clamp01_of_isFinite hv]
    refine ⟨fun hle => if_pos hle, fun hgt => ?_, fun hpos hle => ?_⟩
    · rw [if_neg (by linarith), if_pos hgt]
      rfl
    · rw [if_neg (not_le.2 hpos), if_neg (not_lt.2 hle)]

/-- A sample is converted exactly (00_scope R18). -/
theorem in16_spec (s : Sample) : isFinite (in16 s) = true ∧ f32Value (in16 s) = (s.toInt : ℝ) / 2 ^ 15 := by
  have hlo := BitVec.le_toInt s
  have hhi := BitVec.toInt_lt (x := s)
  obtain ⟨hfin, hval⟩ := roundDyadic_int_exact (t := s.toInt) (e := -15) (by omega) (by norm_num) (by norm_num)
  refine ⟨hfin, hval.trans ?_⟩
  rw [div_eq_mul_inv, zpow_neg]
  norm_num

/-- Settles O25: a sample's 16 bits are a significand, so its rounding is exact. -/
theorem sampleToFloatIsExact : Obligations.SampleToFloatIsExact := by
  unfold Obligations.SampleToFloatIsExact
  intro s
  obtain ⟨hfin, hval⟩ := in16_spec s
  have hlo : (-32768 : ℝ) ≤ s.toInt := by exact_mod_cast BitVec.le_toInt s
  have hhi : (s.toInt : ℝ) ≤ 32767 := by exact_mod_cast Int.le_of_lt_add_one (BitVec.toInt_lt (x := s))
  refine ⟨hfin, hval, ?_, ?_⟩ <;> rw [hval] <;> linarith

theorem unpack_f32768 : unpack f32768 = .fin false (2 ^ 23) (-8) := by decide

/-- The multiply of `sat16` is exact, or it overflows to the infinity of the operand's sign. -/
theorem fmul_f32768 {y : F32} (hy : isFinite y = true) :
    (isFinite (fmul y f32768) = true ∧ f32Value (fmul y f32768) = f32Value y * 32768) ∨
    (32767 ≤ f32Value y * 32768 ∧ fmul y f32768 = finf false) ∨
    (f32Value y * 32768 ≤ -32768 ∧ fmul y f32768 = finf true) := by
  have hconst : f32Value f32768 = 32768 := by
    rw [f32Value_of_unpack unpack_f32768]
    norm_num [signValue]
  have hround := fmul_spec hy (show isFinite f32768 = true by decide)
  rw [hconst] at hround
  by_cases hlt : |f32Value y * 32768| < 2 ^ 128 - 2 ^ 103
  · obtain ⟨s, m, e, hu, hm, he, -, hnorm⟩ := unpack_of_isFinite hy
    have hshift : (2 : ℝ) ^ (e + 15) = (2 : ℝ) ^ e * 32768 := by
      rw [zpow_add₀ (by norm_num : (2 : ℝ) ≠ 0)]
      norm_num
    have hscale : f32Value y * 32768 = signValue s * ((m : ℝ) * (2 : ℝ) ^ (e + 15)) := by
      rw [f32Value_of_unpack hu, hshift]
      ring
    have htop : e + 15 ≤ 104 := by
      by_contra hc
      have hm23 : (2 : ℝ) ^ 23 ≤ m := by exact_mod_cast (show 2 ^ 23 ≤ m by omega)
      have hpow : (2 : ℝ) ^ (105 : ℤ) ≤ (2 : ℝ) ^ (e + 15) := zpow2_le (by omega)
      have habs : |f32Value y * 32768| = (m : ℝ) * (2 : ℝ) ^ (e + 15) := by
        rw [abs_mul, abs_f32Value_of_unpack hu, hshift, mul_assoc]
        norm_num
      have hbig := mul_le_mul hm23 hpow (zpow2_pos _).le (Nat.cast_nonneg m)
      rw [habs] at hlt
      norm_num at hbig hlt
      linarith
    obtain ⟨w, hw, hwv⟩ := exists_f32Value s (m := m) (e := e + 15) hm.le (by omega) (by omega)
    exact .inl (hround.exact hw (hwv.trans hscale.symm))
  · rcases le_abs.1 (not_lt.1 hlt) with hpos | hneg
    · refine .inr (.inl ⟨?_, hround.2.1 hpos⟩)
      norm_num at hpos
      linarith
    · have hneg' : f32Value y * 32768 ≤ -(2 ^ 128 - 2 ^ 103) := by linarith
      refine .inr (.inr ⟨?_, hround.2.2 hneg'⟩)
      norm_num at hneg'
      linarith

/-- `nearestEvenInt` is the nearest integer, the even one of two. -/
theorem nearestEvenInt_spec (neg : Bool) (m : Nat) (e : ℤ) :
    |(nearestEvenInt neg m e : ℝ) - signValue neg * ((m : ℝ) * (2 : ℝ) ^ e)| ≤ 1 / 2 ∧
    (|(nearestEvenInt neg m e : ℝ) - signValue neg * ((m : ℝ) * (2 : ℝ) ^ e)| = 1 / 2 →
      nearestEvenInt neg m e % 2 = 0) := by
  obtain ⟨v, hv, hnear, heven⟩ : ∃ v : Nat, nearestEvenInt neg m e = (if neg then -(v : ℤ) else v) ∧
      |(v : ℝ) - (m : ℝ) * (2 : ℝ) ^ e| ≤ 1 / 2 ∧
      (|(v : ℝ) - (m : ℝ) * (2 : ℝ) ^ e| = 1 / 2 → v % 2 = 0) := by
    rcases le_or_gt 0 e with he | he
    · refine ⟨m * 2 ^ e.toNat, by simp [nearestEvenInt, he], ?_⟩
      have hexact : ((m * 2 ^ e.toNat : Nat) : ℝ) - (m : ℝ) * (2 : ℝ) ^ e = 0 := by
        have hpow : (2 : ℝ) ^ e = (2 : ℝ) ^ e.toNat := by rw [← zpow_natCast, Int.toNat_of_nonneg he]
        rw [hpow]
        push_cast
        ring
      rw [hexact, abs_zero]
      norm_num
    · refine ⟨shiftNearestEven m (-e).toNat, by simp [nearestEvenInt, not_le.2 he], ?_⟩
      have hpow : (m : ℝ) * (2 : ℝ) ^ e = (m : ℝ) / 2 ^ (-e).toNat := by
        rw [div_eq_mul_inv, ← zpow_natCast, ← zpow_neg, Int.toNat_of_nonneg (by omega), neg_neg]
      rw [hpow]
      exact shiftNearestEven_real m _
  have hcast : (nearestEvenInt neg m e : ℝ) = signValue neg * v := by
    rw [hv]
    cases neg <;> simp [signValue]
  rw [hcast, abs_signValue_mul, hv]
  refine ⟨hnear, fun h => ?_⟩
  have := heven h
  cases neg
  · simp only [Bool.false_eq_true, if_false]
    omega
  · simp only [if_true]
    omega

/-- `t` is the sample nearest the real `v`, ties to even, and a rail from there on (00_scope R19). -/
def SaturatesTo (v : ℝ) (t : Sample) : Prop :=
  (32767 ≤ v → t.toInt = 32767) ∧ (v ≤ -32768 → t.toInt = -32768) ∧
  (-32768 < v → v < 32767 → |(t.toInt : ℝ) - v| ≤ 1 / 2 ∧ (|(t.toInt : ℝ) - v| = 1 / 2 → t.toInt % 2 = 0))

/-- `sat16` where the multiply does not overflow, by the product. -/
theorem sat16_of_product_isFinite {y : F32} (hfin : isFinite (fmul y f32768) = true) :
    SaturatesTo (f32Value (fmul y f32768)) (sat16 y) := by
  obtain ⟨s, m, e, hu, -⟩ := unpack_of_isFinite hfin
  have hhigh : f32Value 0x46FFFE00#32 = 32767 := by
    have h : unpack 0x46FFFE00#32 = .fin false 16776704 (-9) := by decide
    rw [f32Value_of_unpack h]
    norm_num [signValue]
  have hlow : f32Value 0xC7000000#32 = -32768 := by
    have h : unpack 0xC7000000#32 = .fin true (2 ^ 23) (-8) := by decide
    rw [f32Value_of_unpack h]
    norm_num [signValue]
  have hge : fge (fmul y f32768) 0x46FFFE00#32 = true ↔ 32767 ≤ f32Value (fmul y f32768) :=
    hhigh ▸ fge_iff hfin (by decide)
  have hle : fle (fmul y f32768) 0xC7000000#32 = true ↔ f32Value (fmul y f32768) ≤ -32768 :=
    hlow ▸ fle_iff hfin (by decide)
  have hsat : sat16 y = if 32767 ≤ f32Value (fmul y f32768) then 0x7FFF#16
      else if f32Value (fmul y f32768) ≤ -32768 then 0x8000#16 else BitVec.ofInt 16 (nearestEvenInt s m e) := by
    simp only [sat16, hu, hge, hle]
  rw [hsat]
  refine ⟨fun h => ?_, fun h => ?_, fun h1 h2 => ?_⟩
  · rw [if_pos h]
    decide
  · rw [if_neg (by linarith), if_pos h]
    decide
  · rw [if_neg (not_le.2 h2), if_neg (not_le.2 h1)]
    obtain ⟨hnear, heven⟩ := nearestEvenInt_spec s m e
    rw [← f32Value_of_unpack hu] at hnear heven
    obtain ⟨hn1, hn2⟩ := abs_le.1 hnear
    have hlo : -32769 < nearestEvenInt s m e := by
      have : (-32769 : ℝ) < nearestEvenInt s m e := by linarith
      exact_mod_cast this
    have hhi : nearestEvenInt s m e < 32768 := by
      have : (nearestEvenInt s m e : ℝ) < 32768 := by linarith
      exact_mod_cast this
    have htoInt : (BitVec.ofInt 16 (nearestEvenInt s m e)).toInt = nearestEvenInt s m e :=
      BitVec.toInt_ofInt_eq_self (by norm_num) (by norm_num; omega) (by norm_num; omega)
    rw [htoInt]
    exact ⟨hnear, heven⟩

/-- `sat16` on a finite value, by the scaled value (00_scope R19). -/
theorem sat16_of_isFinite {y : F32} (hy : isFinite y = true) : SaturatesTo (f32Value y * 32768) (sat16 y) := by
  rcases fmul_f32768 hy with ⟨hfin, hval⟩ | ⟨hv, hinf⟩ | ⟨hv, hinf⟩
  · rw [← hval]
    exact sat16_of_product_isFinite hfin
  · have hsat : sat16 y = 0x7FFF#16 := by simp [sat16, hinf, unpack_finf]
    refine ⟨fun _ => by rw [hsat]; decide, fun h => ?_, fun _ h => ?_⟩ <;> linarith
  · have hsat : sat16 y = 0x8000#16 := by simp [sat16, hinf, unpack_finf]
    refine ⟨fun h => ?_, fun _ => by rw [hsat]; decide, fun h _ => ?_⟩ <;> linarith

/-- `sat16` undoes `in16`. -/
theorem sat16_in16 (s : Sample) : sat16 (in16 s) = s := by
  obtain ⟨hfin, hval⟩ := in16_spec s
  obtain ⟨hhigh, hlow, hmid⟩ := sat16_of_isFinite hfin
  have hscaled : f32Value (in16 s) * 32768 = s.toInt := by
    rw [hval]
    norm_num
  rw [hscaled] at hhigh hlow hmid
  apply BitVec.eq_of_toInt_eq
  have hlo := BitVec.le_toInt s
  have hhi := BitVec.toInt_lt (x := s)
  by_cases h1 : s.toInt = 32767
  · rw [hhigh (by rw [h1]; norm_num), h1]
  · by_cases h2 : s.toInt = -32768
    · rw [hlow (by rw [h2]; norm_num), h2]
    · have hgt : (-32768 : ℝ) < s.toInt := by exact_mod_cast (show -32768 < s.toInt by omega)
      have hlt : (s.toInt : ℝ) < 32767 := by exact_mod_cast (show s.toInt < 32767 by omega)
      have hdist : |((sat16 (in16 s)).toInt - s.toInt : ℤ)| < 1 := by
        have : |((sat16 (in16 s)).toInt : ℝ) - s.toInt| < 1 := by linarith [(hmid hgt hlt).1]
        exact_mod_cast this
      exact sub_eq_zero.1 (Int.abs_lt_one_iff.1 hdist)

theorem sat16_of_isNaN {y : F32} (hy : isNaN y = true) : sat16 y = 0 := by
  have hmul : fmul y f32768 = nanResult .mul y f32768 := by simp [fmul, unpack_of_isNaN hy]
  simp [sat16, hmul, unpack_nanResult]

/-- Settles O26: the multiply by 32768 is exact or past a rail, and the rounding after it is to nearest. -/
theorem floatToSampleSaturates : Obligations.FloatToSampleSaturates := by
  unfold Obligations.FloatToSampleSaturates
  refine ⟨fun y => ⟨sat16_of_isNaN, ?_, ?_, sat16_of_isFinite⟩, sat16_in16⟩
  · rintro rfl
    decide
  · rintro rfl
    decide

/-! ## The delay offset -/

theorem ofInt_exact {i : ℤ} (hi : i.natAbs ≤ 2 ^ 24) : isFinite (ofInt i) = true ∧ f32Value (ofInt i) = (i : ℝ) := by
  simpa [ofInt] using roundDyadic_int_exact (e := 0) hi (by norm_num) (by norm_num)

/-- The bit patterns from +0.0 to 1.0 are the finite values of that range. -/
theorem unit_range_of_toNat_le {x : F32} (hx : x.toNat ≤ 0x3F800000) :
    isFinite x = true ∧ 0 ≤ f32Value x ∧ f32Value x ≤ 1 := by
  have hpack : x = packBits false x.toNat := by
    apply BitVec.eq_of_toNat_eq
    rw [packBits_toNat false (by omega)]
    simp
  have hfin : isFinite x = true := by
    rw [hpack]
    exact (isFinite_packBits false (by omega)).2 (by omega)
  have hval : f32Value x = magValue x.toNat := by
    conv_lhs => rw [hpack, f32Value_packBits false (by omega)]
    simp [signValue]
  have hone : magValue 0x3F800000 = 1 := by norm_num [magValue]
  exact ⟨hfin, hval ▸ magValue_nonneg _, hval ▸ hone ▸ magValue_strictMono.monotone hx⟩

/-- Settles O53: the rate is exact and the product stays far below overflow, so it is the real product rounded once, and
the offset is its floor within bounds. -/
theorem delayOffsetIsClampedFrames : Obligations.DelayOffsetIsClampedFrames := by
  unfold Obligations.DelayOffsetIsClampedFrames
  intro time fs htime hlo hhi
  obtain ⟨hfin, hval⟩ := ofInt_exact (i := fs) (by omega)
  obtain ⟨htfin, ht0, ht1⟩ := unit_range_of_toNat_le htime
  have hfs0 : (0 : ℝ) ≤ fs := by exact_mod_cast (show 0 ≤ fs by omega)
  have hfs1 : (fs : ℝ) ≤ 16777216 := by exact_mod_cast hhi
  have hnear : IsNearestEven (f32Value time * (fs : ℝ)) (fmul time (ofInt fs)) := by
    have hround := fmul_spec htfin hfin
    rw [hval] at hround
    refine hround.1 ?_
    rw [abs_of_nonneg (mul_nonneg ht0 hfs0)]
    have hle : f32Value time * (fs : ℝ) ≤ 1 * 16777216 := mul_le_mul ht1 hfs1 hfs0 zero_le_one
    norm_num at hle ⊢
    linarith
  refine ⟨hval, hnear, ?_⟩
  rw [delayOffset, floorInt_eq hnear.1]
  simp only [Config.cap]
  omega

/-! ## Block coefficients -/

/-- What is decided at a precision is the expression's value rounded once. -/
theorem coefAt_spec {p : Nat} (hp : 32 ≤ p) {e : RealExpr} {v : F32} (h : coefAt p e = some v) :
    RoundsTo (exprValue e) v := by
  obtain ⟨x, hx, h⟩ := Option.bind_eq_some_iff.1 h
  have hc := enclose_contains hp e x hx
  have hspan := toSpan_has hc
  have hends : (if roundCoef (toSpan p x).lo (2 ^ p) = roundCoef (toSpan p x).hi (2 ^ p)
      then some (roundCoef (toSpan p x).lo (2 ^ p)) else none) = some v → RoundsTo (exprValue e) v := by
    intro h
    split at h
    · next heq =>
      cases h
      have hpow : (2 ^ p : Nat) ≠ 0 := by positivity
      have hlo := roundCoef_spec (toSpan p x).lo hpow
      have hhi := roundCoef_spec (toSpan p x).hi hpow
      rw [← heq] at hhi
      push_cast at hlo hhi
      exact hlo.between hhi ((div_le_iff₀ (two_pow_pos p)).2 hspan.1) ((le_div_iff₀ (two_pow_pos p)).2 hspan.2)
    · cases h
  cases x with
  | ratio n d =>
    cases h
    obtain ⟨hd, hval⟩ := hc
    rw [hval]
    exact roundCoef_spec n hd
  | piRatio n d => exact hends h
  | span lo hi => exact hends h

/-- Settles O57: each precision that decides answers the value rounded once, so the first one that does is right. -/
theorem coefficientsAreCorrectlyRounded : Obligations.CoefficientsAreCorrectlyRounded := by
  unfold Obligations.CoefficientsAreCorrectlyRounded
  refine fun c e => ⟨fun hnone hdec => ?_, fun v hv => by simp [coef, hv]⟩
  have hcoef : coef c e = coefReference e := by simp [coef, hnone]
  rw [hcoef, coefReference]
  cases h96 : coefAt 96 e with
  | some v => exact coefAt_spec (by norm_num) h96
  | none =>
    cases h192 : coefAt 192 e with
    | some v => exact coefAt_spec (by norm_num) h192
    | none =>
      cases h384 : coefAt 384 e with
      | some v => exact coefAt_spec (by norm_num) h384
      | none => simp [h96, h192, h384] at hdec

end Sys2Proof.Machine

namespace Sys2Proof.Machine

/-! ## Commands -/

/-- Settles O15: the check of `busy` comes before every other that a live chain can meet. -/
theorem commandsDuringProcessFault : Obligations.CommandsDuringProcessFault := by
  unfold Obligations.CommandsDuringProcessFault
  intro s base frames rate hl hb
  refine ⟨?_, ?_, ?_⟩
  · simp [exec_reset, execReset, hl, hb, raiseFault]
  · simp [exec_destroy, execDestroy, hl, hb, raiseFault]
  · simp [exec_process, execProcess, hl, hb, raiseFault]

/-- PROCESS of a live, idle chain at a supported rate: the checks that remain (40_chain R69). -/
theorem exec_process_of_rate {s : State} {base frames rate : Word} (hl : s.live = true) (hb : s.busy = false)
    (hlo : s.config.fsMin ≤ rate.toInt) (hhi : rate.toInt ≤ s.config.fsMax) :
    exec (.process base frames rate) s = .next (if frames = 0 then reply s .ok none
      else if base.toNat % 2 ≠ 0 then reply s .errBuffer none
      else if base.toNat + 4 * frames.toNat - 1 > s.config.addressSpace - 1 then reply s .errBuffer none
      else beginProcess base frames rate s) := by
  have hrate : ¬ (rateHz rate < s.config.fsMin ∨ s.config.fsMax < rateHz rate) := by
    unfold rateHz
    omega
  rw [exec_process, execProcess, if_neg hrate]
  simp [hl, hb]

/-- Settles O18: each clause has the checks before its own passed. -/
theorem processChecksInOrder : Obligations.ProcessChecksInOrder := by
  unfold Obligations.ProcessChecksInOrder
  intro s base frames rate
  refine ⟨fun hl => ?_, fun hl hb => ?_, fun hl hb hrate => ?_, fun hl hb hlo hhi => ?_⟩
  · simp [exec_process, execProcess, hl, reply]
  · simp [exec_process, execProcess, hl, hb, raiseFault]
  · have hrate' : rateHz rate < s.config.fsMin ∨ s.config.fsMax < rateHz rate := hrate
    simp [exec_process, execProcess, hl, hb, hrate', reply]
  · rw [exec_process_of_rate hl hb hlo hhi]
    have hne : frames.toNat ≠ 0 → frames ≠ 0 := fun h h0 => h (by rw [h0]; rfl)
    refine ⟨fun h0 => ?_, fun h0 hodd => ?_, fun h0 heven htop => ?_⟩
    · rw [if_pos (BitVec.eq_of_toNat_eq h0)]
      rfl
    · rw [if_neg (hne h0), if_pos (by omega)]
      rfl
    · rw [if_neg (hne h0), if_neg (by omega), if_pos (show _ > s.config.addressSpace - 1 from htop)]
      rfl

/-- Settles O39: each case of what a command can do is one of the three outcomes. -/
theorem everyCommandAnswersOnce : Obligations.EveryCommandAnswersOnce := by
  unfold Obligations.EveryCommandAnswersOnce
  intro i s
  obtain ⟨t, ht, hcase⟩ := exec_cases i s
  refine ⟨t, ht, ?_⟩
  cases hcase with
  | answer status data => exact .inl ⟨status, data, rfl, rfl, fun _ => rfl⟩
  | noMemory hl hd =>
    refine .inl ⟨.errAlloc, none, by simp, by simp, fun _ => ?_⟩
    unfold drawAlloc
    split <;> rfl
  | fault reason hl hb => exact .inr (.inl ⟨rfl, by simp, rfl⟩)
  | created hl hd => exact .inl ⟨.ok, none, by simp, by simp, fun h => absurd rfl h⟩
  | destroyed hl hb => exact .inl ⟨.ok, none, rfl, rfl, fun h => absurd rfl h⟩
  | cleared hl hb => exact .inl ⟨.ok, none, rfl, rfl, fun h => absurd rfl h⟩
  | began base frames rate hl hb => exact .inr (.inr ⟨hb, rfl, by rw [← hb]; rfl⟩)
  | wrote r data hl => exact .inl ⟨.ok, none, rfl, rfl, fun h => absurd rfl h⟩

/-! ## The configuration -/

@[simp] theorem drawAlloc_config (s : State) : (drawAlloc s).2.config = s.config := by
  unfold drawAlloc
  split <;> rfl

theorem exec_config {i : Instr} {s t : State} (h : exec i s = .next t) : t.config = s.config := by
  cases exec_inv h <;> simp

theorem engineTurn_config {s t : State} (h : engineTurn s = .next t) : t.config = s.config := by
  rcases engineTurn_cases h with ⟨-, rfl⟩ | ⟨-, -, -, rfl⟩ | ⟨-, -, rfl⟩ <;> rfl

theorem hostAccess_config {s t u : State} {addr len : Nat} (h : hostAccess s addr len t = .next u)
    (ht : t.config = s.config) : u.config = s.config := by
  rcases hostAccess_eq_next.1 h with ⟨-, rfl⟩ | ⟨-, -, rfl⟩
  · rfl
  · exact ht

/-- Settles O59, by the transition the step takes. -/
theorem noStepChangesTheConfiguration : Obligations.NoStepChangesTheConfiguration := by
  unfold Obligations.NoStepChangesTheConfiguration
  refine ⟨rfl, fun s t h => ?_⟩
  obtain ⟨-, ⟨a, i, rest, -, -, hx⟩ | ⟨a, why, rest, -, -, rfl⟩ | ⟨a, -, -, rfl⟩ | ⟨-, hx⟩ |
    ⟨addr, len, -, hx⟩ | ⟨addr, bytes, -, hx⟩⟩ := step_cases h
  · simpa using exec_config hx
  · simp
  · rfl
  · simpa using engineTurn_config hx
  · simpa using hostAccess_config hx rfl
  · simpa using hostAccess_config hx rfl

/-! ## The engine -/

/-- The engine's turn while a frame is left and its four bytes exist. -/
theorem engineTurn_frame {s : State} (hb : s.busy = true) (hn : s.flight.n < s.flight.frames.toNat)
    (ha : frameAddr s.flight + 3 < s.config.addressSpace) : engineTurn s = .next (frameNext s) := by
  simp [engineTurn, hb, hn, frameStep_eq ha]

/-- The engine's turn when every frame is done. -/
theorem engineTurn_end {s : State} (hb : s.busy = true) (hn : s.flight.n = s.flight.frames.toNat) :
    engineTurn s = .next (endStep s) := by
  simp [engineTurn, hb, hn]

/-- A stage applied or skipped, by its snapshot register (40_chain R73). -/
theorem stageIf_enabled (snap : Params) (r : Reg) (stage : Work → F32 × F32 → Work × (F32 × F32))
    (a : Work × (F32 × F32)) :
    stageIf (enabled snap r) stage a = if readReg snap r = 1 then stage a.1 a.2 else a := by
  simp [stageIf, enabled]

/-- Settles O20: the engine's turn is the frame step, and its stages are `runStages`, one after the other. -/
theorem engineFrameStep : Obligations.EngineFrameStep := by
  unfold Obligations.EngineFrameStep
  intro s hb hn ha
  refine ⟨_, _, _, _, _, _, _, _, rfl, rfl, rfl, rfl, rfl, rfl, rfl, rfl, ?_⟩
  rw [engineTurn_frame hb hn ha]
  simp only [frameNext, runStages, stageIf_enabled]
  rfl

/-! ## A PROCESS with every stage disabled -/

theorem runStages_of_disabled {c : Config} {snap : Params} (h : ∀ r : Reg, r.isEnable = true → readReg snap r ≠ 1)
    (k : Coeffs) (w : Work) (x : F32 × F32) : runStages c snap k w x = (w, x) := by
  have hskip : ∀ {r : Reg} {stage : Work → F32 × F32 → Work × (F32 × F32)} {a : Work × (F32 × F32)},
      r.isEnable = true → stageIf (enabled snap r) stage a = a := by
    intro r stage a hr
    rw [stageIf_enabled, if_neg (h r hr)]
  simp only [runStages]
  rw [hskip rfl, hskip rfl, hskip rfl, hskip rfl, hskip rfl, hskip rfl, hskip rfl]

/-- Writing back what a canonical memory holds changes nothing. -/
theorem writeCell_readCell {w : Nat} {m : Cells w} (hm : Cells.wf m) (a : Nat) : writeCell m a (readCell m a) = m := by
  induction m with
  | nil => simp [writeCell, consCell]
  | cons x cs ih =>
    obtain ⟨k, u⟩ := x
    obtain ⟨hlt, hu, hcs⟩ := Cells.wf_cons.1 hm
    unfold writeCell
    split
    · next h =>
      have hunlisted : ∀ y ∈ (k, u) :: cs, y.1 ≠ a := by
        intro y hy
        rcases List.mem_cons.1 hy with rfl | hy
        · exact Nat.ne_of_gt h
        · exact Nat.ne_of_gt (Nat.lt_trans h (hlt y hy))
      rw [readCell_of_unlisted hunlisted, consCell, if_pos rfl]
    · split
      · next h => rw [readCell_cons, if_pos h, consCell, if_neg hu, h]
      · next h => rw [readCell_cons, if_neg h, ih hcs]

/-- Writing back the sample a canonical memory holds changes nothing. -/
theorem memWrite16_memRead16 {m : Memory} (hm : Cells.wf m) (a : Nat) : memWrite16 m a (memRead16 m a) = m := by
  have hlow : (memRead16 m a).extractLsb' 0 8 = readCell m a := BitVec.extractLsb'_append_eq_right
  have hhigh : (memRead16 m a).extractLsb' 8 8 = readCell m (a + 1) := BitVec.extractLsb'_append_eq_left
  rw [memWrite16, hlow, hhigh, writeCell_readCell hm, writeCell_readCell hm]

/-- A frame with every stage disabled only counts itself. -/
theorem frameNext_of_disabled {s : State} (h : ∀ r : Reg, r.isEnable = true → readReg s.flight.snap r ≠ 1)
    (hm : Cells.wf s.mem) : frameNext s = { s with flight := { s.flight with n := s.flight.n + 1 } } := by
  simp only [frameNext, runStages_of_disabled h, sat16_in16, memWrite16_memRead16 hm]

theorem run_succ {M : Host.Core} {s t : M.State} (k : Nat) (h : M.step s = .next t) : M.run (k + 1) s = M.run k t := by
  rw [Host.Core.run, h]

/-- The engine's step for a frame with every stage disabled. -/
theorem step_frame_of_disabled {s : State} {ts : List Turn} (hf : s.fault = none) (hb : s.busy = true)
    (hd : ∀ r : Reg, r.isEnable = true → readReg s.flight.snap r ≠ 1) (hm : Cells.wf s.mem)
    (hn : s.flight.n < s.flight.frames.toNat) (ha : frameAddr s.flight + 3 < s.config.addressSpace)
    (ht : s.turns = .engine :: ts) :
    step s = .next { s with turns := ts, flight := { s.flight with n := s.flight.n + 1 } } :=
  calc step s = engineTurn { s with turns := ts } := step_engine hf ht
    _ = .next (frameNext { s with turns := ts }) := engineTurn_frame hb hn ha
    _ = _ := congrArg _ (frameNext_of_disabled hd hm)

/-- With every stage disabled, the `k` frames left and the end step only count the frames and end the PROCESS. -/
theorem run_engine_of_disabled (k : Nat) {s : State} {ts : List Turn} (hf : s.fault = none) (hb : s.busy = true)
    (hd : ∀ r : Reg, r.isEnable = true → readReg s.flight.snap r ≠ 1) (hm : Cells.wf s.mem)
    (hn : s.flight.n + k = s.flight.frames.toNat)
    (htop : s.flight.base.toNat + 4 * s.flight.frames.toNat ≤ s.config.addressSpace)
    (ht : s.turns = List.replicate (k + 1) .engine ++ ts) :
    Host.Core.run core (k + 1) s = .next (endStep
      { s with turns := ts, flight := { s.flight with n := s.flight.frames.toNat } }) := by
  induction k generalizing s with
  | zero =>
    have hstep : step s = .next (endStep { s with turns := ts }) :=
      (step_engine hf ht).trans (engineTurn_end hb hn)
    rw [← hn]
    exact run_succ (M := core) 0 hstep
  | succ k ih =>
    have ha : frameAddr s.flight + 3 < s.config.addressSpace := by
      unfold frameAddr
      omega
    have hstep := step_frame_of_disabled hf hb hd hm (by omega) ha ht
    exact (run_succ (M := core) (k + 1) hstep).trans (ih hf hb hd hm (by simp only; omega) htop rfl)

theorem decode_process (base frames rate : Word) (rest : List Word) :
    decode ([0x13000000#32, base, frames, rate] ++ rest) = .command (.process base frames rate) rest := by
  have hhead : decodeHead 0x13000000#32 = .ok .process := by decide
  simp [decode, hhead]

theorem fetch_command {s : State} {a : Agent} {ts : List Turn} (hf : s.fault = none)
    (ht : s.turns = .command a :: ts) : fetch s = commandTurn { s with turns := ts } a := by
  unfold fetch nextTurn
  simp only [hf, ht]

/-- A step on an agent's listed turn with a whole command on its port. -/
theorem step_command {s : State} {a : Agent} {ts : List Turn} {i : Instr} {rest : List Word} (hf : s.fault = none)
    (ht : s.turns = .command a :: ts) (hd : decode (portOf s a) = .command i rest) :
    step s = exec i { withPort { s with turns := ts } a rest with issuer := a } := by
  have hport : portOf { s with turns := ts } a = portOf s a := by cases a <;> rfl
  rw [step, fetch_command hf ht, commandTurn, hport, hd]

/-- The audio agent's turn with a PROCESS on its port that passes every check. -/
theorem step_beginProcess {s : State} {base frames rate : Word} {rest : List Word} {ts : List Turn}
    (hf : s.fault = none) (hl : s.live = true) (hb : s.busy = false)
    (hlo : s.config.fsMin ≤ rate.toInt) (hhi : rate.toInt ≤ s.config.fsMax) (hN : frames.toNat ≠ 0)
    (heven : base.toNat % 2 = 0) (htop : base.toNat + 4 * frames.toNat ≤ s.config.addressSpace)
    (haud : s.aud = [0x13000000#32, base, frames, rate] ++ rest) (ht : s.turns = .command .audio :: ts) :
    step s = .next (beginProcess base frames rate { s with turns := ts, aud := rest, issuer := .audio }) := by
  have hne : frames ≠ 0 := fun h0 => hN (by rw [h0]; rfl)
  have hdec : decode (portOf s .audio) = .command (.process base frames rate) rest := by
    rw [portOf_audio, haud, decode_process]
  have hinside : ¬ base.toNat + 4 * frames.toNat - 1 > s.config.addressSpace - 1 := by omega
  rw [step_command hf ht hdec]
  refine (exec_process_of_rate (s := { s with turns := ts, aud := rest, issuer := .audio }) hl hb hlo hhi).trans ?_
  rw [if_neg hne, if_neg (by omega)]
  exact congrArg _ (if_neg hinside)

/-- Settles O24: the command begins the PROCESS, and its frames and end step leave memory and working state alone. -/
theorem allDisabledIsAPassthrough : Obligations.AllDisabledIsAPassthrough := by
  unfold Obligations.AllDisabledIsAPassthrough
  intro s base frames rate rest ts hf hl hb hm hd hlo hhi hN heven htop haud ht
  have hbegin := step_beginProcess hf hl hb hlo hhi hN heven htop haud ht
  have hrun := run_engine_of_disabled frames.toNat (ts := ts) (s := beginProcess base frames rate
    { s with turns := List.replicate (frames.toNat + 1) .engine ++ ts, aud := rest, issuer := .audio })
    hf rfl hd hm.1 (Nat.zero_add _) htop rfl
  refine ⟨_, _, (run_succ (M := core) (frames.toNat + 1) hbegin).trans hrun, rfl, rfl, rfl, hl, rfl, hf, rfl, rfl, rfl,
    rfl, rfl, rfl, fun addr h1 h2 => ?_⟩
  rw [readCell_bufferBytes]
  exact if_pos ⟨h1, h2⟩

end Sys2Proof.Machine

namespace Sys2Proof.Machine

/-! ## What SET stores -/

/-- Below the sign bit the place in the order is the bit pattern. -/
theorem orderKey_of_toNat_lt {v : F32} (h : v.toNat < 2 ^ 31) : orderKey v = v.toNat := by
  have hsign : fsign v = false := by
    simp [fsign, BitVec.getLsbD, Nat.testBit_lt_two_pow h]
  rw [orderKey, hsign, if_neg Bool.false_ne_true, Nat.mod_eq_of_lt h]

/-- A place above that of +0.0 has a clear sign bit. -/
theorem toNat_lt_of_orderKey_pos {v : F32} (h : 0 < orderKey v) : v.toNat < 2 ^ 31 := by
  obtain ⟨neg, b, hb, rfl⟩ := exists_packBits v
  rw [orderKey, fsign_packBits neg hb] at h
  rw [packBits_toNat neg hb]
  cases neg
  · simpa using hb
  · simp only [if_true] at h
    omega

/-- `clamp01` answers the bit pattern of a value from +0.0 to 1.0 (00_scope R17). -/
theorem clamp01_toNat_le (v : F32) : (clamp01 v).toNat ≤ 0x3F800000 := by
  have hzero : isNaN 0x00000000#32 = false ∧ orderKey 0x00000000#32 = 0 := by decide
  have hone : isNaN fOne = false ∧ orderKey fOne = 0x3F800000 := by decide
  unfold clamp01
  split
  · decide
  · next hnan =>
    split
    · decide
    · next hle =>
      split
      · decide
      · next hgt =>
        have hpos : 0 < orderKey v := by simpa [fle, fge, hnan, hzero] using hle
        have htop : orderKey v ≤ 0x3F800000 := by simpa [fgt, hnan, hone] using hgt
        rw [orderKey_of_toNat_lt (toNat_lt_of_orderKey_pos hpos)] at htop
        omega

/-- `clamp01` keeps such a bit pattern. -/
theorem clamp01_of_toNat_le {v : F32} (hv : v.toNat ≤ 0x3F800000) : clamp01 v = v := by
  obtain ⟨hfin, -, hle1⟩ := unit_range_of_toNat_le hv
  rw [clamp01_of_isFinite hfin, if_neg (not_lt.2 hle1)]
  split
  · next hle0 =>
    have hplace : fle v 0x00000000#32 = true := (fle_iff hfin (by decide)).2 (f32Value_zero ▸ hle0)
    have hzero : orderKey 0x00000000#32 = 0 := by decide
    obtain ⟨-, hkey⟩ : isNaN 0x00000000#32 = false ∧ orderKey v ≤ 0 := by
      simpa [fle, fge, hzero, isNaN_of_isFinite hfin] using hplace
    rw [orderKey_of_toNat_lt (by omega)] at hkey
    exact BitVec.eq_of_toNat_eq (show 0 = v.toNat by omega)
  · rfl

theorem enableWord_cases (data : Word) : enableWord data = 0 ∨ enableWord data = 1 := by
  unfold enableWord
  split
  · exact .inl rfl
  · exact .inr rfl

/-- What SET stores in a register is a value it can hold (10_state R26, R27). -/
theorem legalValue_setValue (r : Reg) (data : Word) : legalValue r (setValue r data) := by
  unfold legalValue setValue
  cases r.isEnable
  · exact clamp01_toNat_le data
  · exact enableWord_cases data

/-- A value a register can hold is stored as it is. -/
theorem setValue_of_legalValue {r : Reg} {v : Word} (h : legalValue r v) : setValue r v = v := by
  unfold legalValue at h
  unfold setValue
  cases hr : r.isEnable
  · simp only [hr, Bool.false_eq_true, if_false] at h ⊢
    exact clamp01_of_toNat_le h
  · simp only [hr, if_true] at h ⊢
    rcases h with rfl | rfl <;> rfl

/-- Settles O36: the stored value is legal, and SET stores a legal value as it is. -/
theorem storedValuesAreLegal : Obligations.StoredValuesAreLegal := by
  unfold Obligations.StoredValuesAreLegal
  exact fun r data => ⟨legalValue_setValue r data, setValue_of_legalValue (legalValue_setValue r data)⟩

/-! ## Single commands -/

theorem setReg_of_live {s : State} (h : s.live = true) (r : Reg) (data : Word) :
    setReg r data s = reply { s with params := writeReg s.params r (setValue r data) } .ok none := by
  rw [setReg, if_pos h]

theorem getReg_of_live {s : State} (h : s.live = true) (r : Reg) :
    getReg r s = reply s .ok (some (readReg s.params r)) := by
  rw [getReg, if_pos h]

/-- Settles O35: GET reads the register file that SET wrote one register of. -/
theorem setThenGetReadsTheStoredValue : Obligations.SetThenGetReadsTheStoredValue := by
  unfold Obligations.SetThenGetReadsTheStoredValue
  intro s r data hl
  have hget : ∀ r', exec (getInstr r') (setReg r data s) = .next (reply (setReg r data s) .ok
      (some (if r' = r then setValue r data else readReg s.params r'))) := by
    intro r'
    rw [exec_getInstr, getReg_of_live ((setReg_live r data s).trans hl), setReg_of_live hl, reply_params,
      readReg_writeReg]
  refine ⟨_, exec_setInstr r data s, ?_, fun r' hne => ?_⟩
  · rw [hget, if_pos rfl]
    rfl
  · rw [hget, if_neg hne]

/-- Settles O16, by the form of the command: each first checks that the chain is live. -/
theorem commandsWithoutAnInstance : Obligations.CommandsWithoutAnInstance := by
  unfold Obligations.CommandsWithoutAnInstance
  intro s hl
  refine ⟨fun r => ?_, fun i hcreate hget => ?_⟩
  · simp [exec_getInstr, getReg, hl, reply]
  · rcases instr_forms i with rfl | rfl | rfl | ⟨base, frames, rate, rfl⟩ | ⟨r, data, rfl⟩ | ⟨r, rfl⟩
    · exact absurd rfl hcreate
    · simp [exec_destroy, execDestroy, hl, reply]
    · simp [exec_reset, execReset, hl, reply]
    · simp [exec_process, execProcess, hl, reply]
    · simp [exec_setInstr, setReg, hl, reply]
    · exact absurd rfl (hget r)

/-- The draw takes the head of the environment's list, success where it is empty. -/
theorem drawAlloc_eq (s : State) :
    drawAlloc s = (s.allocDraws.headD true, { s with allocDraws := s.allocDraws.tail }) := by
  obtain ⟨⟩ := s
  unfold drawAlloc
  split <;> simp_all

/-- Settles O12: the check of `live`, then the draw. -/
theorem createMakesAFreshInstance : Obligations.CreateMakesAFreshInstance := by
  unfold Obligations.CreateMakesAFreshInstance
  refine fun s => ⟨fun hl hd => ?_, fun hl hd => ?_, fun hl => ?_⟩
  · rw [exec_create, execCreate, drawAlloc_eq, hl, hd]
    rfl
  · rw [exec_create, execCreate, drawAlloc_eq, hl, hd]
    rfl
  · simp [exec_create, execCreate, hl, reply]

/-- Settles O19: past the check of the rate, each check that is left passes. -/
theorem processBeginsWithASnapshot : Obligations.ProcessBeginsWithASnapshot := by
  unfold Obligations.ProcessBeginsWithASnapshot
  intro s base frames rate hl hb hlo hhi hN heven htop
  have hne : frames ≠ 0 := fun h0 => hN (by rw [h0]; rfl)
  rw [exec_process_of_rate hl hb hlo hhi, if_neg hne, if_neg (by omega)]
  exact congrArg _ (if_neg (not_lt.2 htop))

/-! ## The fault mark -/

/-- Commands set the mark only where 60_exceptions R178 lists one. -/
theorem exec_fault {i : Instr} {s t : State} (h : exec i s = .next t) :
    t.fault = s.fault ∨
    (s.live = true ∧ s.busy = true ∧ (∃ reason, t = raiseFault s reason) ∧
      (i = .reset ∨ i = .destroy ∨ ∃ base frames rate, i = .process base frames rate)) := by
  cases exec_inv h with
  | fault reason hl hb =>
    have hmark : ∀ {u}, exec i s = .next u → u.fault = s.fault → (raiseFault s reason).fault = s.fault := by
      intro u hu hf
      rwa [Host.Outcome.next.inj (h.symm.trans hu)]
    rcases instr_forms i with rfl | rfl | rfl | hprocess | ⟨r, data, rfl⟩ | ⟨r, rfl⟩
    · exact .inl (hmark (by rw [exec_create, execCreate, if_pos hl]) (reply_fault s .errExists none))
    · exact .inr ⟨hl, hb, ⟨reason, rfl⟩, .inr (.inl rfl)⟩
    · exact .inr ⟨hl, hb, ⟨reason, rfl⟩, .inl rfl⟩
    · exact .inr ⟨hl, hb, ⟨reason, rfl⟩, .inr (.inr hprocess)⟩
    · exact .inl (hmark (exec_setInstr r data s) (setReg_fault r data s))
    · exact .inl (hmark (exec_getInstr r s) (getReg_fault r s))
  | _ => exact .inl (by simp)

/-- Settles O8: a command leaves the mark, or raises a fault, which keeps a mark that is set. -/
theorem noCommandClearsTheMark : Obligations.NoCommandClearsTheMark := by
  unfold Obligations.NoCommandClearsTheMark
  intro i s t h
  rcases exec_fault h with hkeep | ⟨hl, hb, ⟨reason, rfl⟩, hi⟩
  · exact ⟨fun _ hf => hkeep.trans hf, fun hf hne => absurd (hkeep.trans hf) hne⟩
  · exact ⟨fun _ hf => by simp [hf], fun _ _ => ⟨hl, hb, hi⟩⟩

end Sys2Proof.Machine

namespace Sys2Proof.Machine

/-! ## The stages one by one -/

/-- The seven stages that `runStages` applies, each with the register that enables it (40_chain R72). -/
inductive IsStage (c : Config) (k : Coeffs) : Reg → (Work → F32 × F32 → Work × (F32 × F32)) → Prop where
  | dist : IsStage c k .distortionEnabled (distStage k.dist)
  | filt : IsStage c k .filterEnabled (filtStage k.filt)
  | eq : IsStage c k .eqEnabled (eqStage k.eq)
  | comp : IsStage c k .compressorEnabled (compStage k.comp)
  | ph : IsStage c k .phaserEnabled (phStage k.ph)
  | rev : IsStage c k .reverbEnabled (revStage c k.rev)
  | dly : IsStage c k .delayEnabled (dlyStage k.dly)

/-- A relation between two runs that every enabled stage keeps holds after all of them. -/
theorem runStages_relates {c : Config} {snap : Params} {k : Coeffs}
    {R : Work × (F32 × F32) → Work × (F32 × F32) → Prop}
    (hstage : ∀ r stage, IsStage c k r stage → readReg snap r = 1 →
      ∀ a a', R a a' → R (stage a.1 a.2) (stage a'.1 a'.2))
    {w w' : Work} {x x' : F32 × F32} (h : R (w, x) (w', x')) :
    R (runStages c snap k w x) (runStages c snap k w' x') := by
  have hif : ∀ {r stage a a'}, IsStage c k r stage → R a a' →
      R (stageIf (enabled snap r) stage a) (stageIf (enabled snap r) stage a') := by
    intro r stage a a' hs ha
    rw [stageIf_enabled, stageIf_enabled]
    split
    · next hon => exact hstage _ _ hs hon _ _ ha
    · exact ha
  exact hif .dly (hif .rev (hif .ph (hif .comp (hif .eq (hif .filt (hif .dist h))))))

/-- A property of the working state that every enabled stage keeps holds after all of them. -/
theorem runStages_keeps {c : Config} {snap : Params} {k : Coeffs} {P : Work → Prop}
    (hstage : ∀ r stage, IsStage c k r stage → readReg snap r = 1 → ∀ w x, P w → P (stage w x).1)
    {w : Work} (h : P w) (x : F32 × F32) : P (runStages c snap k w x).1 :=
  runStages_relates (R := fun a _ => P a.1) (x' := x) (w' := w) (fun _ _ hs hon a _ ha => hstage _ _ hs hon _ a.2 ha) h

/-! ## Disabled stages -/

/-- Two working states hold the same for the stage that `r` enables (10_state R28 to R30). -/
def sameStage : Reg → Work → Work → Prop
  | .distortionEnabled, v, w => v.left.dist = w.left.dist ∧ v.right.dist = w.right.dist
  | .filterEnabled, v, w => v.left.filt = w.left.filt ∧ v.right.filt = w.right.filt
  | .eqEnabled, v, w => v.left.eq = w.left.eq ∧ v.right.eq = w.right.eq
  | .compressorEnabled, v, w => v.left.comp = w.left.comp ∧ v.right.comp = w.right.comp
  | .phaserEnabled, v, w => v.left.ph = w.left.ph ∧ v.right.ph = w.right.ph ∧ v.phase = w.phase
  | .reverbEnabled, v, w => v.left.rev = w.left.rev ∧ v.right.rev = w.right.rev
  | .delayEnabled, v, w => v.left.dly = w.left.dly ∧ v.right.dly = w.right.dly ∧ v.dlyW = w.dlyW
  | _, _, _ => True

theorem sameStage_refl (r : Reg) (w : Work) : sameStage r w w := by
  cases r <;> simp [sameStage]

/-- A stage leaves what the other stages hold. -/
theorem IsStage.sameStage {c : Config} {k : Coeffs} {r r' : Reg} {stage} (hs : IsStage c k r' stage) (hne : r' ≠ r)
    {v w : Work} (x : F32 × F32) (h : sameStage r v w) : sameStage r (stage v x).1 w := by
  cases r
  case distortionEnabled => cases hs with | dist => exact absurd rfl hne | _ => exact h
  case filterEnabled => cases hs with | filt => exact absurd rfl hne | _ => exact h
  case eqEnabled => cases hs with | eq => exact absurd rfl hne | _ => exact h
  case compressorEnabled => cases hs with | comp => exact absurd rfl hne | _ => exact h
  case phaserEnabled => cases hs with | ph => exact absurd rfl hne | _ => exact h
  case reverbEnabled => cases hs with | rev => exact absurd rfl hne | _ => exact h
  case delayEnabled => cases hs with | dly => exact absurd rfl hne | _ => exact h
  all_goals exact trivial

theorem runStages_sameStage {snap : Params} {r : Reg} (hoff : readReg snap r ≠ 1) (c : Config) (k : Coeffs) (w : Work)
    (x : F32 × F32) : sameStage r (runStages c snap k w x).1 w :=
  runStages_keeps (P := fun v => sameStage r v w)
    (fun _ _ hs hon _ y h => hs.sameStage (by rintro rfl; exact hoff hon) y h) (sameStage_refl r w) x

/-- Settles O45: a stage writes nothing that another stage holds. -/
theorem disabledStagesKeepTheirState : Obligations.DisabledStagesKeepTheirState := by
  unfold Obligations.DisabledStagesKeepTheirState
  intro c snap k w x
  have hkeep := fun r hoff => runStages_sameStage (snap := snap) (r := r) hoff c k w x
  exact ⟨hkeep .distortionEnabled, hkeep .filterEnabled, hkeep .eqEnabled, hkeep .compressorEnabled,
    hkeep .phaserEnabled, hkeep .reverbEnabled, hkeep .delayEnabled, fun h => runStages_of_disabled h k w x⟩

/-! ## One channel -/

/-- A channel of the stereo chain (10_state R29). -/
inductive Side where
  | left | right

/-- What the channel alone holds. -/
def Side.chan : Side → Work → Chan
  | .left, w => w.left
  | .right, w => w.right

/-- The channel's sample of a frame. -/
def Side.sample : Side → F32 × F32 → F32
  | .left, x => x.1
  | .right, x => x.2

/-- Where the channel's sample stands in the four bytes of a frame (20_memory R41). -/
def Side.offset : Side → Nat
  | .left => 0
  | .right => 2

/-- What a channel and the shared registers hold, in both channels. -/
def Side.mono (side : Side) (a : Work × (F32 × F32)) : Work × (F32 × F32) :=
  (⟨side.chan a.1, side.chan a.1, a.1.phase, a.1.dlyW⟩, (side.sample a.2, side.sample a.2))

theorem Side.mono_eq_iff {side : Side} {a a' : Work × (F32 × F32)} : side.mono a = side.mono a' ↔
    side.chan a.1 = side.chan a'.1 ∧ a.1.phase = a'.1.phase ∧ a.1.dlyW = a'.1.dlyW ∧
      side.sample a.2 = side.sample a'.2 := by
  simp only [Side.mono, Prod.mk.injEq, Work.mk.injEq]
  tauto

/-- What a stage leaves in a channel depends on nothing of the other one. -/
theorem IsStage.mono_mono {c : Config} {k : Coeffs} {r : Reg} {stage} (hs : IsStage c k r stage) (side : Side)
    (a : Work × (F32 × F32)) :
    side.mono (stage (side.mono a).1 (side.mono a).2) = side.mono (stage a.1 a.2) := by
  cases hs <;> cases side <;>
    simp only [Side.mono, Side.chan, Side.sample, distStage, filtStage, eqStage, compStage, phStage, revStage, dlyStage]

/-- The enabled stages keep two runs alike on a channel alike on it. -/
theorem runStages_mono (side : Side) (c : Config) (snap : Params) (k : Coeffs) {w w' : Work} {x x' : F32 × F32}
    (h : side.mono (w, x) = side.mono (w', x')) :
    side.mono (runStages c snap k w x) = side.mono (runStages c snap k w' x') :=
  runStages_relates (R := fun a a' => side.mono a = side.mono a')
    (fun _ _ hs _ a a' ha => by rw [← hs.mono_mono side a, ha, hs.mono_mono side a']) h

/-! ## The samples of a frame in memory -/

theorem memRead16_memWrite16_self {m : Memory} (hm : Cells.wf m) (a : Nat) (v : Sample) :
    memRead16 (memWrite16 m a v) a = v := by
  rw [memRead16, readCell_memWrite16_low hm, readCell_memWrite16_high hm, sample_bytes]

theorem memRead16_memWrite16_of_disjoint {a b : Nat} (m : Memory) (v : Sample) (h : b + 1 < a ∨ a + 1 < b) :
    memRead16 (memWrite16 m a v) b = memRead16 m b := by
  rw [memRead16, readCell_memWrite16_of_ne _ _ (by omega) (by omega),
    readCell_memWrite16_of_ne _ _ (by omega) (by omega)]
  rfl

theorem wf_memWrite16 {m : Memory} (hm : Cells.wf m) (a : Nat) (v : Sample) : Cells.wf (memWrite16 m a v) :=
  wf_writeCell (wf_writeCell hm _ _) _ _

/-- The stages' results in the frame the engine is at. -/
def frameOut (s : State) : Work × (F32 × F32) :=
  runStages s.config s.flight.snap s.flight.k s.work
    (in16 (memRead16 s.mem (frameAddr s.flight)), in16 (memRead16 s.mem (frameAddr s.flight + 2)))

theorem frameNext_work (s : State) : (frameNext s).work = (frameOut s).1 := rfl

theorem frameNext_mem (s : State) : (frameNext s).mem =
    memWrite16 (memWrite16 s.mem (frameAddr s.flight) (sat16 (frameOut s).2.1)) (frameAddr s.flight + 2)
      (sat16 (frameOut s).2.2) := rfl

/-- The address of the channel's sample of frame `n` (20_memory R41). -/
def Side.addr (side : Side) (f : Flight) (n : Nat) : Nat := f.base.toNat + 4 * n + side.offset

/-- A frame step writes the channel's own sample of its frame. -/
theorem memRead16_frameNext_self {s : State} (hm : Cells.wf s.mem) (side : Side) :
    memRead16 (frameNext s).mem (side.addr s.flight s.flight.n) = sat16 (side.sample (frameOut s).2) := by
  rw [frameNext_mem]
  cases side with
  | left =>
    rw [memRead16_memWrite16_of_disjoint _ _ (.inl (by simp [Side.addr, Side.offset, frameAddr]))]
    exact memRead16_memWrite16_self hm _ _
  | right => exact memRead16_memWrite16_self (wf_memWrite16 hm _ _) _ _

/-- A frame step leaves the samples of every other frame. -/
theorem memRead16_frameNext_of_ne {s : State} {n : Nat} (hn : n ≠ s.flight.n) (side : Side) :
    memRead16 (frameNext s).mem (side.addr s.flight n) = memRead16 s.mem (side.addr s.flight n) := by
  have hoff : side.offset ≤ 2 := by cases side <;> decide
  rw [frameNext_mem, memRead16_memWrite16_of_disjoint, memRead16_memWrite16_of_disjoint]
  all_goals
    unfold Side.addr frameAddr
    omega

/-! ## Two runs alike on a channel -/

/-- `sameLeft` and `sameRight`, over the channel. -/
def sameSide (side : Side) (s t : State) : Prop :=
  s.config = t.config ∧ s.busy = t.busy ∧ s.flight = t.flight ∧ side.chan s.work = side.chan t.work ∧
  s.work.phase = t.work.phase ∧ s.work.dlyW = t.work.dlyW ∧
  ∀ n < s.flight.frames.toNat, memRead16 s.mem (side.addr s.flight n) = memRead16 t.mem (side.addr s.flight n)

theorem sameSide_left_iff {s t : State} : sameSide .left s t ↔ sameLeft s t := Iff.rfl

theorem sameSide_right_iff {s t : State} : sameSide .right s t ↔ sameRight s t := Iff.rfl

/-- The stages' results in a frame, where two runs are alike on a channel. -/
theorem frameOut_mono {side : Side} {s s' : State} (h : sameSide side s s')
    (hn : s.flight.n < s.flight.frames.toNat) : side.mono (frameOut s) = side.mono (frameOut s') := by
  obtain ⟨hconfig, -, hflight, hchan, hphase, hdly, hmem⟩ := h
  have hsample := hmem _ hn
  unfold frameOut
  rw [← hconfig, ← hflight]
  refine runStages_mono side _ _ _ (Side.mono_eq_iff.2 ⟨hchan, hphase, hdly, ?_⟩)
  cases side with
  | left => exact congrArg in16 hsample
  | right => exact congrArg in16 hsample

/-- A frame step keeps two runs alike on a channel. -/
theorem sameSide_frameNext {side : Side} {s s' : State} (hm : Cells.wf s.mem) (hm' : Cells.wf s'.mem)
    (hn : s.flight.n < s.flight.frames.toNat) (h : sameSide side s s') : sameSide side (frameNext s) (frameNext s') := by
  obtain ⟨hchan, hphase, hdly, hsample⟩ := Side.mono_eq_iff.1 (frameOut_mono h hn)
  obtain ⟨hconfig, hbusy, hflight, -, -, -, hmem⟩ := h
  refine ⟨hconfig, hbusy, ?_, hchan, hphase, hdly, fun n hlt => ?_⟩
  · simp only [frameNext, hflight]
  · change memRead16 (frameNext s).mem (side.addr s.flight n) = memRead16 (frameNext s').mem (side.addr s.flight n)
    by_cases hne : n = s.flight.n
    · rw [hne, memRead16_frameNext_self hm, hflight, memRead16_frameNext_self hm', hsample]
    · rw [memRead16_frameNext_of_ne hne, hflight, memRead16_frameNext_of_ne (hflight ▸ hne), ← hflight]
      exact hmem n hlt

/-- The engine's turn while no PROCESS is in flight (60_exceptions R190). -/
theorem engineTurn_idle {s : State} (hb : s.busy = false) : engineTurn s = .next s := by
  simp [engineTurn, hb]

/-- The engine's turn keeps two runs alike on a channel. -/
theorem sameSide_engineTurn {side : Side} {s s' t t' : State} (hm : Cells.wf s.mem) (hm' : Cells.wf s'.mem)
    (ht : engineTurn s = .next t) (ht' : engineTurn s' = .next t') (h : sameSide side s s') : sameSide side t t' := by
  have hsame := h
  obtain ⟨hconfig, hbusy, hflight, -⟩ := h
  rcases engineTurn_cases ht with ⟨hb, rfl⟩ | ⟨hb, hn, ha, rfl⟩ | ⟨hb, hn, rfl⟩
  · rw [engineTurn_idle (hbusy ▸ hb)] at ht'
    exact Host.Outcome.next.inj ht' ▸ hsame
  · rw [engineTurn_frame (hbusy ▸ hb) (hflight ▸ hn) (hflight ▸ hconfig ▸ ha)] at ht'
    exact Host.Outcome.next.inj ht' ▸ sameSide_frameNext hm hm' hn hsame
  · rw [engineTurn_end (hbusy ▸ hb) (hflight ▸ hn)] at ht'
    obtain ⟨-, -, -, hrest⟩ := hsame
    exact Host.Outcome.next.inj ht' ▸ ⟨hconfig, rfl, hflight, hrest⟩

/-- Settles O44: the argument is one for both channels. -/
theorem channelsDoNotAffectEachOther : Obligations.ChannelsDoNotAffectEachOther := by
  unfold Obligations.ChannelsDoNotAffectEachOther
  intro s s' t t' hm hm' ht ht'
  exact ⟨fun h => sameSide_left_iff.1 (sameSide_engineTurn hm.1 hm'.1 ht ht' (sameSide_left_iff.2 h)),
    fun h => sameSide_right_iff.1 (sameSide_engineTurn hm.1 hm'.1 ht ht' (sameSide_right_iff.2 h))⟩

end Sys2Proof.Machine

namespace Sys2Proof.Machine

/-! ## The working state's cursors and memories -/

theorem Comb.ok_zero {len : Nat} (h : 1 ≤ len) : Comb.ok len .zero := ⟨h, wf_nil, below_nil len⟩

theorem Chan.ok_zero {c : Config} (hc : Config.legal c) : Chan.ok c .zero := by
  obtain ⟨-, h0, h1, h2, h3, h4, h5, h6, h7⟩ := hc
  exact ⟨⟨Comb.ok_zero h0, Comb.ok_zero h1, Comb.ok_zero h2, Comb.ok_zero h3, Comb.ok_zero h4, Comb.ok_zero h5,
    Comb.ok_zero h6, Comb.ok_zero h7⟩, wf_nil, below_nil _⟩

theorem Work.ok_zero {c : Config} (hc : Config.legal c) : Work.ok c .zero :=
  ⟨Chan.ok_zero hc, Chan.ok_zero hc, by decide⟩

/-- A comb's step wraps its cursor and writes below its length. -/
theorem Comb.ok_combStep {len : Nat} {cb : Comb} (h : Comb.ok len cb) (k : RevK) (inp : F32) :
    Comb.ok len (combStep k len inp cb).1 := by
  obtain ⟨hidx, hwf, hbelow⟩ := h
  exact ⟨Nat.mod_lt _ (Nat.zero_lt_of_lt hidx), wf_writeCell hwf _ _, below_writeCell hbelow hidx _⟩

theorem RevRegs.ok_revLane {c : Config} {r : RevRegs} (h : RevRegs.ok c r) (k : RevK) (x : F32) :
    RevRegs.ok c (revLane c k r x).1 := by
  obtain ⟨h0, h1, h2, h3, h4, h5, h6, h7⟩ := h
  exact ⟨Comb.ok_combStep h0 _ _, Comb.ok_combStep h1 _ _, Comb.ok_combStep h2 _ _, Comb.ok_combStep h3 _ _,
    Comb.ok_combStep h4 _ _, Comb.ok_combStep h5 _ _, Comb.ok_combStep h6 _ _, Comb.ok_combStep h7 _ _⟩

/-- Every stage keeps cursors and memories in range; only the reverb and the delay move them. -/
theorem IsStage.work_ok {c : Config} {k : Coeffs} {r : Reg} {stage} (hs : IsStage c k r stage) {w : Work}
    (h : Work.ok c w) (x : F32 × F32) : Work.ok c (stage w x).1 := by
  cases hs with
  | rev =>
    obtain ⟨⟨hrevL, hdlyL⟩, ⟨hrevR, hdlyR⟩, hw⟩ := h
    exact ⟨⟨RevRegs.ok_revLane hrevL _ _, hdlyL⟩, ⟨RevRegs.ok_revLane hrevR _ _, hdlyR⟩, hw⟩
  | dly =>
    obtain ⟨⟨hrevL, hwfL, hbelowL⟩, ⟨hrevR, hwfR, hbelowR⟩, hw⟩ := h
    exact ⟨⟨hrevL, wf_writeCell hwfL _ _, below_writeCell hbelowL hw _⟩,
      ⟨hrevR, wf_writeCell hwfR _ _, below_writeCell hbelowR hw _⟩, Nat.mod_lt _ (by decide)⟩
  | _ => exact h

theorem runStages_work_ok {c : Config} {w : Work} (h : Work.ok c w) (snap : Params) (k : Coeffs) (x : F32 × F32) :
    Work.ok c (runStages c snap k w x).1 :=
  runStages_keeps (P := Work.ok c) (fun _ _ hs _ _ y hw => hs.work_ok hw y) h x

/-! ## Legal parameters -/

theorem Params.legal_zero : Params.legal .zero := by
  intro r
  cases r <;> decide

theorem Params.legal_create : Params.legal createParams := by
  intro r
  cases r <;> decide

/-- A SET keeps the register file legal. -/
theorem Params.legal_writeReg {p : Params} (h : Params.legal p) (r : Reg) (data : Word) :
    Params.legal (writeReg p r (setValue r data)) := by
  intro r'
  rw [readReg_writeReg]
  split
  · next heq => exact heq ▸ legalValue_setValue r data
  · exact h r'

/-! ## The machine invariant -/

/-- The delay offset is clamped to 1 and `CAP − 1` (47_delay R165). -/
theorem delayOffset_bounds (time : F32) (fs : Int) : 1 ≤ delayOffset time fs ∧ delayOffset time fs ≤ Config.cap - 1 := by
  simp only [delayOffset, Config.cap]
  omega

/-- The in-flight record that the begin step leaves (40_chain R70) is sound. -/
theorem Flight.ok_beginProcess {s : State} {base frames rate : Word} (hp : Params.legal s.params)
    (hlo : s.config.fsMin ≤ rateHz rate) (hhi : rateHz rate ≤ s.config.fsMax) (hN : frames ≠ 0)
    (heven : base.toNat % 2 = 0) (htop : base.toNat + 4 * frames.toNat ≤ s.config.addressSpace) :
    Flight.ok s.config (beginProcess base frames rate s).flight := by
  have hpos : 0 < frames.toNat := Nat.pos_of_ne_zero fun h0 => hN (BitVec.eq_of_toNat_eq h0)
  obtain ⟨hoff1, hoff2⟩ := delayOffset_bounds s.params.delayTime (rateHz rate)
  exact ⟨hlo, hhi, hpos, heven, htop, Nat.zero_le _, hp, rfl, hoff1, hoff2⟩

/-- Every command keeps the invariant. -/
theorem Inv_of_exec {i : Instr} {s t : State} (hinv : State.Inv s) (h : exec i s = .next t) : State.Inv t := by
  obtain ⟨hc, hm, hp, hw, hf⟩ := hinv
  cases exec_inv h with
  | answer status data => exact ⟨hc, hm, hp, hw, hf⟩
  | noMemory hl hd =>
    rw [drawAlloc_eq]
    exact ⟨hc, hm, hp, hw, hf⟩
  | fault reason hl hb => exact ⟨hc, hm, hp, hw, hf⟩
  | created hl hd =>
    rw [drawAlloc_eq]
    exact ⟨hc, hm, Params.legal_create, Work.ok_zero hc, fun hb => nomatch hb⟩
  | destroyed hl hb => exact ⟨hc, hm, Params.legal_zero, Work.ok_zero hc, fun hb' => absurd hb' (by simp [hb])⟩
  | cleared hl hb => exact ⟨hc, hm, hp, Work.ok_zero hc, hf⟩
  | began base frames rate hl hb hlo hhi hN heven htop =>
    exact ⟨hc, hm, hp, hw, fun _ => ⟨hl, Flight.ok_beginProcess hp hlo hhi hN heven htop⟩⟩
  | wrote r data hl => exact ⟨hc, hm, Params.legal_writeReg hp r data, hw, hf⟩

/-- A frame step inside the address space keeps the invariant. -/
theorem Inv_frameNext {s : State} (hinv : State.Inv s) (hb : s.busy = true) (hn : s.flight.n < s.flight.frames.toNat)
    (ha : frameAddr s.flight + 3 < s.config.addressSpace) : State.Inv (frameNext s) := by
  obtain ⟨hc, hm, hp, hw, hf⟩ := hinv
  obtain ⟨hl, hlo, hhi, hN, heven, htop, -, hsnap⟩ := hf hb
  refine ⟨hc, ?_, hp, runStages_work_ok hw _ _ _, fun _ => ⟨hl, hlo, hhi, hN, heven, htop, hn, hsnap⟩⟩
  rw [frameNext_mem]
  exact Memory.wf_memWrite16 (Memory.wf_memWrite16 hm (by omega) _) ha _

/-- The engine's turn keeps the invariant. -/
theorem Inv_of_engineTurn {s t : State} (hinv : State.Inv s) (h : engineTurn s = .next t) : State.Inv t := by
  rcases engineTurn_cases h with ⟨-, rfl⟩ | ⟨hb, hn, ha, rfl⟩ | ⟨-, -, rfl⟩
  · exact hinv
  · exact Inv_frameNext hinv hb hn ha
  · obtain ⟨hc, hm, hp, hw, -⟩ := hinv
    exact ⟨hc, hm, hp, hw, fun hb => nomatch hb⟩

/-- An access of another agent keeps the invariant if its own effect does; the fault it may raise touches only the mark. -/
theorem Inv_of_hostAccess {s t u : State} {addr len : Nat} (hinv : State.Inv s)
    (ht : len = 0 ∨ addr + len ≤ s.config.addressSpace → State.Inv t) (h : hostAccess s addr len t = .next u) :
    State.Inv u := by
  rcases hostAccess_eq_next.1 h with ⟨-, rfl⟩ | ⟨-, hin, rfl⟩
  · exact hinv
  · exact ht hin

/-- Bytes written inside the address space keep the invariant. -/
theorem Inv_writeBytes {s : State} {addr : Nat} {bytes : List Byte} (hinv : State.Inv s)
    (hin : bytes.length = 0 ∨ addr + bytes.length ≤ s.config.addressSpace) :
    State.Inv { s with mem := writeBytes s.mem addr bytes } := by
  obtain ⟨hc, hm, hp, hw, hf⟩ := hinv
  exact ⟨hc, Memory.wf_writeBytes bytes hm (hin.imp_left List.length_eq_zero_iff.1), hp, hw, hf⟩

/-- The invariant does not speak of the ports and the issuer. -/
theorem Inv_withPort {s : State} (hinv : State.Inv s) (a : Agent) (ws : List Word) :
    State.Inv { withPort s a ws with issuer := a } := by
  cases a <;> exact hinv

/-- Settles O10: every register, cursor and memory is at its zero, and the reference configuration is legal. -/
theorem resetMeetsTheInvariant : Obligations.ResetMeetsTheInvariant := by
  unfold Obligations.ResetMeetsTheInvariant
  have hc : Config.legal State.reset.config := by decide
  exact ⟨hc, Memory.wf_reset, Params.legal_zero, Work.ok_zero hc, fun hb => nomatch hb⟩

/-- Settles O11, by the transition the step takes. -/
theorem everyStepKeepsTheInvariant : Obligations.EveryStepKeepsTheInvariant := by
  unfold Obligations.EveryStepKeepsTheInvariant
  intro s t hinv h
  have hturns : State.Inv { s with turns := (nextTurn s).2 } := hinv
  obtain ⟨-, ⟨a, i, rest, -, -, hx⟩ | ⟨a, why, rest, -, -, rfl⟩ | ⟨a, -, -, rfl⟩ | ⟨-, hx⟩ |
    ⟨addr, len, -, hx⟩ | ⟨addr, bytes, -, hx⟩⟩ := step_cases h
  · exact Inv_of_exec (Inv_withPort hturns a rest) hx
  · exact Inv_withPort hturns a rest
  · exact hturns
  · exact Inv_of_engineTurn hturns hx
  · exact Inv_of_hostAccess hturns (fun _ => hturns) hx
  · exact Inv_of_hostAccess hturns (Inv_writeBytes hturns) hx

end Sys2Proof.Machine

namespace Sys2Proof.Machine

/-! ## The 16-bit accesses of host memory -/

/-- Two bytes put together are the number whose base-256 digits they are (20_memory R36). -/
theorem toNat_append_bytes (hi lo : Byte) : (hi ++ lo : Sample).toNat = lo.toNat + 256 * hi.toNat := by
  have hor := Nat.two_pow_add_eq_or_of_lt lo.isLt hi.toNat
  rw [BitVec.toNat_append, Nat.shiftLeft_eq, Nat.mul_comm, ← hor]
  omega

theorem toNat_lowByte (v : Sample) : (v.extractLsb' 0 8).toNat = v.toNat % 256 := by
  rw [BitVec.extractLsb'_toNat, Nat.shiftRight_zero]

theorem toNat_highByte (v : Sample) : (v.extractLsb' 8 8).toNat = v.toNat / 256 := by
  rw [BitVec.extractLsb'_toNat, Nat.shiftRight_eq_div_pow]
  omega

/-- Settles O42, from what a read of either byte gives after the write. -/
theorem hostMemoryPort : Obligations.HostMemoryPort := by
  unfold Obligations.HostMemoryPort
  intro c m a v hm
  refine ⟨toNat_append_bytes _ _, ?_, ?_, fun b h0 h1 => readCell_memWrite16_of_ne m v h0 h1,
    memRead16_memWrite16_self hm.1 a v, fun ha => Memory.wf_memWrite16 hm ha v⟩
  · rw [readCell_memWrite16_low hm.1, toNat_lowByte]
  · rw [readCell_memWrite16_high hm.1, toNat_highByte]

/-! ## What a command leaves alone -/

@[simp] theorem drawAlloc_outputs (s : State) : (drawAlloc s).2.outputs = s.outputs := by
  rw [drawAlloc_eq]

/-- CREATE takes at most one draw, and no other command takes any (40_chain R64). -/
theorem exec_allocDraws {i : Instr} {s t : State} (h : exec i s = .next t) :
    t.allocDraws = s.allocDraws ∨ (i = .create ∧ t.allocDraws = s.allocDraws.tail) := by
  by_cases hi : i = .create
  · subst hi
    cases exec_inv h <;> simp [drawAlloc_eq]
  refine .inl ?_
  cases hl : s.live with
  | true =>
    cases exec_inv h with
    | noMemory hdead | created hdead => cases hl.symm.trans hdead
    | _ => rfl
  | false =>
    obtain ⟨hget, hother⟩ := commandsWithoutAnInstance s hl
    by_cases hg : ∃ r, i = getInstr r
    · obtain ⟨r, rfl⟩ := hg
      exact Host.Outcome.next.inj ((hget r).symm.trans h) ▸ rfl
    · exact Host.Outcome.next.inj ((hother i hi (not_exists.1 hg)).symm.trans h) ▸ rfl

theorem setReg_withMem (r : Reg) (data : Word) (s : State) (m : Memory) :
    setReg r data { s with mem := m } = { setReg r data s with mem := m } := by
  unfold setReg
  split <;> rfl

theorem getReg_withMem (r : Reg) (s : State) (m : Memory) :
    getReg r { s with mem := m } = { getReg r s with mem := m } := by
  unfold getReg
  split <;> rfl

/-- A command does the same over any host memory (20_memory R42): none of its checks reads it. -/
theorem exec_withMem {i : Instr} {s t : State} (h : exec i s = .next t) (m : Memory) :
    exec i { s with mem := m } = .next { t with mem := m } := by
  rcases instr_forms i with rfl | rfl | rfl | ⟨base, frames, rate, rfl⟩ | ⟨r, data, rfl⟩ | ⟨r, rfl⟩
  · cases h
    simp only [exec_create, execCreate, drawAlloc_eq]
    split_ifs <;> rfl
  · cases h
    simp only [exec_destroy, execDestroy]
    split_ifs <;> rfl
  · cases h
    simp only [exec_reset, execReset]
    split_ifs <;> rfl
  · cases h
    simp only [exec_process, execProcess]
    split_ifs <;> rfl
  · rw [exec_setInstr] at h ⊢
    exact Host.Outcome.next.inj h ▸ congrArg _ (setReg_withMem r data s m)
  · rw [exec_getInstr] at h ⊢
    exact Host.Outcome.next.inj h ▸ congrArg _ (getReg_withMem r s m)

/-- Settles O41, by the cases of what a command can do. -/
theorem commandsTouchNoHostMemory : Obligations.CommandsTouchNoHostMemory := by
  unfold Obligations.CommandsTouchNoHostMemory
  intro i s t h
  obtain ⟨hmem, hctl, haud, hturns, hissuer, houtputs⟩ : t.mem = s.mem ∧ t.ctl = s.ctl ∧ t.aud = s.aud ∧
      t.turns = s.turns ∧ t.issuer = s.issuer ∧ t.outputs = s.outputs := by
    cases exec_inv h <;> simp
  exact ⟨fun _ => by rw [hmem], hmem, hctl, haud, hturns, hissuer, houtputs, exec_config h, exec_allocDraws h,
    exec_withMem h⟩

/-- Settles O37: of what a command can do, only a reply, a fault and a SET are left while a PROCESS of a live chain is in
flight. -/
theorem commandsLeaveAnInFlightProcess : Obligations.CommandsLeaveAnInFlightProcess := by
  unfold Obligations.CommandsLeaveAnInFlightProcess
  intro i s t hl hb h
  cases exec_inv h with
  | answer status data => exact ⟨hl, hb, rfl, rfl, rfl⟩
  | fault reason => exact ⟨hl, hb, rfl, rfl, rfl⟩
  | wrote r data => exact ⟨hl, hb, rfl, rfl, rfl⟩
  | noMemory hdead | created hdead => cases hl.symm.trans hdead
  | destroyed _ hidle | cleared _ hidle | began _ _ _ _ hidle => cases hb.symm.trans hidle

/-- Settles O5: taking the turn and the command's words from their lists commute. -/
theorem stepRunsTheDecodedCommand : Obligations.StepRunsTheDecodedCommand := by
  unfold Obligations.StepRunsTheDecodedCommand
  intro s a ts i rest hf ht hd
  rw [step_command hf ht hd]
  cases a <;> rfl

/-! ## The engine's turns -/

/-- A frame step leaves every byte but the four of its frame (20_memory R42). -/
theorem readCell_frameNext_of_outside {s : State} {addr : Nat}
    (h : addr < frameAddr s.flight ∨ frameAddr s.flight + 4 ≤ addr) :
    readCell (frameNext s).mem addr = readCell s.mem addr := by
  rw [frameNext_mem, readCell_memWrite16_of_ne _ _ (by omega) (by omega),
    readCell_memWrite16_of_ne _ _ (by omega) (by omega)]

/-- Settles O21: with a frame left, the engine's turn is the frame step. -/
theorem frameWritesOnlyItsFourBytes : Obligations.FrameWritesOnlyItsFourBytes := by
  unfold Obligations.FrameWritesOnlyItsFourBytes
  intro s t hm hb hn h
  rcases engineTurn_cases h with ⟨hidle, -⟩ | ⟨-, -, -, rfl⟩ | ⟨-, hdone, -⟩
  · cases hb.symm.trans hidle
  · exact ⟨fun addr ha => readCell_frameNext_of_outside ha, memRead16_frameNext_self hm.1 .left,
      memRead16_frameNext_self hm.1 .right⟩
  · exact absurd hdone (Nat.ne_of_lt hn)

theorem engineView_frameNext {s s' : State} (h : engineView s s') : engineView (frameNext s) (frameNext s') := by
  obtain ⟨hconfig, hbusy, hflight, hwork, hmem⟩ := h
  refine ⟨hconfig, hbusy, ?_, ?_, ?_⟩ <;> simp only [frameNext, hconfig, hflight, hwork, hmem]

theorem engineView_endStep {s s' : State} (h : engineView s s') : engineView (endStep s) (endStep s') := by
  obtain ⟨hconfig, -, hflight, hwork, hmem⟩ := h
  exact ⟨hconfig, rfl, hflight, hwork, hmem⟩

/-- Settles O38, by what the engine's turn does at the first state: at the second it does the same. -/
theorem engineReadsOnlyTheSnapshot : Obligations.EngineReadsOnlyTheSnapshot := by
  unfold Obligations.EngineReadsOnlyTheSnapshot
  intro s s' t hview h
  have hview' := hview
  obtain ⟨hconfig, hbusy, hflight, -⟩ := hview'
  rcases engineTurn_cases h with ⟨hb, rfl⟩ | ⟨hb, hn, ha, rfl⟩ | ⟨hb, hn, rfl⟩
  · exact ⟨s', engineTurn_idle (hbusy ▸ hb), hview, rfl, rfl, rfl, rfl, rfl, rfl, rfl⟩
  · exact ⟨frameNext s', engineTurn_frame (hbusy ▸ hb) (hflight ▸ hn) (hflight ▸ hconfig ▸ ha),
      engineView_frameNext hview, rfl, rfl, rfl, rfl, rfl, rfl, rfl⟩
  · exact ⟨endStep s', engineTurn_end (hbusy ▸ hb) (hflight ▸ hn), engineView_endStep hview,
      rfl, rfl, rfl, rfl, rfl, rfl, rfl⟩

/-- The `k` frames left and the end step, on the engine's turns alone (40_chain R71, R75): they end the PROCESS with some
working state and memory, and memory outside the buffer is as before. -/
theorem run_engine_ends (k : Nat) {s : State} {ts : List Turn} (hf : s.fault = none) (hb : s.busy = true)
    (hn : s.flight.n + k = s.flight.frames.toNat)
    (htop : s.flight.base.toNat + 4 * s.flight.frames.toNat ≤ s.config.addressSpace)
    (ht : s.turns = List.replicate (k + 1) .engine ++ ts) :
    ∃ w m, Host.Core.run core (k + 1) s = .next (endStep { s with
        work := w, mem := m, turns := ts, flight := { s.flight with n := s.flight.frames.toNat } }) ∧
      ∀ addr, (addr < s.flight.base.toNat ∨ s.flight.base.toNat + 4 * s.flight.frames.toNat ≤ addr) →
        readCell m addr = readCell s.mem addr := by
  induction k generalizing s with
  | zero =>
    have hstep : step s = .next (endStep { s with turns := ts }) :=
      (step_engine hf ht).trans (engineTurn_end hb hn)
    refine ⟨s.work, s.mem, ?_, fun _ _ => rfl⟩
    rw [← hn]
    exact run_succ (M := core) 0 hstep
  | succ k ih =>
    have ha : frameAddr s.flight + 3 < s.config.addressSpace := by
      unfold frameAddr
      omega
    have hstep : step s = .next (frameNext { s with turns := List.replicate (k + 1) .engine ++ ts }) :=
      (step_engine hf ht).trans (engineTurn_frame hb (by simp only; omega) ha)
    obtain ⟨w, m, hrun, hout⟩ :=
      ih (s := frameNext { s with turns := List.replicate (k + 1) .engine ++ ts }) hf hb (by simp only [frameNext]; omega)
        htop rfl
    refine ⟨w, m, (run_succ (M := core) (k + 1) hstep).trans hrun, fun addr haddr => (hout addr haddr).trans ?_⟩
    exact readCell_frameNext_of_outside (by simp only [frameAddr]; omega)

/-- Settles O23: the bytes kept are those of the buffer. -/
theorem engineTurnsEndTheProcess : Obligations.EngineTurnsEndTheProcess := by
  unfold Obligations.EngineTurnsEndTheProcess
  intro s ts hf hb hle htop ht
  obtain ⟨w, m, hrun, hout⟩ := run_engine_ends _ hf hb (Nat.add_sub_cancel' hle) htop ht
  refine ⟨w, m, _, hrun, fun addr => ⟨hout addr, fun hlo hhi => ?_⟩⟩
  rw [readCell_bufferBytes]
  exact if_pos ⟨hlo, hhi⟩

/-! ## Accesses of another agent to host memory -/

theorem hostAccess_of_touches {s : State} {addr len : Nat} (h : touchesBuffer s addr len = true) (t : State) :
    hostAccess s addr len t = .next (raiseFault s .hostBufferAccess) :=
  hostAccess_eq_next.2 (.inl ⟨h, rfl⟩)

theorem hostAccess_of_inside {s : State} {addr len : Nat} (h : touchesBuffer s addr len = false)
    (hin : len = 0 ∨ addr + len ≤ s.config.addressSpace) (t : State) : hostAccess s addr len t = .next t :=
  hostAccess_eq_next.2 (.inr ⟨h, hin, rfl⟩)

theorem hostAccess_of_outside {s : State} {addr len : Nat} (h : touchesBuffer s addr len = false) (hne : len ≠ 0)
    (hout : s.config.addressSpace < addr + len) (t : State) : hostAccess s addr len t = .fault .outsideAddressSpace := by
  simp [hostAccess, h, hne, hout]

/-- A step on a listed access of another agent, a read or a write, is one `hostAccess`. -/
theorem step_hostAccess {s : State} {addr len : Nat} {bytes : List Byte} {ts : List Turn} (hf : s.fault = none)
    (hlen : bytes.length = len) (ht : s.turns = .hostRead addr len :: ts ∨ s.turns = .hostWrite addr bytes :: ts) :
    ∃ t, step s = hostAccess { s with turns := ts } addr len t := by
  subst hlen
  rcases ht with ht | ht
  · exact ⟨_, step_hostRead hf ht⟩
  · exact ⟨_, step_hostWrite hf ht⟩

/-- Settles O43: the three cases of an access, and the laws of the bytes a write stores. -/
theorem hostAccessToTheBufferFaults : Obligations.HostAccessToTheBufferFaults := by
  unfold Obligations.HostAccessToTheBufferFaults
  intro s addr len bytes ts hf hm hlen
  have htouch := touchesBuffer_iff (s := { s with turns := ts }) (addr := addr) (len := len)
  have hfree := fun h => Bool.eq_false_iff.2 (mt htouch.1 h)
  refine ⟨fun ht => ?_, fun hno hin => ⟨fun ht => ?_, fun ht => ?_⟩⟩
  · obtain ⟨t, hstep⟩ := step_hostAccess hf hlen ht
    rw [hstep]
    refine ⟨fun h => ?_, fun hno hne hout => hostAccess_of_outside (hfree hno) hne hout t⟩
    rw [hostAccess_of_touches (htouch.2 h), raiseFault, hf]
    rfl
  · exact (step_hostRead hf ht).trans (hostAccess_of_inside (hfree hno) hin _)
  · subst hlen
    exact ⟨_, (step_hostWrite hf ht).trans (hostAccess_of_inside (hfree hno) hin _),
      Memory.wf_writeBytes bytes hm (hin.imp_left List.length_eq_zero_iff.1),
      fun i hi => readCell_writeBytes_self bytes hm.1 hi, fun a ha => readCell_writeBytes_of_not_mem bytes _ addr ha⟩

/-! ## The result of a run -/

theorem commandWaits_eq_false_iff {ws : List Word} : commandWaits ws = false ↔ decode ws = .incomplete := by
  simp [commandWaits]

/-- A run ends where no PROCESS is in flight, the mark is none and no whole command waits (70_reset R202). -/
theorem ended_iff {s : State} : s.ended = true ↔
    s.busy = false ∧ s.fault = none ∧ decode s.ctl = .incomplete ∧ decode s.aud = .incomplete := by
  simp only [State.ended, Bool.and_eq_true, Bool.not_eq_true', Option.isNone_iff_eq_none, commandWaits_eq_false_iff,
    and_assoc]

theorem result_isSome_iff {s : State} : s.result.isSome = true ↔ s.ended = true := by
  simp [Option.isSome_iff_exists, result_eq_some]

/-- What a transition from `s` to `t` may add to what the run returns: one reply or none, and no output but the buffer of
the PROCESS it ends (70_reset R202). -/
def addsToResult (s t : State) : Prop :=
  (t.replies = s.replies ∨ ∃ x, t.replies = x :: s.replies) ∧
  (t.outputs = s.outputs ∨ (s.busy = true ∧ t.busy = false ∧
    t.outputs = ⟨s.flight.base, s.flight.frames, bufferBytes s⟩ :: s.outputs))

theorem addsToResult_of_exec {i : Instr} {s t : State} (h : exec i s = .next t) : addsToResult s t := by
  cases exec_inv h <;> simp [addsToResult]

theorem addsToResult_of_engineTurn {s t : State} (h : engineTurn s = .next t) : addsToResult s t := by
  rcases engineTurn_cases h with ⟨-, rfl⟩ | ⟨-, -, -, rfl⟩ | ⟨hb, -, rfl⟩
  · exact ⟨.inl rfl, .inl rfl⟩
  · exact ⟨.inl rfl, .inl rfl⟩
  · exact ⟨.inr ⟨_, rfl⟩, .inr ⟨hb, rfl, rfl⟩⟩

theorem addsToResult_of_hostAccess {s t u : State} {addr len : Nat} (h : hostAccess s addr len t = .next u)
    (ht : addsToResult s t) : addsToResult s u := by
  rcases hostAccess_eq_next.1 h with ⟨-, rfl⟩ | ⟨-, -, rfl⟩
  · exact ⟨.inl rfl, .inl rfl⟩
  · exact ht

/-- A step adds as much: its turn, port and issuer are no part of a result. -/
theorem addsToResult_of_step {s t : State} (h : step s = .next t) : addsToResult s t := by
  suffices addsToResult { s with turns := (nextTurn s).2 } t from this
  obtain ⟨-, ⟨a, i, rest, -, -, hx⟩ | ⟨a, why, rest, -, -, rfl⟩ | ⟨a, -, -, rfl⟩ | ⟨-, hx⟩ |
    ⟨addr, len, -, hx⟩ | ⟨addr, bytes, -, hx⟩⟩ := step_cases h
  · have hadds := addsToResult_of_exec hx
    cases a <;> exact hadds
  · simp [addsToResult]
  · exact ⟨.inl rfl, .inl rfl⟩
  · exact addsToResult_of_engineTurn hx
  · exact addsToResult_of_hostAccess hx ⟨.inl rfl, .inl rfl⟩
  · exact addsToResult_of_hostAccess hx ⟨.inl rfl, .inl rfl⟩

/-- Settles O60, by where a state has a result and by the transition that a step takes. -/
theorem resultOfARun : Obligations.ResultOfARun := by
  unfold Obligations.ResultOfARun
  refine fun s => ⟨result_isSome_iff.trans ended_iff, fun r hr => ?_, fun t h => addsToResult_of_step h⟩
  obtain ⟨-, rfl⟩ := result_eq_some.1 hr
  exact ⟨List.reverse_reverse _, List.reverse_reverse _, rfl, rfl, rfl⟩

end Sys2Proof.Machine

namespace Sys2Proof

/-! ## The command words -/

/-- The number of a legal command word, from the formulas of 30_encoding R56. -/
def Head.code : Head → Nat
  | .create => 0x10000000
  | .destroy => 0x11000000
  | .reset => 0x12000000
  | .process => 0x13000000
  | .set r => 0x20000000 + r.rn * 2 ^ 20
  | .get r => 0x30000000 + r.rn * 2 ^ 20

/-- The legal command word itself. -/
def Head.word (h : Head) : Word := BitVec.ofNat 32 h.code

/-- How many operand words it takes (30_encoding R54). -/
def Head.operandWords : Head → Nat
  | .process => 3
  | .set _ => 1
  | _ => 0

theorem Reg.rn_lt (r : Reg) : r.rn < 0x70 := by
  cases r <;> decide

theorem rn_of_regOfNumber {n : Nat} {r : Reg} (h : regOfNumber n = some r) : r.rn = n := by
  unfold regOfNumber at h
  split at h <;> cases h <;> rfl

/-- Every stage numbers its parameters from 0 without a gap (10_state R26). -/
theorem exists_rn_of_lt_stageSize {stage param : Nat} (h : param < stageSize stage) :
    ∃ r : Reg, r.rn = 16 * stage + param := by
  have hsome : ∀ stage < 7, ∀ param < stageSize stage, (regOfNumber (16 * stage + param)).isSome = true := by decide
  have hstage : stage < 7 := by
    by_contra hge
    unfold stageSize at h
    split at h <;> omega
  obtain ⟨r, hr⟩ := Option.isSome_iff_exists.1 (hsome stage hstage param h)
  exact ⟨r, rn_of_regOfNumber hr⟩

theorem toNat_eq_code_iff {w : Word} {h : Head} : w.toNat = h.code ↔ w = h.word := by
  have hlt : h.code < 2 ^ 32 := by
    cases h with
    | set r | get r =>
      have hrn := r.rn_lt
      simp only [Head.code]
      omega
    | _ => decide
  rw [← BitVec.toNat_inj, Head.word, BitVec.toNat_ofNat, Nat.mod_eq_of_lt hlt]

theorem decodeHead_word (h : Head) : decodeHead h.word = .ok h := by
  cases h with
  | set r | get r => cases r <;> decide
  | _ => decide

/-- The fields that a CTL word is read by make up the word (30_encoding R53). -/
theorem toNat_eq_ctlFields (w : Word) :
    w.toNat = 2 ^ 28 * w.field 31 28 + 2 ^ 24 * w.field 27 24 + w.field 23 0 := by
  unfold Word.field
  omega

/-- The fields that a SET or GET word is read by make up the word (30_encoding R53). -/
theorem toNat_eq_regFields (w : Word) :
    w.toNat = 2 ^ 28 * w.field 31 28 + 2 ^ 20 * w.field 27 20 + w.field 19 0 := by
  unfold Word.field
  omega

theorem code_of_decodeHead {w : Word} {h : Head} (hd : decodeHead w = .ok h) : w.toNat = h.code := by
  have hctl := toNat_eq_ctlFields w
  have hreg := toNat_eq_regFields w
  unfold decodeHead at hd
  split at hd
  case h_1 hclass =>
    split_ifs at hd with hzero
    split at hd <;> cases hd <;> simp only [Head.code] <;> omega
  case h_2 hclass | h_3 hclass =>
    split_ifs at hd with hzero
    split at hd <;> cases hd
    next hr =>
      have hrn := rn_of_regOfNumber hr
      simp only [Head.code]
      omega
  case h_4 => cases hd

/-- The decoder reads a command word as `h` exactly where it is the word of `h`. -/
theorem decodeHead_eq_ok_iff {w : Word} {h : Head} : decodeHead w = .ok h ↔ w = h.word :=
  ⟨fun hd => toNat_eq_code_iff.1 (code_of_decodeHead hd), fun hw => hw ▸ decodeHead_word h⟩

/-- The table of 30_encoding R56 lists the words of the heads. -/
theorem listedWord_iff {w : Word} : Machine.listedWord w ↔ ∃ h : Head, w = h.word := by
  constructor
  · rintro (h | h | h | h | ⟨r, h⟩ | ⟨r, h⟩)
    exacts [⟨.create, h⟩, ⟨.destroy, h⟩, ⟨.reset, h⟩, ⟨.process, h⟩, ⟨.set r, h⟩, ⟨.get r, h⟩]
  · rintro ⟨h, rfl⟩
    cases h with
    | create => exact .inl rfl
    | destroy => exact .inr (.inl rfl)
    | reset => exact .inr (.inr (.inl rfl))
    | process => exact .inr (.inr (.inr (.inl rfl)))
    | set r => exact .inr (.inr (.inr (.inr (.inl ⟨r, rfl⟩))))
    | get r => exact .inr (.inr (.inr (.inr (.inr ⟨r, rfl⟩))))

/-! ## Whole commands -/

@[simp] theorem encode_create : encode .create = [Head.create.word] := rfl

@[simp] theorem encode_destroy : encode .destroy = [Head.destroy.word] := rfl

@[simp] theorem encode_reset : encode .reset = [Head.reset.word] := rfl

@[simp] theorem encode_process (base frames rate : Word) :
    encode (.process base frames rate) = [Head.process.word, base, frames, rate] := rfl

@[simp] theorem encode_setInstr (r : Reg) (data : Word) : encode (setInstr r data) = [(Head.set r).word, data] := by
  cases r <;> rfl

@[simp] theorem encode_getInstr (r : Reg) : encode (getInstr r) = [(Head.get r).word] := by
  cases r <;> rfl

theorem decode_cons_set {w : Word} {r : Reg} (hw : decodeHead w = .ok (.set r)) (data : Word) (rest : List Word) :
    decode (w :: data :: rest) = .command (setInstr r data) rest := by
  simp [decode, hw]

theorem decode_cons_get {w : Word} {r : Reg} (hw : decodeHead w = .ok (.get r)) (rest : List Word) :
    decode (w :: rest) = .command (getInstr r) rest := by
  simp [decode, hw]

/-- Decoding an encoded command gives it back, whatever follows it. -/
theorem decode_encode_append (i : Instr) (rest : List Word) : decode (encode i ++ rest) = .command i rest := by
  rcases Machine.instr_forms i with rfl | rfl | rfl | ⟨base, frames, rate, rfl⟩ | ⟨r, data, rfl⟩ | ⟨r, rfl⟩
  · simp [decode, decodeHead_word]
  · simp [decode, decodeHead_word]
  · simp [decode, decodeHead_word]
  · exact Machine.decode_process base frames rate rest
  · rw [encode_setInstr]
    exact decode_cons_set (decodeHead_word _) data rest
  · rw [encode_getInstr]
    exact decode_cons_get (decodeHead_word _) rest

/-- After a legal command word stand its operands, or some of them have not arrived (60_exceptions R179). -/
theorem incomplete_or_encoded {w : Word} {h : Head} (hw : decodeHead w = .ok h) (ws : List Word) :
    decode (w :: ws) = .incomplete ∨ ∃ i rest, w :: ws = encode i ++ rest := by
  have hword := decodeHead_eq_ok_iff.1 hw
  cases h with
  | create => exact .inr ⟨.create, ws, by simp [hword]⟩
  | destroy => exact .inr ⟨.destroy, ws, by simp [hword]⟩
  | reset => exact .inr ⟨.reset, ws, by simp [hword]⟩
  | process =>
    match ws with
    | [] | [_] | [_, _] => exact .inl (by simp [decode, hw])
    | base :: frames :: rate :: rest => exact .inr ⟨.process base frames rate, rest, by simp [hword]⟩
  | set r =>
    match ws with
    | [] => exact .inl (by simp [decode, hw])
    | data :: rest => exact .inr ⟨setInstr r data, rest, by simp [hword]⟩
  | get r => exact .inr ⟨getInstr r, ws, by simp [hword]⟩

/-- No other words decode to a command. -/
theorem eq_encode_append_of_decode {ws rest : List Word} {i : Instr} (hd : decode ws = .command i rest) :
    ws = encode i ++ rest := by
  cases ws with
  | nil => cases hd
  | cons w ws =>
    cases hw : decodeHead w with
    | error why => simp [decode, hw] at hd
    | ok h =>
      rcases incomplete_or_encoded hw ws with hwait | ⟨i', rest', henc⟩
      · cases hwait.symm.trans hd
      · rw [henc, decode_encode_append] at hd
        cases hd
        exact henc

/-- Settles O2, by the head that the command word decodes to. -/
theorem decodeInvertsEncodeExactly : Obligations.DecodeInvertsEncodeExactly := by
  unfold Obligations.DecodeInvertsEncodeExactly
  exact fun ws i rest => ⟨eq_encode_append_of_decode, fun h => h ▸ decode_encode_append i rest⟩

/-- Settles O1: each list of words is the encoding of its command and the words after it. -/
theorem specWordsDecode : Obligations.SpecWordsDecode := by
  unfold Obligations.SpecWordsDecode
  simp [decodeInvertsEncodeExactly _ _ _, encode]

/-! ## The checks of WellFormed.lean -/

theorem legalCommandWord_word (h : Head) : legalCommandWord h.word = true := by
  cases h with
  | set r | get r => cases r <;> decide
  | _ => decide

theorem operandCount_word (h : Head) : operandCount h.word = h.operandWords := by
  cases h with
  | set r | get r => cases r <;> decide
  | _ => decide

/-- The checks on a command word let only the numbers of R56 through (30_encoding R53, R57). -/
theorem exists_code_of_legalCommandWord {w : Word} (h : legalCommandWord w = true) : ∃ h : Head, w.toNat = h.code := by
  simp only [legalCommandWord, classAssigned, funcAssigned, zeroFieldClear, registerAssigned, Bool.and_eq_true,
    Bool.or_eq_true, decide_eq_true_eq] at h
  obtain ⟨⟨⟨hclass, hfunc⟩, hzero⟩, hreg⟩ := h
  by_cases hctl : w.toNat < 0x20000000
  · simp only [if_pos hctl, beq_iff_eq] at hzero
    have hcode : w.toNat = 0x10000000 ∨ w.toNat = 0x11000000 ∨ w.toNat = 0x12000000 ∨ w.toNat = 0x13000000 := by omega
    rcases hcode with h | h | h | h
    exacts [⟨.create, h⟩, ⟨.destroy, h⟩, ⟨.reset, h⟩, ⟨.process, h⟩]
  · simp only [if_neg hctl, beq_iff_eq] at hzero
    obtain ⟨r, hr⟩ := exists_rn_of_lt_stageSize (hreg.resolve_left hctl)
    by_cases hset : w.toNat < 0x30000000
    · exact ⟨.set r, by simp only [Head.code]; omega⟩
    · exact ⟨.get r, by simp only [Head.code]; omega⟩

theorem legalCommandWord_iff {w : Word} : legalCommandWord w = true ↔ ∃ h : Head, w = h.word := by
  refine ⟨fun h => ?_, fun ⟨h, hw⟩ => hw ▸ legalCommandWord_word h⟩
  exact (exists_code_of_legalCommandWord h).imp fun _ => toNat_eq_code_iff.1

/-- The encoded commands are the legal command words with as many operand words as each takes (30_encoding R54). -/
theorem exists_encode_iff {ws : List Word} :
    (∃ i, ws = encode i) ↔ ∃ (h : Head) (operands : List Word),
      ws = h.word :: operands ∧ operands.length = h.operandWords := by
  constructor
  · rintro ⟨i, rfl⟩
    rcases Machine.instr_forms i with rfl | rfl | rfl | ⟨base, frames, rate, rfl⟩ | ⟨r, data, rfl⟩ | ⟨r, rfl⟩
    · exact ⟨.create, [], rfl, rfl⟩
    · exact ⟨.destroy, [], rfl, rfl⟩
    · exact ⟨.reset, [], rfl, rfl⟩
    · exact ⟨.process, [base, frames, rate], rfl, rfl⟩
    · exact ⟨.set r, [data], encode_setInstr r data, rfl⟩
    · exact ⟨.get r, [], encode_getInstr r, rfl⟩
  · rintro ⟨h, operands, rfl, hlen⟩
    cases h with
    | create =>
      obtain rfl := List.length_eq_zero_iff.1 hlen
      exact ⟨.create, rfl⟩
    | destroy =>
      obtain rfl := List.length_eq_zero_iff.1 hlen
      exact ⟨.destroy, rfl⟩
    | reset =>
      obtain rfl := List.length_eq_zero_iff.1 hlen
      exact ⟨.reset, rfl⟩
    | process =>
      obtain ⟨base, frames, rate, rfl⟩ := List.length_eq_three.1 hlen
      exact ⟨.process base frames rate, rfl⟩
    | set r =>
      obtain ⟨data, rfl⟩ := List.length_eq_one_iff.1 hlen
      exact ⟨setInstr r data, (encode_setInstr r data).symm⟩
    | get r =>
      obtain rfl := List.length_eq_zero_iff.1 hlen
      exact ⟨getInstr r, (encode_getInstr r).symm⟩

/-- Settles O3: both sides say a legal command word and its number of operand words. -/
theorem wellFormedIsEncoded : Obligations.WellFormedIsEncoded := by
  unfold Obligations.WellFormedIsEncoded
  intro ws
  rw [exists_encode_iff]
  cases ws with
  | nil => simp [wellFormedCommand]
  | cons w operands =>
    simp only [wellFormedCommand, Bool.and_eq_true, beq_iff_eq, legalCommandWord_iff, List.cons.injEq]
    constructor
    · rintro ⟨⟨h, rfl⟩, hlen⟩
      exact ⟨h, operands, ⟨rfl, rfl⟩, hlen.trans (operandCount_word h)⟩
    · rintro ⟨h, _, ⟨rfl, rfl⟩, hlen⟩
      exact ⟨⟨h, rfl⟩, hlen.trans (operandCount_word h).symm⟩

/-! ## Illegal words -/

/-- An illegal word is taken alone, for the reason its own bits give (30_encoding R57). -/
theorem decode_eq_illegal_iff {w : Word} {ws : List Word} {why : Illegal} :
    decode (w :: ws) = .illegal why ws ↔ decodeHead w = .error why := by
  cases hw : decodeHead w with
  | error reason => simp [decode, hw]
  | ok h =>
    rcases incomplete_or_encoded hw ws with hwait | ⟨i, rest, henc⟩
    · simp [hwait]
    · simp [henc, decode_encode_append]

theorem exists_decode_illegal_iff {w : Word} {ws : List Word} :
    (∃ why, decode (w :: ws) = .illegal why ws) ↔ ¬ Machine.listedWord w := by
  simp only [decode_eq_illegal_iff, listedWord_iff, ← decodeHead_eq_ok_iff]
  cases decodeHead w <;> simp

end Sys2Proof

namespace Sys2Proof.Machine

/-- A step on an agent's listed turn with an illegal word on its port. -/
theorem step_illegalCommand {s : State} {a : Agent} {ts : List Turn} {why : Illegal} {rest : List Word}
    (hf : s.fault = none) (ht : s.turns = .command a :: ts) (hd : decode (portOf s a) = .illegal why rest) :
    step s = .next (reply { withPort { s with turns := ts } a rest with issuer := a } .errIllegal none) := by
  have hport : portOf { s with turns := ts } a = portOf s a := by cases a <;> rfl
  rw [step, fetch_command hf ht, commandTurn, hport, hd]

/-- Settles O4: the decoder refuses an unlisted word alone, and the agent's turn then only answers. -/
theorem unlistedWordsAreIllegal : Obligations.UnlistedWordsAreIllegal := by
  unfold Obligations.UnlistedWordsAreIllegal
  refine ⟨fun w ws => exists_decode_illegal_iff, fun s a ts w rest hf ht hport hw => ?_⟩
  obtain ⟨why, hd⟩ := exists_decode_illegal_iff.2 hw
  rw [step_illegalCommand hf ht (hport ▸ hd)]
  cases a <;> rfl

@[simp] theorem portOf_placeCommand (s : State) (a : Agent) (ws : List Word) :
    portOf (placeCommand s a ws) a = ws ++ portOf s a := by
  cases a <;> rfl

/-- A whole command placed at the front of a port is the one the next step runs, and its words are all that step takes. -/
theorem step_placeCommand {s : State} (a : Agent) {ws : List Word} {i : Instr} (hf : s.fault = none)
    (hd : decode ws = .command i []) : step (placeCommand s a ws) = exec i { s with issuer := a } := by
  have hwhole : decode (portOf (placeCommand s a ws) a) = .command i (portOf s a) := by
    rw [portOf_placeCommand, eq_encode_append_of_decode hd, List.append_nil, decode_encode_append]
  have hfault : (placeCommand s a ws).fault = none := (withPort_fault s a _).trans hf
  rw [step_command hfault rfl hwhole]
  cases a <;> rfl

/-- Settles O6: the decoder reads a placed command with the port's former words left over. -/
theorem placedCommandRunsNext : Obligations.PlacedCommandRunsNext := by
  unfold Obligations.PlacedCommandRunsNext
  exact fun s nbits w i hf hd => step_placeCommand _ hf hd

end Sys2Proof.Machine

namespace Sys2Proof.Machine

/-! ## Ending and clearing an instance -/

/-- DESTROY of an instance with no PROCESS in flight (40_chain R66). -/
theorem exec_destroy_of_idle {s : State} (hl : s.live = true) (hb : s.busy = false) :
    exec .destroy s = .next (reply { s with live := false, params := .zero, work := .zero } .ok none) := by
  simp [exec_destroy, execDestroy, hl, hb]

/-- RESET of an instance with no PROCESS in flight (40_chain R67). -/
theorem exec_reset_of_idle {s : State} (hl : s.live = true) (hb : s.busy = false) :
    exec .reset s = .next (reply (zeroState s) .ok none) := by
  simp [exec_reset, execReset, hl, hb]

/-- Settles O13: with `live` set and `busy` clear, both commands pass their two checks. -/
theorem destroyAndResetResults : Obligations.DestroyAndResetResults := by
  unfold Obligations.DestroyAndResetResults
  exact fun s hl hb => ⟨exec_destroy_of_idle hl hb, exec_reset_of_idle hl hb⟩

/-- `zero_state` touches the working state and nothing else (40_chain R65). -/
theorem zeroState_restore_work (s : State) : { zeroState s with work := s.work } = s := rfl

/-- Every element of a comb's memory in the zero state is +0.0 (40_chain R65). -/
@[simp] theorem readCell_buf_zero (i : Nat) : readCell Comb.zero.buf i = 0 := rfl

/-- Every element of a channel's delay memory in the zero state is +0.0 (40_chain R65). -/
@[simp] theorem readCell_dly_zero (i : Nat) : readCell Chan.zero.dly i = 0 := rfl

@[simp] theorem Comb.zero_filt : Comb.zero.filt = 0 := rfl
@[simp] theorem Comb.zero_idx : Comb.zero.idx = 0 := rfl
@[simp] theorem Work.zero_left : Work.zero.left = .zero := rfl
@[simp] theorem Work.zero_right : Work.zero.right = .zero := rfl
@[simp] theorem Work.zero_phase : Work.zero.phase = 0 := rfl
@[simp] theorem Work.zero_dlyW : Work.zero.dlyW = 0 := rfl
@[simp] theorem Chan.zero_dist : Chan.zero.dist = ⟨0, 0, 0⟩ := rfl
@[simp] theorem Chan.zero_filt : Chan.zero.filt = ⟨0, 0⟩ := rfl
@[simp] theorem Chan.zero_eq : Chan.zero.eq = ⟨⟨0, 0⟩, ⟨0, 0⟩, ⟨0, 0⟩⟩ := rfl
@[simp] theorem Chan.zero_comp : Chan.zero.comp = ⟨0, 0⟩ := rfl
@[simp] theorem Chan.zero_ph : Chan.zero.ph = ⟨0, 0, 0, 0, 0⟩ := rfl
@[simp] theorem Chan.zero_rev :
    Chan.zero.rev = ⟨.zero, .zero, .zero, .zero, .zero, .zero, .zero, .zero⟩ := rfl

/-- Settles O14: what `zero_state` leaves is `Work.zero`, whose every register, cursor and element is 0. -/
theorem zeroStateWritesExactlyTheWorkingState : Obligations.ZeroStateWritesExactlyTheWorkingState := by
  unfold Obligations.ZeroStateWritesExactlyTheWorkingState
  refine fun s => ⟨zeroState_restore_work s, ?_⟩
  rw [zeroState_work]
  simp

/-! ## The engine's last turn -/

/-- Settles O22: with every frame done the turn is the end step, which keeps the buffer's bytes; with no PROCESS it is idle. -/
theorem endStepAndIdleEngine : Obligations.EndStepAndIdleEngine := by
  unfold Obligations.EndStepAndIdleEngine
  refine fun s => ⟨fun hb hn => ?_, engineTurn_idle⟩
  exact ⟨bufferBytes s, engineTurn_end hb hn, readCell_bufferBytes s⟩

end Sys2Proof.Machine

namespace Sys2Proof.Machine

/-! ## SET and GET on a live instance -/

/-- The SET of 40_chain R79 with every check passed, for any register. -/
theorem exec_setInstr_of_live {s : State} (hl : s.live = true) (r : Reg) (data : Word) :
    exec (setInstr r data) s = .next { s with
      params := writeReg s.params r (setValue r data), replies := ⟨s.issuer, .ok, none⟩ :: s.replies } := by
  rw [exec_setInstr, setReg_of_live hl, reply]

/-- The GET of 40_chain R80 with every check passed, for any register. -/
theorem exec_getInstr_of_live {s : State} (hl : s.live = true) (r : Reg) :
    exec (getInstr r) s = .next { s with
      replies := ⟨s.issuer, .ok, some (readReg s.params r)⟩ :: s.replies } := by
  rw [exec_getInstr, getReg_of_live hl, reply]

/-- Settles O28: the SET and GET of any register, at the three of the distortion. -/
theorem distortionSetAndGet : Obligations.DistortionSetAndGet := by
  unfold Obligations.DistortionSetAndGet
  intro s data hl
  exact ⟨exec_setInstr_of_live hl .distortionEnabled data, exec_getInstr_of_live hl .distortionEnabled,
    exec_setInstr_of_live hl .distortionDrive data, exec_getInstr_of_live hl .distortionDrive,
    exec_setInstr_of_live hl .distortionMix data, exec_getInstr_of_live hl .distortionMix⟩

/-! ## Bit patterns from values -/

theorem abs_f32Value_packBits (neg : Bool) {b : Nat} (hb : b < 0x7F800000) :
    |f32Value (packBits neg b)| = magValue b := by
  rw [f32Value_packBits neg hb]
  simpa [abs_of_nonneg (magValue_nonneg b)] using abs_signValue_mul neg (magValue b) 0

/-- Finite binary32s of one value are the same bits, the two zeros apart. -/
theorem eq_of_f32Value_eq {x y : F32} (hx : isFinite x = true) (hy : isFinite y = true)
    (h : f32Value x = f32Value y) (h0 : f32Value x ≠ 0) : x = y := by
  obtain ⟨neg, b, hb, rfl⟩ := exists_packBits x
  obtain ⟨neg', b', hb', rfl⟩ := exists_packBits y
  rw [isFinite_packBits neg hb] at hx
  rw [isFinite_packBits neg' hb'] at hy
  obtain rfl : b = b' := magValue_strictMono.injective (by
    rw [← abs_f32Value_packBits neg hx, ← abs_f32Value_packBits neg' hy, h])
  by_cases hsign : neg' = neg
  · rw [hsign]
  · rw [Bool.eq_not.2 hsign, f32Value_packBits _ hx, f32Value_packBits _ hx, signValue_not] at h
    rw [f32Value_packBits _ hx] at h0
    exact absurd (by linarith) h0

/-- Only the two zeros have the value 0. -/
theorem exists_eq_fzero {x : F32} (hx : isFinite x = true) (h : f32Value x = 0) : ∃ neg, x = fzero neg := by
  obtain ⟨neg, b, hb, rfl⟩ := exists_packBits x
  have hmag : magValue b = magValue 0 := by
    rw [← abs_f32Value_packBits neg ((isFinite_packBits neg hb).1 hx), h, abs_zero, magValue_zero]
  exact ⟨neg, by rw [magValue_strictMono.injective hmag, fzero]⟩

/-- A rounded result whose exact value is that of a nonzero finite binary32 is that binary32, bit for bit. -/
theorem RoundsTo.eq_of_f32Value {v x : F32} (h : RoundsTo (f32Value x) v) (hx : isFinite x = true)
    (h0 : f32Value x ≠ 0) : v = x := by
  obtain ⟨hfin, hval⟩ := h.exact hx rfl
  exact eq_of_f32Value_eq hfin hx hval (hval ▸ h0)

/-- 1.0 is the unit of multiplication on every finite operand, the zeros with their signs included. -/
theorem fmul_fOne {x : F32} (hx : isFinite x = true) : fmul x fOne = x := by
  by_cases h0 : f32Value x = 0
  · obtain ⟨neg, rfl⟩ := exists_eq_fzero hx h0
    cases neg <;> decide
  · have h := fmul_spec hx (b := fOne) (by decide)
    rw [f32Value_fOne, mul_one] at h
    exact h.eq_of_f32Value hx h0

/-- A finite value times +0.0 is a zero, of the one sign or the other. -/
theorem fmul_zero_spec {x : F32} (hx : isFinite x = true) :
    isFinite (fmul x 0x00000000#32) = true ∧ f32Value (fmul x 0x00000000#32) = 0 := by
  have h := fmul_spec hx (b := 0x00000000#32) (by decide)
  rw [f32Value_zero, mul_zero] at h
  exact h.exact (by decide) f32Value_zero

/-- A zero of either sign added to a finite value keeps its bits; -0.0 is left out, for -0.0 + 0.0 is +0.0. -/
theorem fadd_of_f32Value_zero {x z : F32} (hx : isFinite x = true) (hne : x ≠ 0x80000000#32)
    (hz : isFinite z = true) (hz0 : f32Value z = 0) : fadd x z = x := by
  by_cases h0 : f32Value x = 0
  · obtain ⟨neg, rfl⟩ := exists_eq_fzero hx h0
    obtain ⟨neg', rfl⟩ := exists_eq_fzero hz hz0
    cases neg with
    | true => exact absurd (by decide) hne
    | false => cases neg' <;> decide
  · have h := fadd_spec hx hz
    rw [hz0, add_zero] at h
    exact h.eq_of_f32Value hx h0

/-! ## The dry distortion -/

/-- With no other value listed, `Coef(e)` is what the first precision decides (00_scope R15). -/
theorem coef_of_coefAt {c : Config} (hc : c.coefOther = []) {e : RealExpr} {v : F32} (h : coefAt 96 e = some v) :
    coef c e = v := by
  simp [coef, hc, coefReference, h]

/-- The dry gain `Coef(1 - mix)` at mix +0.0 is 1.0 (41_distortion R83). -/
theorem distCoeffs_dDry_of_mix_zero {c : Config} (hc : c.coefOther = []) {snap : Params}
    (hmix : snap.distortionMix = 0x00000000#32) (fs : Int) : (distCoeffs c snap fs).dDry = fOne := by
  have h : coefAt 96 (.sub (eNat 1) (.f32 0x00000000#32)) = some fOne := by decide
  rw [distCoeffs, hmix]
  exact coef_of_coefAt hc h

/-- The output of a step mixes the input and the new post register (41_distortion R84). -/
theorem distLane_output (k : DistK) (r : DistRegs) (x : F32) :
    (distLane k r x).2 = fadd (fmul x k.dDry) (fmul (distLane k r x).1.post k.dWet) := rfl

/-- Settles O46: the dry product is the input and the wet one a zero, which the sum absorbs. -/
theorem dryDistortionPassesItsInput : Obligations.DryDistortionPassesItsInput := by
  unfold Obligations.DryDistortionPassesItsInput
  intro c snap fs r x hc hmix hx hne hpost
  have hwet : (distCoeffs c snap fs).dWet = 0x00000000#32 := hmix
  obtain ⟨hfin, hzero⟩ := fmul_zero_spec hpost
  rw [distLane_output, distCoeffs_dDry_of_mix_zero hc hmix, fmul_fOne hx, hwet]
  exact fadd_of_f32Value_zero hx hne hfin hzero

end Sys2Proof.Machine

namespace Sys2Proof.Machine

/-! ## The filter -/

/-- Settles O29: the SET and GET of any register, at the three of the filter. -/
theorem filterSetAndGet : Obligations.FilterSetAndGet := by
  unfold Obligations.FilterSetAndGet
  intro s data hl
  exact ⟨exec_setInstr_of_live hl .filterEnabled data, exec_getInstr_of_live hl .filterEnabled,
    exec_setInstr_of_live hl .filterCutoff data, exec_getInstr_of_live hl .filterCutoff,
    exec_setInstr_of_live hl .filterResonance data, exec_getInstr_of_live hl .filterResonance⟩

/-- The output of a step is made of the registers before it alone (42_filter R95). -/
theorem filtLane_output (k : FiltK) (r : FiltRegs) (x : F32) :
    (filtLane k r x).2 = fadd r.lp (fmul k.fF r.bp) := rfl

/-- The new low-pass register is the output (42_filter R95). -/
theorem filtLane_lp (k : FiltK) (r : FiltRegs) (x : F32) : (filtLane k r x).1.lp = (filtLane k r x).2 := rfl

/-- The new band-pass register is where the input enters, as its high-pass part (42_filter R95). -/
theorem filtLane_bp (k : FiltK) (r : FiltRegs) (x : F32) :
    (filtLane k r x).1.bp =
      fadd r.bp (fmul k.fF (fsub (fsub x (filtLane k r x).2) (fmul k.fQ r.bp))) := rfl

/-- From zero registers the output is +0.0 plus a zero of some sign, which is +0.0. -/
theorem filtLane_output_of_zero {k : FiltK} (hk : isFinite k.fF = true) (x : F32) :
    (filtLane k ⟨0, 0⟩ x).2 = 0x00000000#32 := by
  obtain ⟨hfin, hzero⟩ := fmul_zero_spec hk
  exact fadd_of_f32Value_zero (by decide) (by decide) hfin hzero

/-- Settles O47: the output reads only the registers before the step, and the input enters the new band-pass register,
which the next output reads. -/
theorem filterAnswersOneSampleLate : Obligations.FilterAnswersOneSampleLate := by
  unfold Obligations.FilterAnswersOneSampleLate
  intro k r x y
  have hsame : (filtLane k r x).2 = (filtLane k r y).2 := by rw [filtLane_output, filtLane_output]
  have hbp := filtLane_bp k r x
  have hnext := filtLane_output k (filtLane k r x).1 y
  rw [filtLane_output] at hbp
  rw [filtLane_lp, filtLane_output k r x, hbp] at hnext
  exact ⟨filtLane_output k r x, hsame, filtLane_lp k r x, hbp, hnext, fun hk => filtLane_output_of_zero hk x⟩

end Sys2Proof.Machine

namespace Sys2Proof.Machine

/-! ## The equaliser -/

/-- Settles O30: the SET and GET of any register, at the four of the equaliser. -/
theorem eqSetAndGet : Obligations.EqSetAndGet := by
  unfold Obligations.EqSetAndGet
  intro s data hl
  exact ⟨exec_setInstr_of_live hl .eqEnabled data, exec_getInstr_of_live hl .eqEnabled,
    exec_setInstr_of_live hl .eqLow data, exec_getInstr_of_live hl .eqLow,
    exec_setInstr_of_live hl .eqMid data, exec_getInstr_of_live hl .eqMid,
    exec_setInstr_of_live hl .eqHigh data, exec_getInstr_of_live hl .eqHigh⟩

/-- The order of two finite factors does not matter; a NaN result may depend on it (log 7). -/
theorem fmul_comm_of_isFinite {x y : F32} (hx : isFinite x = true) (hy : isFinite y = true) :
    fmul x y = fmul y x := by
  obtain ⟨s, m, e, hux, -⟩ := unpack_of_isFinite hx
  obtain ⟨t, n, f, huy, -⟩ := unpack_of_isFinite hy
  simp only [fmul, hux, huy]
  rw [bne_comm, Nat.mul_comm, Int.add_comm]

theorem alignTo_not (e₀ : ℤ) (neg : Bool) (m : Nat) (e : ℤ) : alignTo e₀ (!neg) m e = -alignTo e₀ neg m e := by
  cases neg <;> simp [alignTo]

/-- A finite value minus itself is +0.0, for -0.0 too. -/
theorem fsub_self {x : F32} (hx : isFinite x = true) : fsub x x = 0 := by
  obtain ⟨s, m, e, hu, -⟩ := unpack_of_isFinite hx
  have hzero : fsub x x = fzero (s && !s) := by
    simp [fsub, hu, Num.negate, addNum, addFinite, alignTo_not]
  rw [hzero, Bool.and_not_self]
  decide

/-- The output of a step is its first product plus the old `z1` (43_eq R106). -/
theorem eqBand_output (k : BandK) (r : EqBand) (x : F32) :
    (eqBand k r x).2 = fadd (fmul k.b0 x) r.z1 := rfl

/-- The new registers are made of the input, the output and the old `z2` (43_eq R106). -/
theorem eqBand_registers (k : BandK) (r : EqBand) (x : F32) :
    (eqBand k r x).1 =
      ⟨fadd (fsub (fmul k.b1 x) (fmul k.a1 (eqBand k r x).2)) r.z2,
        fsub (fmul k.b2 x) (fmul k.a2 (eqBand k r x).2)⟩ := rfl

/-- With B0 = 1 and zero registers the band's output is its input (43_eq R108). -/
theorem eqBand_output_of_zero {k : BandK} (hb0 : k.b0 = fOne) {x : F32} (hx : isFinite x = true)
    (hne : x ≠ 0x80000000#32) : (eqBand k ⟨0, 0⟩ x).2 = x := by
  rw [eqBand_output, hb0, fmul_comm_of_isFinite (by decide) hx, fmul_fOne hx]
  exact fadd_of_f32Value_zero hx hne (by decide) f32Value_zero

/-- Settles O48: the output is the input, so each register is a difference of equal products. -/
theorem unityBandPassesItsInput : Obligations.UnityBandPassesItsInput := by
  unfold Obligations.UnityBandPassesItsInput
  intro k x hb0 hb1 hb2 hx hne hp1 hp2
  have hout : (eqBand k ⟨0, 0⟩ x).2 = x := eqBand_output_of_zero hb0 hx hne
  have hregs : (eqBand k ⟨0, 0⟩ x).1 = ⟨0, 0⟩ := by
    have hzero : fadd (0 : F32) 0 = 0 := by decide
    rw [eqBand_registers, hout, hb1, hb2, fsub_self hp1, fsub_self hp2, hzero]
  exact Prod.ext hregs hout

end Sys2Proof.Machine

namespace Sys2Proof.Machine

/-! ## The compressor -/

/-- Settles O31: the SET and GET of any register, at the six of the compressor. -/
theorem compressorSetAndGet : Obligations.CompressorSetAndGet := by
  unfold Obligations.CompressorSetAndGet
  intro s data hl
  exact ⟨exec_setInstr_of_live hl .compressorEnabled data, exec_getInstr_of_live hl .compressorEnabled,
    exec_setInstr_of_live hl .compressorThreshold data, exec_getInstr_of_live hl .compressorThreshold,
    exec_setInstr_of_live hl .compressorRatio data, exec_getInstr_of_live hl .compressorRatio,
    exec_setInstr_of_live hl .compressorAttack data, exec_getInstr_of_live hl .compressorAttack,
    exec_setInstr_of_live hl .compressorRelease data, exec_getInstr_of_live hl .compressorRelease,
    exec_setInstr_of_live hl .compressorMakeup data, exec_getInstr_of_live hl .compressorMakeup⟩

/-- The level `lvl` that a channel's registers hold (44_compressor R120). -/
def compLevel (r : CompRegs) : F32 := fmul fHalf (fadd r.env (fsqrt r.ms))

/-- The gain `g` at a level (44_compressor R120). -/
def compGain (k : CompK) (lvl : F32) : F32 :=
  if fgt lvl k.cThr then fdiv (fadd k.cThr (fdiv (fsub lvl k.cThr) k.cR)) lvl else fOne

/-- The output of a step is the input times the gain at the new registers' level, times the makeup gain
(44_compressor R120). -/
theorem compLane_output (k : CompK) (r : CompRegs) (x : F32) :
    (compLane k r x).2 = fmul (fmul x (compGain k (compLevel (compLane k r x).1))) k.cMk := rfl

/-- At or below the threshold the gain is 1.0 (44_compressor R120); so too where the comparison has a NaN. -/
theorem compGain_of_not_fgt {k : CompK} {lvl : F32} (h : fgt lvl k.cThr = false) : compGain k lvl = fOne := by
  simp [compGain, h]

/-- Settles O49: the gain and the makeup gain are both 1.0, the unit of multiplication. -/
theorem compressorBelowThresholdPasses : Obligations.CompressorBelowThresholdPasses := by
  unfold Obligations.CompressorBelowThresholdPasses
  intro k r x hmk hx hlvl
  have hgain : compGain k (compLevel (compLane k r x).1) = fOne := compGain_of_not_fgt hlvl
  have hunit : k.cMk = fOne := hmk
  rw [compLane_output, hgain, hunit, fmul_fOne hx, fmul_fOne hx]

end Sys2Proof.Machine

namespace Sys2Proof.Machine

/-! ## The phaser's commands and its step -/

/-- Settles O32: the SET and GET of any register, at the four of the phaser. -/
theorem phaserSetAndGet : Obligations.PhaserSetAndGet := by
  unfold Obligations.PhaserSetAndGet
  intro s data hl
  exact ⟨exec_setInstr_of_live hl .phaserEnabled data, exec_getInstr_of_live hl .phaserEnabled,
    exec_setInstr_of_live hl .phaserRate data, exec_getInstr_of_live hl .phaserRate,
    exec_setInstr_of_live hl .phaserDepth data, exec_getInstr_of_live hl .phaserDepth,
    exec_setInstr_of_live hl .phaserFeedback data, exec_getInstr_of_live hl .phaserFeedback⟩

/-- One channel's step: the feedback into the first section, then each section into the next (45_phaser R139). -/
theorem phLane_sections (k : PhK) (c : F32) (r : PhRegs) (x : F32) :
    ∃ u v0 v1 v2 v3 : F32,
      u = fadd x (fmul k.pFb r.fb) ∧ v0 = fadd (fmul c u) r.s0 ∧ v1 = fadd (fmul c v0) r.s1 ∧
      v2 = fadd (fmul c v1) r.s2 ∧ v3 = fadd (fmul c v2) r.s3 ∧
      phLane k c r x =
        (⟨fsub u (fmul c v0), fsub v0 (fmul c v1), fsub v1 (fmul c v2), fsub v2 (fmul c v3), v3⟩,
         fadd (fmul fHalf x) (fmul fHalf v3)) :=
  ⟨_, _, _, _, _, rfl, rfl, rfl, rfl, rfl, rfl⟩

/-- Settles O58: the sections of each channel at the one coefficient of the shared phase. -/
theorem phaserComputesItsStep : Obligations.PhaserComputesItsStep := by
  unfold Obligations.PhaserComputesItsStep
  intro k w x
  obtain ⟨uL, vL0, vL1, vL2, vL3, huL, hL0, hL1, hL2, hL3, hL⟩ :=
    phLane_sections k (phC k w.phase) w.left.ph x.1
  obtain ⟨uR, vR0, vR1, vR2, vR3, huR, hR0, hR1, hR2, hR3, hR⟩ :=
    phLane_sections k (phC k w.phase) w.right.ph x.2
  refine ⟨_, _, _, phC k w.phase, _, uL, vL0, vL1, vL2, vL3, uR, vR0, vR1, vR2, vR3, rfl, rfl, rfl, rfl, rfl,
    huL, hL0, hL1, hL2, hL3, huR, hR0, hR1, hR2, hR3, ?_⟩
  rw [phStage, hL, hR]
  rfl

/-! ## The bit patterns from +0.0 to below 1.0 -/

/-- The order of finite values is that of their places. -/
theorem f32Value_lt_iff {x y : F32} (hx : isFinite x = true) (hy : isFinite y = true) :
    f32Value x < f32Value y ↔ orderKey x < orderKey y := by
  rw [f32Value_eq_keyValue hx, f32Value_eq_keyValue hy, keyValue_strictMono.lt_iff_lt]

theorem orderKey_fOne : orderKey fOne = 0x3F800000 := by decide

/-- A bit pattern in that range stands for a value in [0, 1). -/
theorem unit_interval_of_toNat_lt {x : F32} (hx : x.toNat < 0x3F800000) :
    isFinite x = true ∧ 0 ≤ f32Value x ∧ f32Value x < 1 := by
  obtain ⟨hfin, h0, -⟩ := unit_range_of_toNat_le hx.le
  refine ⟨hfin, h0, ?_⟩
  rw [← f32Value_fOne, f32Value_lt_iff hfin (by decide), orderKey_fOne, orderKey_of_toNat_lt (by omega)]
  omega

/-- A positive value below 1 has such a bit pattern. -/
theorem toNat_lt_of_f32Value_mem {x : F32} (hx : isFinite x = true) (h0 : 0 < f32Value x) (h1 : f32Value x < 1) :
    x.toNat < 0x3F800000 := by
  have hpos : 0 < orderKey x := by
    rwa [← f32Value_zero, f32Value_lt_iff (by decide) hx] at h0
  rw [← f32Value_fOne, f32Value_lt_iff hx (by decide), orderKey_fOne,
    orderKey_of_toNat_lt (toNat_lt_of_orderKey_pos hpos)] at h1
  omega

/-! ## The fractional part of a binary32 -/

/-- Rounding a value that is not negative and far from overflow answers a finite value that is not negative. -/
theorem RoundsTo.nonneg {r : ℝ} {v : F32} (h : RoundsTo r v) (h0 : 0 ≤ r) (hlt : r < 2 ^ 128 - 2 ^ 103) :
    isFinite v = true ∧ 0 ≤ f32Value v := by
  obtain ⟨hfin, hnear⟩ := h.1 (by rwa [abs_of_nonneg h0])
  obtain ⟨hle, -⟩ := hnear 0x00000000#32 (by decide)
  rw [f32Value_zero, zero_sub, abs_neg, abs_of_nonneg h0] at hle
  exact ⟨hfin, by linarith [(abs_le.1 hle).1]⟩

/-- The fractional part of a nonnegative binary32 is one too: it is made of the low bits of the significand. -/
theorem exists_f32Value_fract {p : F32} (hp : isFinite p = true) (h0 : 0 ≤ f32Value p) :
    ∃ w, isFinite w = true ∧ f32Value w = Int.fract (f32Value p) := by
  obtain ⟨s, m, e, hu, hm, he, -, -⟩ := unpack_of_isFinite hp
  have hval : f32Value p = (m : ℝ) * (2 : ℝ) ^ e := by
    rw [← abs_f32Value_of_unpack hu, abs_of_nonneg h0]
  obtain ⟨k, rfl | rfl⟩ := e.eq_nat_or_neg
  · have hint : f32Value p = ((m * 2 ^ k : Nat) : ℝ) := by
      rw [hval, zpow_natCast]
      push_cast
      rfl
    exact ⟨0x00000000#32, by decide, by rw [hint, Int.fract_natCast, f32Value_zero]⟩
  · have hdiv : ∀ n : Nat, (n : ℝ) * (2 : ℝ) ^ (-(k : ℤ)) = (n : ℝ) / ((2 ^ k : Nat) : ℝ) := by
      intro n
      rw [zpow_neg, zpow_natCast, div_eq_mul_inv]
      push_cast
      rfl
    have hlow : m % 2 ^ k < 2 ^ 24 := (Nat.mod_le _ _).trans_lt hm
    obtain ⟨w, hw, hv⟩ := exists_f32Value false hlow.le he (by omega)
    refine ⟨w, hw, ?_⟩
    rw [hv, hval, hdiv, hdiv, Int.fract_div_natCast_eq_div_natCast_mod]
    simp [signValue]

/-- `p - floor(p)` is exact on a nonnegative value. -/
theorem fsub_ffloor_spec {p : F32} (hp : isFinite p = true) (h0 : 0 ≤ f32Value p) :
    isFinite (fsub p (ffloor p)) = true ∧ f32Value (fsub p (ffloor p)) = Int.fract (f32Value p) := by
  obtain ⟨hfl, hflv⟩ := ffloor_spec hp
  have hround := fsub_spec hp hfl
  rw [hflv, Int.self_sub_floor] at hround
  obtain ⟨w, hw, hv⟩ := exists_f32Value_fract hp h0
  exact hround.exact hw hv

/-- The floor of a whole number is that number, bit for bit. -/
theorem ffloor_of_fract_zero {p : F32} (hp : isFinite p = true) (h : Int.fract (f32Value p) = 0) : ffloor p = p := by
  by_cases h0 : f32Value p = 0
  · obtain ⟨neg, rfl⟩ := exists_eq_fzero hp h0
    cases neg <;> decide
  · obtain ⟨hfl, hflv⟩ := ffloor_spec hp
    have hwhole : f32Value p = f32Value (ffloor p) := by
      rw [hflv, ← sub_eq_zero, Int.self_sub_floor, h]
    exact (eq_of_f32Value_eq hp hfl hwhole h0).symm

/-- `p - floor(p)` has the bit pattern of a value in [0, 1); where it is zero, it is +0.0. -/
theorem fsub_ffloor_toNat_lt {p : F32} (hp : isFinite p = true) (h0 : 0 ≤ f32Value p) :
    (fsub p (ffloor p)).toNat < 0x3F800000 := by
  obtain ⟨hfin, hval⟩ := fsub_ffloor_spec hp h0
  rcases (Int.fract_nonneg (f32Value p)).eq_or_lt with hzero | hpos
  · rw [ffloor_of_fract_zero hp hzero.symm, fsub_self hp]
    decide
  · exact toNat_lt_of_f32Value_mem hfin (hval ▸ hpos) (hval ▸ Int.fract_lt_one _)

/-- `p - floor(p)` keeps the bits of a value that is in [0, 1) already. -/
theorem fsub_ffloor_of_toNat_lt {p : F32} (hp : p.toNat < 0x3F800000) : fsub p (ffloor p) = p := by
  obtain ⟨hfin, h0, h1⟩ := unit_interval_of_toNat_lt hp
  obtain ⟨hfin', hval⟩ := fsub_ffloor_spec hfin h0
  have hplace : orderKey (fsub p (ffloor p)) = orderKey p := by
    apply keyValue_strictMono.injective
    rw [← f32Value_eq_keyValue hfin', ← f32Value_eq_keyValue hfin, hval, Int.fract_eq_self.2 ⟨h0, h1⟩]
  have hlt := fsub_ffloor_toNat_lt hfin h0
  rw [orderKey_of_toNat_lt (by omega), orderKey_of_toNat_lt (by omega)] at hplace
  exact BitVec.eq_of_toNat_eq (by omega)

/-! ## The shared phase -/

/-- The phase advances to the fractional part of the rounded sum (45_phaser R138). -/
theorem phAdvance_eq (k : PhK) (phase : F32) :
    phAdvance k phase = fsub (fadd phase k.pInc) (ffloor (fadd phase k.pInc)) := rfl

/-- Settles O50: the sum rounds to a finite value that is not negative, whose fractional part is exact; at increment
+0.0 the sum is the phase, its own fractional part. -/
theorem phaseStaysInTheUnitInterval : Obligations.PhaseStaysInTheUnitInterval := by
  unfold Obligations.PhaseStaysInTheUnitInterval
  refine fun k phase hphase => ⟨fun hinc => ?_, fun hinc => ?_⟩
  · obtain ⟨hpfin, hp0, hp1⟩ := unit_interval_of_toNat_lt hphase
    obtain ⟨hifin, hi0, hi1⟩ := unit_interval_of_toNat_lt hinc
    have hbound : f32Value phase + f32Value k.pInc < 2 ^ 128 - 2 ^ 103 := by
      norm_num
      linarith
    obtain ⟨hsum, hsum0⟩ := (fadd_spec hpfin hifin).nonneg (add_nonneg hp0 hi0) hbound
    rw [phAdvance_eq]
    exact fsub_ffloor_toNat_lt hsum hsum0
  · have hne : phase ≠ 0x80000000#32 := by
      rintro rfl
      exact absurd hphase (by decide)
    obtain ⟨hpfin, -, -⟩ := unit_interval_of_toNat_lt hphase
    rw [phAdvance_eq, hinc, fadd_of_f32Value_zero hpfin hne (by decide) f32Value_zero]
    exact fsub_ffloor_of_toNat_lt hphase

end Sys2Proof.Machine

namespace Sys2Proof.Machine

/-! ## The reverb's commands and its combs -/

/-- Settles O33: the SET and GET of any register, at the four of the reverb. -/
theorem reverbSetAndGet : Obligations.ReverbSetAndGet := by
  unfold Obligations.ReverbSetAndGet
  intro s data hl
  exact ⟨exec_setInstr_of_live hl .reverbEnabled data, exec_getInstr_of_live hl .reverbEnabled,
    exec_setInstr_of_live hl .reverbRoomSize data, exec_getInstr_of_live hl .reverbRoomSize,
    exec_setInstr_of_live hl .reverbDamping data, exec_getInstr_of_live hl .reverbDamping,
    exec_setInstr_of_live hl .reverbMix data, exec_getInstr_of_live hl .reverbMix⟩

/-- A cursor that goes round a memory of `len` elements is elsewhere until it has moved `len` places. -/
theorem ne_add_mod_of_lt {i d len : Nat} (hi : i < len) (hd : 0 < d) (hlt : d < len) : i ≠ (i + d) % len := by
  intro h
  have hmod : i ≡ i + d [MOD len] := (Nat.mod_eq_of_lt hi).trans h
  exact Nat.not_dvd_of_pos_of_lt hd hlt (Nat.left_modEq_add_iff.1 hmod)

/-- The output of a step is the element at the cursor (46_reverb R153). -/
theorem combStep_output (k : RevK) (len : Nat) (x : F32) (c : Comb) :
    (combStep k len x c).2 = readCell c.buf c.idx := rfl

/-- A step moves the cursor one place round the memory (46_reverb R153). -/
theorem combStep_idx (k : RevK) (len : Nat) (x : F32) (c : Comb) :
    (combStep k len x c).1.idx = (c.idx + 1) % len := rfl

/-- A step writes the input plus the feedback of the new damping register at the element it read (46_reverb R153). -/
theorem combStep_buf (k : RevK) (len : Nat) (x : F32) (c : Comb) :
    (combStep k len x c).1.buf =
      writeCell c.buf c.idx (fadd x (fmul (combStep k len x c).1.filt k.rFb)) := rfl

/-- A step keeps the cursor in range. -/
theorem combStep_idx_lt {len : Nat} (hlen : 0 < len) (k : RevK) (x : F32) (c : Comb) :
    (combStep k len x c).1.idx < len := Nat.mod_lt _ hlen

theorem combRun_cons (k : RevK) (len : Nat) (c : Comb) (x : F32) (xs : List F32) :
    combRun k len c (x :: xs) = combRun k len (combStep k len x c).1 xs := rfl

/-- A run moves the cursor one place per input. -/
theorem combRun_idx (k : RevK) {len : Nat} {c : Comb} (xs : List F32) (hidx : c.idx < len) :
    (combRun k len c xs).idx = (c.idx + xs.length) % len := by
  induction xs generalizing c with
  | nil => exact (Nat.mod_eq_of_lt hidx).symm
  | cons x xs ih =>
    rw [combRun_cons, ih (combStep_idx_lt (Nat.zero_lt_of_lt hidx) k x c), combStep_idx, Nat.mod_add_mod,
      Nat.add_assoc, Nat.add_comm 1, List.length_cons]

/-- A run leaves alone every element that its cursor does not pass. -/
theorem readCell_combRun_of_not_passed (k : RevK) {len i : Nat} {c : Comb} (xs : List F32) (hidx : c.idx < len)
    (hi : ∀ j < xs.length, i ≠ (c.idx + j) % len) :
    readCell (combRun k len c xs).buf i = readCell c.buf i := by
  induction xs generalizing c with
  | nil => rfl
  | cons x xs ih =>
    have hfirst : i ≠ c.idx := by
      have h := hi 0 (by simp)
      rwa [Nat.add_zero, Nat.mod_eq_of_lt hidx] at h
    have hrest : ∀ j < xs.length, i ≠ ((combStep k len x c).1.idx + j) % len := by
      intro j hj
      have h := hi (j + 1) (by simpa using hj)
      rwa [combStep_idx, Nat.mod_add_mod, Nat.add_assoc, Nat.add_comm 1]
    rw [combRun_cons, ih (combStep_idx_lt (Nat.zero_lt_of_lt hidx) k x c) hrest, combStep_buf,
      readCell_writeCell_of_ne _ _ hfirst]

/-- Settles O51: after `len` steps the cursor is back at the element the first step wrote, and no step between writes
it. -/
theorem combDelaysByExactlyItsLength : Obligations.CombDelaysByExactlyItsLength := by
  unfold Obligations.CombDelaysByExactlyItsLength
  intro k len c x y xs hidx hwf hlen
  have hfirst : (combStep k len x c).1.idx < len := combStep_idx_lt (Nat.zero_lt_of_lt hidx) k x c
  have hback : (combRun k len (combStep k len x c).1 xs).idx = c.idx := by
    rw [combRun_idx k xs hfirst, combStep_idx, Nat.mod_add_mod, Nat.add_assoc, Nat.add_comm 1, hlen,
      Nat.add_mod_right, Nat.mod_eq_of_lt hidx]
  have hkept : ∀ j < xs.length, c.idx ≠ ((combStep k len x c).1.idx + j) % len := by
    intro j hj
    rw [combStep_idx, Nat.mod_add_mod, Nat.add_assoc]
    exact ne_add_mod_of_lt hidx (by omega) (by omega)
  constructor
  · rw [combStep_output, hback, readCell_combRun_of_not_passed k xs hfirst hkept, combStep_buf,
      readCell_writeCell_self hwf]
  · rw [combStep_idx, hback]

end Sys2Proof.Machine

namespace Sys2Proof.Machine

/-! ## The delay's commands and its memory -/

/-- Settles O34: the SET and GET of any register, at the four of the delay. -/
theorem delaySetAndGet : Obligations.DelaySetAndGet := by
  unfold Obligations.DelaySetAndGet
  intro s data hl
  exact ⟨exec_setInstr_of_live hl .delayEnabled data, exec_getInstr_of_live hl .delayEnabled,
    exec_setInstr_of_live hl .delayTime data, exec_getInstr_of_live hl .delayTime,
    exec_setInstr_of_live hl .delayFeedback data, exec_getInstr_of_live hl .delayFeedback,
    exec_setInstr_of_live hl .delayMix data, exec_getInstr_of_live hl .delayMix⟩

/-- The element both channels read in a frame (47_delay R167). -/
def delayReadIdx (k : DlyK) (w : Work) : Nat := (w.dlyW + 48000 - k.off) % 48000

/-- The sample `d` that a channel reads in a frame (47_delay R166). -/
def Side.delayed (side : Side) (k : DlyK) (w : Work) : F32 := readCell (side.chan w).dly (delayReadIdx k w)

/-- A frame moves the cursor one place round the memory (47_delay R167). -/
theorem dlyStage_dlyW (k : DlyK) (w : Work) (x : F32 × F32) : (dlyStage k w x).1.dlyW = (w.dlyW + 1) % 48000 := rfl

/-- A frame keeps the cursor in range. -/
theorem dlyStage_dlyW_lt (k : DlyK) (w : Work) (x : F32 × F32) : (dlyStage k w x).1.dlyW < 48000 :=
  Nat.mod_lt _ (by decide)

/-- A frame writes on each channel the input plus the feedback of what it read, at the cursor (47_delay R166). -/
theorem dlyStage_dly (side : Side) (k : DlyK) (w : Work) (x : F32 × F32) :
    (side.chan (dlyStage k w x).1).dly =
      writeCell (side.chan w).dly w.dlyW (fadd (side.sample x) (fmul (side.delayed k w) k.eFb)) := by
  cases side <;> rfl

/-- After a frame the element at the cursor it ran with is what it wrote (47_delay R166). -/
theorem readCell_dlyStage_cursor (side : Side) (k : DlyK) {w : Work} (x : F32 × F32)
    (hwf : Cells.wf (side.chan w).dly) :
    readCell (side.chan (dlyStage k w x).1).dly w.dlyW =
      fadd (side.sample x) (fmul (side.delayed k w) k.eFb) := by
  rw [dlyStage_dly, readCell_writeCell_self hwf]

/-- A frame outputs the dry input plus the wet part of what each channel read (47_delay R166). -/
theorem dlyStage_output (k : DlyK) (w : Work) (x : F32 × F32) :
    (dlyStage k w x).2 =
      (fadd (fmul x.1 k.eDry) (fmul (Side.left.delayed k w) k.eWet),
       fadd (fmul x.2 k.eDry) (fmul (Side.right.delayed k w) k.eWet)) := rfl

theorem delayRun_cons (k : DlyK) (w : Work) (x : F32 × F32) (xs : List (F32 × F32)) :
    delayRun k w (x :: xs) = delayRun k (dlyStage k w x).1 xs := rfl

/-- A run moves the cursor one place per frame. -/
theorem delayRun_dlyW (k : DlyK) {w : Work} (xs : List (F32 × F32)) (hw : w.dlyW < 48000) :
    (delayRun k w xs).dlyW = (w.dlyW + xs.length) % 48000 := by
  induction xs generalizing w with
  | nil => exact (Nat.mod_eq_of_lt hw).symm
  | cons x xs ih =>
    rw [delayRun_cons, ih (dlyStage_dlyW_lt k w x), dlyStage_dlyW, Nat.mod_add_mod, Nat.add_assoc, Nat.add_comm 1,
      List.length_cons]

/-- A run leaves alone every element that the cursor does not pass. -/
theorem readCell_delayRun_of_not_passed (side : Side) (k : DlyK) {w : Work} {i : Nat} (xs : List (F32 × F32))
    (hw : w.dlyW < 48000) (hi : ∀ j < xs.length, i ≠ (w.dlyW + j) % 48000) :
    readCell (side.chan (delayRun k w xs)).dly i = readCell (side.chan w).dly i := by
  induction xs generalizing w with
  | nil => rfl
  | cons x xs ih =>
    have hfirst : i ≠ w.dlyW := by
      have h := hi 0 (by simp)
      rwa [Nat.add_zero, Nat.mod_eq_of_lt hw] at h
    have hrest : ∀ j < xs.length, i ≠ ((dlyStage k w x).1.dlyW + j) % 48000 := by
      intro j hj
      have h := hi (j + 1) (by simpa using hj)
      rwa [dlyStage_dlyW, Nat.mod_add_mod, Nat.add_assoc, Nat.add_comm 1]
    rw [delayRun_cons, ih (dlyStage_dlyW_lt k w x) hrest, dlyStage_dly, readCell_writeCell_of_ne _ _ hfirst]

section FirstFrame

variable {k : DlyK} {w : Work} (x : F32 × F32) {xs : List (F32 × F32)}

/-- A frame and a run after it move the cursor by their number of frames. -/
theorem delayRun_dlyStage_dlyW : (delayRun k (dlyStage k w x).1 xs).dlyW = (w.dlyW + (xs.length + 1)) % 48000 := by
  rw [delayRun_dlyW k xs (dlyStage_dlyW_lt k w x), dlyStage_dlyW, Nat.mod_add_mod, Nat.add_assoc, Nat.add_comm 1]

/-- Between a frame and the frame `off` later no frame writes the element the first one wrote, and the later frame
reads it. -/
theorem delayed_delayRun_dlyStage (side : Side) (hoff : k.off < 48000) (hw : w.dlyW < 48000)
    (hwf : Cells.wf (side.chan w).dly) (hlen : xs.length + 1 = k.off) :
    side.delayed k (delayRun k (dlyStage k w x).1 xs) = fadd (side.sample x) (fmul (side.delayed k w) k.eFb) := by
  have hread : delayReadIdx k (delayRun k (dlyStage k w x).1 xs) = w.dlyW := by
    rw [delayReadIdx, delayRun_dlyStage_dlyW, hlen]
    omega
  have hkept : ∀ j < xs.length, w.dlyW ≠ ((dlyStage k w x).1.dlyW + j) % 48000 := by
    intro j hj
    rw [dlyStage_dlyW, Nat.mod_add_mod, Nat.add_assoc]
    exact ne_add_mod_of_lt hw (by omega) (by omega)
  rw [Side.delayed, hread, readCell_delayRun_of_not_passed side k xs (dlyStage_dlyW_lt k w x) hkept,
    readCell_dlyStage_cursor side k x hwf]

end FirstFrame

/-- Settles O52: what the first frame writes at the cursor, the frame `off` later reads, on either channel. -/
theorem delayReadsOffFramesBack : Obligations.DelayReadsOffFramesBack := by
  unfold Obligations.DelayReadsOffFramesBack
  intro k w x y xs _ hoff hw hwfL hwfR hlen
  have hoff' : k.off < 48000 := by omega
  refine ⟨readCell_dlyStage_cursor .left k x hwfL, readCell_dlyStage_cursor .right k x hwfR, ?_, ?_⟩
  · rw [dlyStage_output, delayed_delayRun_dlyStage x .left hoff' hw hwfL hlen,
      delayed_delayRun_dlyStage x .right hoff' hw hwfR hlen]
    rfl
  · rw [dlyStage_dlyW, delayRun_dlyStage_dlyW, hlen, Nat.mod_add_mod]

end Sys2Proof.Machine

namespace Sys2Proof.Machine

/-! ## The status words and the fault mark -/

/-- The status word of a code (60_exceptions R177), OK at the numbers that are none. -/
def statusOfCode (code : Word) : Status :=
  match code.toNat with
  | 1 => .errAlloc
  | 2 => .errRate
  | 3 => .errIllegal
  | 4 => .errNoChain
  | 5 => .errExists
  | 6 => .errBuffer
  | _ => .ok

/-- Each status is read back from its code. -/
theorem statusOfCode_statusCode : Function.LeftInverse statusOfCode statusCode := by
  intro status
  cases status <;> rfl

/-- Settles O40: the codes are those of the table, and a status is read back from its code. -/
theorem statusCodes : Obligations.StatusCodes := by
  unfold Obligations.StatusCodes
  exact ⟨rfl, rfl, rfl, rfl, rfl, rfl, rfl, fun _ _ h => statusOfCode_statusCode.injective h⟩

/-- At a marked state nothing is fetched, whatever the turns and the ports hold (60_exceptions R178). -/
theorem fetch_of_marked {s : State} {reason : FaultReason} (hf : s.fault = some reason) :
    fetch s = .done (.fault (.stopped reason)) := by
  simp only [fetch, hf]

/-- Settles O7: a step begins with the fetch, and a marked state has none. -/
theorem markedStateIsQuiescent : Obligations.MarkedStateIsQuiescent := by
  unfold Obligations.MarkedStateIsQuiescent
  intro s reason hf
  rw [step, fetch_of_marked hf]

end Sys2Proof.Machine

namespace Sys2Proof.Machine

/-! ## Power-up and clearing -/

/-- Settles O9: the three fields as `State.reset` writes them. -/
theorem powerUpState : Obligations.PowerUpState := by
  unfold Obligations.PowerUpState
  exact ⟨rfl, rfl, rfl⟩

/-- Clearing the working state a second time changes nothing, a reply in between or not (40_chain R65). -/
theorem zeroState_reply_zeroState (s : State) (status : Status) (data : Option Word) :
    zeroState (reply (zeroState s) status data) = reply (zeroState s) status data := rfl

/-- CREATE on a block without an instance where the draw succeeds (40_chain R64). -/
theorem exec_create_of_drawn {s : State} (hl : s.live = false) (hd : s.allocDraws.headD true = true) :
    exec .create s = .next (reply (createInstance { s with allocDraws := s.allocDraws.tail }) .ok none) :=
  (createMakesAFreshInstance s).1 hl hd

/-- The instance a successful CREATE makes is the same one whatever the block held (40_chain R64). -/
theorem instance_of_create {s t : State} (hl : s.live = false) (hd : s.allocDraws.headD true = true)
    (h : exec .create s = .next t) :
    t.live = true ∧ t.busy = false ∧ t.params = createParams ∧ t.work = .zero := by
  obtain rfl := Host.Outcome.next.inj ((exec_create_of_drawn hl hd).symm.trans h)
  exact ⟨rfl, rfl, rfl, rfl⟩

/-- Settles O17: RESET on a cleared working state only replies; DESTROY leaves no instance, and what CREATE makes then
does not depend on the rest. -/
theorem resetIdempotentAndCreateForgets : Obligations.ResetIdempotentAndCreateForgets := by
  unfold Obligations.ResetIdempotentAndCreateForgets
  constructor
  · intro s t hl hb h
    obtain rfl := Host.Outcome.next.inj ((exec_reset_of_idle hl hb).symm.trans h)
    rw [exec_reset_of_idle (by simpa using hl) (by simpa using hb), zeroState_reply_zeroState]
    rfl
  · intro s d c f g hl hb hdestroy hdrawD hc hlF hdrawF hg
    have hlD : d.live = false := by
      obtain rfl := Host.Outcome.next.inj ((exec_destroy_of_idle hl hb).symm.trans hdestroy)
      rfl
    obtain ⟨hlive, hbusy, hparams, hwork⟩ := instance_of_create hlD hdrawD hc
    obtain ⟨hlive', hbusy', hparams', hwork'⟩ := instance_of_create hlF hdrawF hg
    exact ⟨hlive.trans hlive'.symm, hbusy.trans hbusy'.symm, hparams.trans hparams'.symm, hwork.trans hwork'.symm⟩

end Sys2Proof.Machine
